-- ==== Sys2Proof/Word.lean ====
section
/-! DEFINITION. The words of the machine: operand words of `XW` bits (00_scope.md R6; log 1) and 8-bit samples
(00_scope.md R5, R8). -/

namespace Sys2Proof

/-- The width in bits of one operand word, the open parameter `XW` of R6, fixed (log 1, DESIGN CHOICE). -/
abbrev xw : Nat := 32

/-- One operand word (10_state.md R15). -/
abbrev Word := BitVec 32

/-- One sample, `u8` (R8), and the type of the `STATUS` register (10_state.md R19). -/
abbrev Byte := BitVec 8

end Sys2Proof
end

