-- ==== Sys2Proof/Config.lean ====
section
/-! DEFINITION. What an implementation fixes (00_scope.md R5 to R7) and the free values: opaque constants with no body,
of which nothing can be proved but that they are values. -/

namespace Sys2Proof.Config

/-- The address width `AW` (R6, OPEN), fixed (log 2, DESIGN CHOICE): a location's address lies in `[0, 2^32)`. -/
abbrev aw : Nat := 32

/-- The first integer that is no address. -/
abbrev addressEnd : Nat := 4294967296

/-- `N_INSTANCES` (R6, OPEN): the model has one engine (log 3, DESIGN CHOICE). -/
abbrev nInstances : Nat := 1

/-- `ACC_BITS` (43_filter_c.md R93): at least 20; the model takes 20 (log 18, DESIGN CHOICE). -/
abbrev accBits : Nat := 20

/-- `KERNEL` (R5; 10_state.md R22). -/
def kernel : List Int := [1, -5, 20, 20, -5, 1]

/-- `BIAS1` (R5). -/
abbrev bias1 : Int := 16

/-- `SHIFT1` (R5). -/
abbrev shift1 : Nat := 5

/-- `BIAS2` (R5). -/
abbrev bias2 : Int := 512

/-- `SHIFT2` (R5). -/
abbrev shift2 : Nat := 10

/-- `MAX_HEIGHT` (R5). -/
abbrev maxHeight : Nat := 16

/-- `ECODE_UNSUPPORTED_WIDTH` (R6; 60_exceptions.md R135). -/
abbrev ecodeUnsupportedWidth : BitVec 4 := 1

/-- The contents of a phase ROM: sixteen recipe words R9 (10_state.md R21), indexed by `P4 = 4 * vphase + hphase`. -/
abbrev Rom := Vector (BitVec 9) 16

/-- `ROM_DOC` (45_phase_table.md R101), the table as printed. -/
def romDoc : Rom :=
  #v[0x000, 0x104, 0x040, 0x114,
     0x108, 0x184, 0x1C8, 0x185,
     0x080, 0x1C9, 0x0C0, 0x1C9,
     0x128, 0x186, 0x1CA, 0x1A7]

/-- `ROM_ALT` (93_implementation_defined.md G1), not from the source: a second well-formed value of the parameter. -/
def romAlt : Rom :=
  #v[0x000, 0x104, 0x040, 0x114,
     0x108, 0x184, 0x1C4, 0x194,
     0x080, 0x1C8, 0x0C0, 0x1C9,
     0x128, 0x186, 0x1C6, 0x196]

/-- `PHASE_ROM` (R7): the default and normative value `ROM_DOC` (log 4). -/
def phaseRom : Rom := romDoc

/-- FREE VALUE (log 6; U10): what operand register `i` holds after the reset that made draw `n`. -/
opaque operandAtReset (n i : Nat) : Word

/-- FREE VALUE (log 7; U9): the contents of scratch buffer `TMP_A` (`b = 0`) or `TMP_B` (`b = 1`) after draw `n`. -/
opaque scratchTile (n b : Nat) : Vector Byte 256

/-- FREE VALUE (log 7; U9): the contents of `MID` after draw `n`. -/
opaque scratchMid (n : Nat) : Vector (BitVec 16) 336

/-- FREE VALUE (log 7; U9): the stage-two accumulator after draw `n`. -/
opaque accWord (n : Nat) : BitVec 20

/-- FREE VALUE (logs 14 and 15; U8, U11): whether the command's write of block position `k` stands, at the end of the command
that made draw `n`: against a host's write of the same location, or against a reset that came before it. -/
opaque landed (n k : Nat) : Bool

/-- FREE VALUE (log 14; U8): whether the host's read of draw `n`, of a location the running command writes, sees the final
sample. -/
opaque seesFinal (n : Nat) : Bool

/-- FREE VALUE (log 14; U7): the result at block position `k` of the command that made draw `n`, where a source sample of that
position was written while the command ran. Each draw has its own value: a host read of the result in between is another draw
(log 14, DESIGN CHOICE). -/
opaque racedSample (n k : Nat) : Byte

/-- FREE VALUE (log 13): what a total read would give at an address that is no valid location. Every meaning checks
validity first, so no in-contract command reads it. -/
opaque invalidSample (a : Nat) : Byte

end Sys2Proof.Config
end

