-- ==== Sys2Proof/Syntax.lean ====
section
/-! DEFINITION. Syntax: the command descriptor, source terms, recipes, the coded forms (30_encoding.md R54 to R60) and
`Instr`, one constructor per row of spec/opcode_table.json. -/

namespace Sys2Proof

/-- The eight operand words, in the argument order of 10_state.md R15 and 30_encoding.md R54: a command descriptor
(format D8), and the contents of the operand registers `x[0..7]`. -/
structure Operands where
  srcPtr : Word
  srcStride : Word
  dstPtr : Word
  dstStride : Word
  mvX : Word
  mvY : Word
  width : Word
  height : Word
  deriving DecidableEq, Repr

/-- The four unit operations a source term can select (30_encoding.md R57, R59). -/
inductive UnitOp where
  | copy
  | filtH
  | filtV
  | filtC
  deriving DecidableEq, Repr

/-- A source term (30_encoding.md R57): a unit operation, shifted one row down if `dr`, one column right if `dc`. -/
structure Term where
  op : UnitOp
  dr : Bool
  dc : Bool
  deriving DecidableEq, Repr

/-- The three fields of a recipe word (30_encoding.md R58). -/
structure Recipe where
  avg : Bool
  a : Term
  b : Term
  deriving DecidableEq, Repr

/-- The coded forms (30_encoding.md R60): a descriptor D8, a dispatch key K6, a source term S4, a recipe word R9. They
are carried in different places (the `CMD` port, the dispatcher, the phase ROM), so the form is part of the code. -/
inductive Code where
  | d8 (words : List Word)
  | k6 (key : BitVec 6)
  | s4 (term : BitVec 4)
  | r9 (word : BitVec 9)
  deriving DecidableEq, Repr

/-- The instructions: one constructor per row of spec/opcode_table.json. -/
inductive Instr where
  /-- `PREDICT_LUMA` (R125), the one host command. -/
  | predictLuma (d : Operands)
  /-- `MC_V0H0.W4` (R105). -/
  | mcV0H0W4
  /-- `MC_V0H1.W4` (R106). -/
  | mcV0H1W4
  /-- `MC_V0H2.W4` (R107). -/
  | mcV0H2W4
  /-- `MC_V0H3.W4` (R108). -/
  | mcV0H3W4
  /-- `MC_V1H0.W4` (R109). -/
  | mcV1H0W4
  /-- `MC_V1H1.W4` (R110). -/
  | mcV1H1W4
  /-- `MC_V1H2.W4` (R111). -/
  | mcV1H2W4
  /-- `MC_V1H3.W4` (R112). -/
  | mcV1H3W4
  /-- `MC_V2H0.W4` (R113). -/
  | mcV2H0W4
  /-- `MC_V2H1.W4` (R114). -/
  | mcV2H1W4
  /-- `MC_V2H2.W4` (R115). -/
  | mcV2H2W4
  /-- `MC_V2H3.W4` (R116). -/
  | mcV2H3W4
  /-- `MC_V3H0.W4` (R117). -/
  | mcV3H0W4
  /-- `MC_V3H1.W4` (R118). -/
  | mcV3H1W4
  /-- `MC_V3H2.W4` (R119). -/
  | mcV3H2W4
  /-- `MC_V3H3.W4` (R120). -/
  | mcV3H3W4
  /-- `MC_V0H0.W8` (R105). -/
  | mcV0H0W8
  /-- `MC_V0H1.W8` (R106). -/
  | mcV0H1W8
  /-- `MC_V0H2.W8` (R107). -/
  | mcV0H2W8
  /-- `MC_V0H3.W8` (R108). -/
  | mcV0H3W8
  /-- `MC_V1H0.W8` (R109). -/
  | mcV1H0W8
  /-- `MC_V1H1.W8` (R110). -/
  | mcV1H1W8
  /-- `MC_V1H2.W8` (R111). -/
  | mcV1H2W8
  /-- `MC_V1H3.W8` (R112). -/
  | mcV1H3W8
  /-- `MC_V2H0.W8` (R113). -/
  | mcV2H0W8
  /-- `MC_V2H1.W8` (R114). -/
  | mcV2H1W8
  /-- `MC_V2H2.W8` (R115). -/
  | mcV2H2W8
  /-- `MC_V2H3.W8` (R116). -/
  | mcV2H3W8
  /-- `MC_V3H0.W8` (R117). -/
  | mcV3H0W8
  /-- `MC_V3H1.W8` (R118). -/
  | mcV3H1W8
  /-- `MC_V3H2.W8` (R119). -/
  | mcV3H2W8
  /-- `MC_V3H3.W8` (R120). -/
  | mcV3H3W8
  /-- `MC_V0H0.W16` (R105). -/
  | mcV0H0W16
  /-- `MC_V0H1.W16` (R106). -/
  | mcV0H1W16
  /-- `MC_V0H2.W16` (R107). -/
  | mcV0H2W16
  /-- `MC_V0H3.W16` (R108). -/
  | mcV0H3W16
  /-- `MC_V1H0.W16` (R109). -/
  | mcV1H0W16
  /-- `MC_V1H1.W16` (R110). -/
  | mcV1H1W16
  /-- `MC_V1H2.W16` (R111). -/
  | mcV1H2W16
  /-- `MC_V1H3.W16` (R112). -/
  | mcV1H3W16
  /-- `MC_V2H0.W16` (R113). -/
  | mcV2H0W16
  /-- `MC_V2H1.W16` (R114). -/
  | mcV2H1W16
  /-- `MC_V2H2.W16` (R115). -/
  | mcV2H2W16
  /-- `MC_V2H3.W16` (R116). -/
  | mcV2H3W16
  /-- `MC_V3H0.W16` (R117). -/
  | mcV3H0W16
  /-- `MC_V3H1.W16` (R118). -/
  | mcV3H1W16
  /-- `MC_V3H2.W16` (R119). -/
  | mcV3H2W16
  /-- `MC_V3H3.W16` (R120). -/
  | mcV3H3W16
  /-- `COPY` (R70) as a source term. -/
  | copy (dr dc : Bool)
  /-- `FILT_H` (R75) as a source term. -/
  | filtH (dr dc : Bool)
  /-- `FILT_V` (R82) as a source term. -/
  | filtV (dr dc : Bool)
  /-- `FILT_C` (R88) as a source term. -/
  | filtC (dr dc : Bool)
  /-- `AVG` (R97): the recipe word with `avg = 1` and the terms `a`, `b`. -/
  | avg (a b : Term)
  deriving DecidableEq, Repr

/-- A plane reference (20_memory.md R35): base address and row stride. -/
structure Plane where
  base : Word
  stride : Word
  deriving DecidableEq, Repr

/-- The pseudo-instruction `predict` (30_encoding.md R68; 46_dispatcher.md R134): the same command in the plane form. -/
def predict (src dst : Plane) (mvX mvY width height : Word) : Instr :=
  .predictLuma { srcPtr := src.base, srcStride := src.stride, dstPtr := dst.base, dstStride := dst.stride,
                 mvX := mvX, mvY := mvY, width := width, height := height }

/-- The row of a unit operation with its shifts. -/
def Term.instr (t : Term) : Instr :=
  match t.op with
  | .copy => .copy t.dr t.dc
  | .filtH => .filtH t.dr t.dc
  | .filtV => .filtV t.dr t.dc
  | .filtC => .filtC t.dr t.dc

end Sys2Proof
end

