-- ==== Sys2Proof/WellFormed.lean ====
section
/-! DEFINITION. Well-formedness of syntax: the one illegal encoding of a command (30_encoding.md R64) and the reserved
recipe encoding (R65). -/

namespace Sys2Proof

/-- `WIDTH`, as a whole word, is 4, 8 or 16 (30_encoding.md R56, R64). -/
def widthLegal (w : Word) : Bool := w == 4 || w == 8 || w == 16

/-- The all-zero source term, the only `B` that a recipe with `avg = 0` may have (30_encoding.md R58). -/
def Term.zero : Term := { op := .copy, dr := false, dc := false }

/-- Not the reserved recipe encoding (30_encoding.md R65): `B = 0000` when `avg = 0`. -/
def Recipe.wellFormed (r : Recipe) : Bool := r.avg || r.b == Term.zero

/-- An instruction is well formed unless it is a command with an unsupported width (30_encoding.md R64). Every value of
every other operand is meaningful: all sixteen S4 terms (R65), all descriptors with a legal width (R66: the decoder
checks nothing else). -/
def Instr.wellFormed : Instr → Bool
  | .predictLuma d => widthLegal d.width
  | .mcV0H0W4 => true
  | .mcV0H1W4 => true
  | .mcV0H2W4 => true
  | .mcV0H3W4 => true
  | .mcV1H0W4 => true
  | .mcV1H1W4 => true
  | .mcV1H2W4 => true
  | .mcV1H3W4 => true
  | .mcV2H0W4 => true
  | .mcV2H1W4 => true
  | .mcV2H2W4 => true
  | .mcV2H3W4 => true
  | .mcV3H0W4 => true
  | .mcV3H1W4 => true
  | .mcV3H2W4 => true
  | .mcV3H3W4 => true
  | .mcV0H0W8 => true
  | .mcV0H1W8 => true
  | .mcV0H2W8 => true
  | .mcV0H3W8 => true
  | .mcV1H0W8 => true
  | .mcV1H1W8 => true
  | .mcV1H2W8 => true
  | .mcV1H3W8 => true
  | .mcV2H0W8 => true
  | .mcV2H1W8 => true
  | .mcV2H2W8 => true
  | .mcV2H3W8 => true
  | .mcV3H0W8 => true
  | .mcV3H1W8 => true
  | .mcV3H2W8 => true
  | .mcV3H3W8 => true
  | .mcV0H0W16 => true
  | .mcV0H1W16 => true
  | .mcV0H2W16 => true
  | .mcV0H3W16 => true
  | .mcV1H0W16 => true
  | .mcV1H1W16 => true
  | .mcV1H2W16 => true
  | .mcV1H3W16 => true
  | .mcV2H0W16 => true
  | .mcV2H1W16 => true
  | .mcV2H2W16 => true
  | .mcV2H3W16 => true
  | .mcV3H0W16 => true
  | .mcV3H1W16 => true
  | .mcV3H2W16 => true
  | .mcV3H3W16 => true
  | .copy _ _ => true
  | .filtH _ _ => true
  | .filtV _ _ => true
  | .filtC _ _ => true
  | .avg _ _ => true

end Sys2Proof
end

