-- ==== Sys2Proof/Decode.lean ====
section
/-! DEFINITION. The decoder, total on every coded form, rejecting by name, and the encoder (30_encoding.md R53 to R65). -/

namespace Sys2Proof

/-- Why a code is no instruction. -/
inductive DecodeError where
  /-- A descriptor that has not exactly eight words (30_encoding.md R54). The `CMD` port carries eight: unreachable. -/
  | descriptorLength
  /-- A dispatch key with `wsel = 11`, "never produced" (30_encoding.md R56). -/
  | reservedKey
  /-- A recipe word with `avg = 0` and `B` not 0000 (30_encoding.md R65; U12). -/
  | reservedRecipe
  deriving DecidableEq, Repr

/-- The unit operation of `sel` (30_encoding.md R57). -/
def decodeUnitOp (sel : BitVec 2) : UnitOp :=
  if sel = 0 then .copy else if sel = 1 then .filtH else if sel = 2 then .filtV else .filtC

/-- The code `sel` of a unit operation (30_encoding.md R57, R59). -/
def encodeUnitOp (op : UnitOp) : BitVec 2 :=
  match op with
  | .copy => 0
  | .filtH => 1
  | .filtV => 2
  | .filtC => 3

/-- Format S4 read (30_encoding.md R57): `sel` in bits 3:2, `dr` bit 1, `dc` bit 0. -/
def decodeTerm (t : BitVec 4) : Term :=
  { op := decodeUnitOp (t.extractLsb' 2 2), dr := t.getLsbD 1, dc := t.getLsbD 0 }

/-- Format S4 written (30_encoding.md R57). -/
def encodeTerm (t : Term) : BitVec 4 :=
  encodeUnitOp t.op ++ (BitVec.ofBool t.dr ++ BitVec.ofBool t.dc)

/-- Format R9 read field by field (30_encoding.md R58): `avg` bit 8, `A` bits 7:4, `B` bits 3:0. -/
def decodeRecipe (r : BitVec 9) : Recipe :=
  { avg := r.getLsbD 8, a := decodeTerm (r.extractLsb' 4 4), b := decodeTerm (r.extractLsb' 0 4) }

/-- Format R9 written (30_encoding.md R58). -/
def encodeRecipe (r : Recipe) : BitVec 9 :=
  BitVec.ofBool r.avg ++ (encodeTerm r.a ++ encodeTerm r.b)

/-- The source terms a recipe word evaluates, first term first (30_encoding.md R58). -/
def recipeTerms (r : BitVec 9) : List Term :=
  if (decodeRecipe r).avg then [(decodeRecipe r).a, (decodeRecipe r).b] else [(decodeRecipe r).a]

/-- The sixteen cases at width 4 in the order of the phase index (30_encoding.md R63). -/
def casesW4 : List Instr :=
  [.mcV0H0W4, .mcV0H1W4, .mcV0H2W4, .mcV0H3W4,
   .mcV1H0W4, .mcV1H1W4, .mcV1H2W4, .mcV1H3W4,
   .mcV2H0W4, .mcV2H1W4, .mcV2H2W4, .mcV2H3W4,
   .mcV3H0W4, .mcV3H1W4, .mcV3H2W4, .mcV3H3W4]

/-- The sixteen cases at width 8 in the order of the phase index (30_encoding.md R63). -/
def casesW8 : List Instr :=
  [.mcV0H0W8, .mcV0H1W8, .mcV0H2W8, .mcV0H3W8,
   .mcV1H0W8, .mcV1H1W8, .mcV1H2W8, .mcV1H3W8,
   .mcV2H0W8, .mcV2H1W8, .mcV2H2W8, .mcV2H3W8,
   .mcV3H0W8, .mcV3H1W8, .mcV3H2W8, .mcV3H3W8]

/-- The sixteen cases at width 16 in the order of the phase index (30_encoding.md R63). -/
def casesW16 : List Instr :=
  [.mcV0H0W16, .mcV0H1W16, .mcV0H2W16, .mcV0H3W16,
   .mcV1H0W16, .mcV1H1W16, .mcV1H2W16, .mcV1H3W16,
   .mcV2H0W16, .mcV2H1W16, .mcV2H2W16, .mcV2H3W16,
   .mcV3H0W16, .mcV3H1W16, .mcV3H2W16, .mcV3H3W16]

/-- Format K6 read (30_encoding.md R56, R63): `wsel` selects the width, the low four bits the case. -/
def decodeKey (k : BitVec 6) : Except DecodeError Instr :=
  match (casesW4 ++ casesW8 ++ casesW16)[k.toNat]? with
  | some i => .ok i
  | none => .error .reservedKey

/-- The width select of a `WIDTH` word (30_encoding.md R56); `none` for an unsupported width (R64). -/
def widthSelect (w : Word) : Option (BitVec 2) :=
  if w = 4 then some 0 else if w = 8 then some 1 else if w = 16 then some 2 else none

/-- The block width of a width select (30_encoding.md R56). -/
def selectedWidth (wsel : BitVec 2) : Nat :=
  if wsel = 0 then 4 else if wsel = 1 then 8 else 16

/-- The phase of a motion-vector component, `v & 3` (30_encoding.md R55, R61; 00_scope.md R8). -/
def mvPhase (v : Word) : BitVec 2 := v.extractLsb' 0 2

/-- Format P4, the phase index of a descriptor (30_encoding.md R55): `vphase` in the high bits. -/
def phaseIndex (d : Operands) : BitVec 4 := mvPhase d.mvY ++ mvPhase d.mvX

/-- Format K6, the dispatch key of a descriptor (30_encoding.md R53, R56); `none` for an unsupported width. -/
def dispatchKey (d : Operands) : Option (BitVec 6) :=
  match widthSelect d.width with
  | some wsel => some (wsel ++ phaseIndex d)
  | none => none

/-- Format D8 read (30_encoding.md R54): eight words in the argument order. -/
def decodeDescriptor (ws : List Word) : Except DecodeError Instr :=
  match ws with
  | [w0, w1, w2, w3, w4, w5, w6, w7] =>
    .ok (.predictLuma { srcPtr := w0, srcStride := w1, dstPtr := w2, dstStride := w3,
                        mvX := w4, mvY := w5, width := w6, height := w7 })
  | _ => .error .descriptorLength

/-- Format D8 written (30_encoding.md R54). -/
def encodeDescriptor (d : Operands) : List Word :=
  [d.srcPtr, d.srcStride, d.dstPtr, d.dstStride, d.mvX, d.mvY, d.width, d.height]

/-- A recipe word as an instruction (30_encoding.md R58, R65): `AVG` with its two terms, or the single term `A`. -/
def decodeRecipeWord (r : BitVec 9) : Except DecodeError Instr :=
  if (decodeRecipe r).wellFormed then
    .ok (if (decodeRecipe r).avg then .avg (decodeRecipe r).a (decodeRecipe r).b else (decodeRecipe r).a.instr)
  else .error .reservedRecipe

/-- The decoder, total on every coded form. -/
def decode (c : Code) : Except DecodeError Instr :=
  match c with
  | .d8 ws => decodeDescriptor ws
  | .k6 k => decodeKey k
  | .s4 t => .ok (decodeTerm t).instr
  | .r9 r => decodeRecipeWord r

/-- The encoder, each row's code written from spec/opcode_table.json and 30_encoding.md R54 to R63. -/
def encode : Instr → Code
  | .predictLuma d => .d8 (encodeDescriptor d)
  | .mcV0H0W4 => .k6 0b000000
  | .mcV0H1W4 => .k6 0b000001
  | .mcV0H2W4 => .k6 0b000010
  | .mcV0H3W4 => .k6 0b000011
  | .mcV1H0W4 => .k6 0b000100
  | .mcV1H1W4 => .k6 0b000101
  | .mcV1H2W4 => .k6 0b000110
  | .mcV1H3W4 => .k6 0b000111
  | .mcV2H0W4 => .k6 0b001000
  | .mcV2H1W4 => .k6 0b001001
  | .mcV2H2W4 => .k6 0b001010
  | .mcV2H3W4 => .k6 0b001011
  | .mcV3H0W4 => .k6 0b001100
  | .mcV3H1W4 => .k6 0b001101
  | .mcV3H2W4 => .k6 0b001110
  | .mcV3H3W4 => .k6 0b001111
  | .mcV0H0W8 => .k6 0b010000
  | .mcV0H1W8 => .k6 0b010001
  | .mcV0H2W8 => .k6 0b010010
  | .mcV0H3W8 => .k6 0b010011
  | .mcV1H0W8 => .k6 0b010100
  | .mcV1H1W8 => .k6 0b010101
  | .mcV1H2W8 => .k6 0b010110
  | .mcV1H3W8 => .k6 0b010111
  | .mcV2H0W8 => .k6 0b011000
  | .mcV2H1W8 => .k6 0b011001
  | .mcV2H2W8 => .k6 0b011010
  | .mcV2H3W8 => .k6 0b011011
  | .mcV3H0W8 => .k6 0b011100
  | .mcV3H1W8 => .k6 0b011101
  | .mcV3H2W8 => .k6 0b011110
  | .mcV3H3W8 => .k6 0b011111
  | .mcV0H0W16 => .k6 0b100000
  | .mcV0H1W16 => .k6 0b100001
  | .mcV0H2W16 => .k6 0b100010
  | .mcV0H3W16 => .k6 0b100011
  | .mcV1H0W16 => .k6 0b100100
  | .mcV1H1W16 => .k6 0b100101
  | .mcV1H2W16 => .k6 0b100110
  | .mcV1H3W16 => .k6 0b100111
  | .mcV2H0W16 => .k6 0b101000
  | .mcV2H1W16 => .k6 0b101001
  | .mcV2H2W16 => .k6 0b101010
  | .mcV2H3W16 => .k6 0b101011
  | .mcV3H0W16 => .k6 0b101100
  | .mcV3H1W16 => .k6 0b101101
  | .mcV3H2W16 => .k6 0b101110
  | .mcV3H3W16 => .k6 0b101111
  | .copy dr dc => .s4 (encodeTerm { op := .copy, dr := dr, dc := dc })
  | .filtH dr dc => .s4 (encodeTerm { op := .filtH, dr := dr, dc := dc })
  | .filtV dr dc => .s4 (encodeTerm { op := .filtV, dr := dr, dc := dc })
  | .filtC dr dc => .s4 (encodeTerm { op := .filtC, dr := dr, dc := dc })
  | .avg a b => .r9 (encodeRecipe { avg := true, a := a, b := b })

/-- The eight words of a descriptor laid out as one number. The spec gives eight separate words, word 0 first
(30_encoding.md R54, R60), and no one container for them: that word 0 stands in the low bits is the model's choice (log 11,
DESIGN CHOICE). -/
def descriptorWords (w : Nat) : List Word :=
  (List.range 8).map fun k => BitVec.ofNat 32 (w >>> (32 * k))

/-- The coded form of a table word of `nbits` bits (log 11, DESIGN CHOICE). The table's formats carry no tag, so the
width tells them apart: up to 4 bits S4, up to 8 bits K6, up to 15 bits R9, none or more than 16 bits D8. At 16 bits
the word is an R9, but for the values below 16, which as R9 words are reserved or the term COPY: they are read as S4.
Bits above the format's own width are padding and are not read. -/
def codeOfTableWord (nbits w : Nat) : Code :=
  if nbits = 0 ∨ 16 < nbits then .d8 (descriptorWords w)
  else if nbits ≤ 4 then .s4 (BitVec.ofNat 4 w)
  else if nbits ≤ 8 then .k6 (BitVec.ofNat 6 w)
  else if nbits = 16 ∧ w % 512 < 16 then .s4 (BitVec.ofNat 4 w)
  else .r9 (BitVec.ofNat 9 w)

/-- The instruction the decoder reads from a table word. -/
def decodeTableWord (nbits w : Nat) : Option Instr :=
  match decode (codeOfTableWord nbits w) with
  | .ok i => some i
  | .error _ => none

/-- A phase ROM is well formed (30_encoding.md R65; U12): none of its words is the reserved recipe encoding. -/
def romWellFormed (rom : Config.Rom) : Bool := rom.toList.all fun r => (decodeRecipe r).wellFormed

end Sys2Proof
end

