-- ==== Sys2Proof/Machine/State.lean ====
section
/-! DEFINITION. The state as plain data, the reasons a step can stop, and the state after reset (10_state.md R13 to R33;
INVENTORY.md, "State"). -/

namespace Sys2Proof.Machine

/-- The sequencer state `SEQ` (10_state.md R18). -/
inductive Seq where
  | idle
  | run
  deriving DecidableEq, Repr

/-- How far the sequencer has decoded the running command (30_encoding.md R53; log 10): the descriptor in `x[0..7]`, its
dispatch key, its recipe word, or the single source term of its recipe. -/
inductive Slot where
  | command
  | key (k : BitVec 6)
  | recipe (r : BitVec 9)
  | term (t : BitVec 4)
  deriving DecidableEq, Repr

/-- The host's transactions (10_state.md R30, R31; 46_dispatcher.md R133) and its accesses to the sample memory, which it
owns (10_state.md R13, R29). -/
inductive HostOp where
  /-- *issue* on port `CMD` -/
  | issue (d : Operands)
  /-- *status read* on port `STAT` -/
  | readStatus
  /-- *operand read* on port `OPRD` -/
  | readOperand (i : Fin 8)
  /-- *reset* on port `RST` -/
  | reset
  /-- the host writes a sample, which makes its address a valid location (log 20) -/
  | writeSample (a : Nat) (v : Byte)
  /-- the host reads a sample -/
  | readSample (a : Nat)
  deriving DecidableEq, Repr

/-- Whose turn it is (log 9): a transaction of the host, or the engine, which either decodes the running command one level
further (30_encoding.md R53) or runs it to its completion (20_memory.md R50). -/
inductive Event where
  | host (op : HostOp)
  | decode
  | run
  deriving DecidableEq, Repr

/-- What the host's reads were answered with. -/
inductive Reply where
  | status (b : Byte)
  | operand (i : Fin 8) (w : Word)
  | sample (a : Nat) (v : Byte)
  deriving DecidableEq, Repr

/-- A scratch buffer of 16 x 16 samples, row by row (10_state.md R25). -/
abbrev Tile := Vector Byte 256

/-- The buffer `MID` (10_state.md R26): 21 rows of 16 signed 16-bit values, first row -2 of the view. -/
abbrev MidBuffer := Vector (BitVec 16) 336

/-- Reasons the machine stops with a fault. A race is none of them: it runs, with free values (log 14). -/
inductive Fault where
  /-- U1 (93_implementation_defined.md; 20_memory.md R46; log 13): raised by every meaning whose read or write footprint holds
  an address that is no valid location, and by a host read of such an address. Safe: nothing is promised there. -/
  | invalidLocation
  deriving DecidableEq, Repr

/-- Reasons the machine refuses a step. -/
inductive Refusal where
  /-- No meaning for the instruction yet: raised by arms of exec only. Safe. -/
  | notModelled (mnemonic : String)
  /-- U2 (93_implementation_defined.md; log 12): raised by every meaning whose address arithmetic leaves `[0, 2^AW)`, and by a
  host write there. Safe. -/
  | addressOverflow
  /-- U3 (93_implementation_defined.md; log 12): raised by every meaning with a stride smaller than the block width. Safe. -/
  | strideOutOfContract
  /-- U4 (93_implementation_defined.md; log 12): raised by every meaning with a height the block descriptor forbids. Safe. -/
  | heightOutOfContract
  /-- U6 (93_implementation_defined.md; log 12): raised by every meaning whose read and write footprints meet. Safe. -/
  | footprintsOverlap
  /-- U12 (93_implementation_defined.md; 30_encoding.md R65; log 4): raised by `buildMachine` for a `PHASE_ROM` with a reserved
  word among its sixteen. Safe: no machine has such a ROM. -/
  | illFormedRom
  /-- The sequencer holds a code that is no instruction: a key with `wsel = 11` (R56, "never produced"), or a reserved recipe
  word (R65), which no phase ROM holds. Raised by the engine's turns only. Safe. -/
  | undecodable (e : DecodeError)
  /-- A unit row (a term or a recipe) run while `WIDTH` is not 4, 8 or 16: no such command is ever dispatched (R128). Raised by
  `COPY`, `FILT_H`, `FILT_V`, `FILT_C`, `AVG`. Safe. -/
  | widthNotDispatched
  deriving DecidableEq, Repr

/-- The phase ROM of a machine (10_state.md R21): the sixteen words of its `PHASE_ROM`, of which none is the reserved recipe
encoding (30_encoding.md R65; U12: the parameter is refused "at construction"; log 4). -/
structure PhaseRom where
  words : Config.Rom
  wellFormed : romWellFormed words = true
  deriving DecidableEq, Repr

/-- The phase ROM that holds the parameter `PHASE_ROM` (00_scope.md R7; log 4). -/
def phaseRom : PhaseRom := { words := Config.phaseRom, wellFormed := by decide }

/-- The machine: one engine, the sample memory, and the host's pending turns. -/
structure State where
  /-- the operand registers `x[0..7]` (10_state.md R15) -/
  x : Operands
  /-- `SEQ` (10_state.md R18) -/
  seq : Seq
  /-- `STATUS` (10_state.md R19) -/
  status : Byte
  /-- the phase ROM (10_state.md R21), the parameter `PHASE_ROM` (00_scope.md R7; log 4) -/
  rom : PhaseRom
  /-- `TMP_A` (10_state.md R25) -/
  tmpA : Tile
  /-- `TMP_B` (10_state.md R25) -/
  tmpB : Tile
  /-- `MID` (10_state.md R26) -/
  mid : MidBuffer
  /-- the stage-two accumulator of FILT_C (10_state.md R26, R32; 43_filter_c.md R93) -/
  acc : BitVec 20
  /-- the sample memory (20_memory.md R34): the valid locations with their samples, addresses strictly rising (log 5) -/
  mem : List Host.Cell
  /-- model's own: the sequencer's decoded form of the running command (log 10) -/
  slot : Slot
  /-- model's own: the turns to come, oldest first (log 9) -/
  agenda : List Event
  /-- model's own: the answers the host has read, oldest first (log 9) -/
  replies : List Reply
  /-- model's own: the locations in the running command's footprints that the host has written since its issue (log 14) -/
  raced : List Nat
  /-- model's own: how many free values have been drawn (log 7) -/
  draws : Nat
  deriving DecidableEq, Repr

/-- Free contents of the operand registers at draw `n` (10_state.md R32; U10; log 6). -/
def freeOperands (n : Nat) : Operands :=
  { srcPtr := Config.operandAtReset n 0, srcStride := Config.operandAtReset n 1,
    dstPtr := Config.operandAtReset n 2, dstStride := Config.operandAtReset n 3,
    mvX := Config.operandAtReset n 4, mvY := Config.operandAtReset n 5,
    width := Config.operandAtReset n 6, height := Config.operandAtReset n 7 }

/-- The machine after reset (10_state.md R32): `SEQ = IDLE`, `STATUS = 0`, the ROM holding `PHASE_ROM`; operand registers and
scratch unspecified (free values, logs 6 and 7); no location declared valid yet (log 5). -/
def State.reset : State :=
  { x := freeOperands 0
    seq := .idle
    status := 0
    rom := phaseRom
    tmpA := Config.scratchTile 0 0
    tmpB := Config.scratchTile 0 1
    mid := Config.scratchMid 0
    acc := Config.accWord 0
    mem := []
    slot := .command
    agenda := []
    replies := []
    raced := []
    draws := 1 }

end Sys2Proof.Machine
end

