-- ==== Sys2Proof/Machine/Flags.lean ====
section
/-! DEFINITION. The fields of `STATUS` (10_state.md R19) and everything that writes them (10_state.md R20; 60_exceptions.md
R141). There are no other flags. -/

namespace Sys2Proof.Machine

/-- `STATUS.BUSY`, bit 0. -/
def statusBusy (st : Byte) : Bool := st.getLsbD 0

/-- `STATUS.DONE`, bit 1. -/
def statusDone (st : Byte) : Bool := st.getLsbD 1

/-- `STATUS.ERR`, bit 2. -/
def statusErr (st : Byte) : Bool := st.getLsbD 2

/-- `STATUS.ECODE`, bits 7:4. -/
def statusEcode (st : Byte) : BitVec 4 := st.extractLsb' 4 4

/-- `STATUS` from its fields; bit 3 reads 0 (10_state.md R19). -/
def packStatus (busy done err : Bool) (ecode : BitVec 4) : Byte :=
  ecode ++ (0#1 ++ (BitVec.ofBool err ++ (BitVec.ofBool done ++ BitVec.ofBool busy)))

/-- What issuing a command writes (10_state.md R20). -/
def statusIssued : Byte := packStatus true false false 0

/-- What completing without error writes (10_state.md R20): `BUSY <- 0`, `DONE <- 1`, the error fields left. -/
def statusCompleted (st : Byte) : Byte := packStatus false true (statusErr st) (statusEcode st)

/-- What the error entry writes (60_exceptions.md R141). -/
def statusFailed : Byte := packStatus false true true Config.ecodeUnsupportedWidth

end Sys2Proof.Machine
end

