-- ==== Sys2Proof/Machine/Ops.lean ====
section
/-! DEFINITION. The named operations over memory, registers and the sequencer: outcomes in sequence, the sample memory,
views, issue, the error entry, completion, reset. -/

namespace Sys2Proof.Machine

/-- The outcome of an instruction or a step. -/
abbrev Result := Host.Outcome State Fault Refusal

/-- Run `f` on the next state; a stop stays a stop. -/
def andThen (r : Result) (f : State → Result) : Result :=
  match r with
  | .next s => f s
  | .fault e => .fault e
  | .refused e => .refused e

/-- The next state of an outcome, if it is one. -/
def nextState? (r : Result) : Option State :=
  match r with
  | .next s => some s
  | .fault _ => none
  | .refused _ => none

/-! ## The sample memory (20_memory.md R34, log 5) -/

/-- The sample at a location, `none` where the address is no valid location. -/
def memFind (m : List Host.Cell) (a : Nat) : Option Byte := (m.find? fun c => Nat.beq c.1 a).map (·.2)

/-- Write a sample; the list keeps its addresses rising. -/
def memSet (m : List Host.Cell) (a : Nat) (v : Byte) : List Host.Cell :=
  match m with
  | [] => [(a, v)]
  | (k, u) :: rest =>
    if a = k then (k, v) :: rest
    else if a < k then (a, v) :: (k, u) :: rest
    else (k, u) :: memSet rest a v

/-- The canonical form of the memory: addresses strictly rising and inside the address range. -/
abbrev memWellFormed (m : List Host.Cell) : Prop :=
  m.Pairwise (fun c d => c.1 < d.1) ∧ ∀ c ∈ m, c.1 < Config.addressEnd

/-- An integer is an address (00_scope.md R6, `AW`; U2). -/
def addressInRange (a : Int) : Bool := decide (0 ≤ a) && decide (a < Config.addressEnd)

/-- An integer is a valid location of the launch memory (20_memory.md R46). -/
def validLocation (m : List Host.Cell) (a : Int) : Bool := addressInRange a && (memFind m a.toNat).isSome

/-- `MemRead(a, 1)` (00_scope.md R11), total: no meaning reads an address that is not valid (log 13). -/
def sampleAt (m : List Host.Cell) (a : Int) : Byte :=
  (memFind m a.toNat).getD (Config.invalidSample a.toNat)

/-! ## Views (00_scope.md R11, 20_memory.md R35) -/

/-- A view over the sample memory. -/
structure View where
  base : Int
  stride : Int
  deriving DecidableEq, Repr

/-- The address of row `r`, column `c` of a view (20_memory.md R35). -/
def viewAddr (V : View) (r c : Int) : Int := V.base + r * V.stride + c

/-- The view moved down by `dr` rows and right by `dc` columns (20_memory.md R36). -/
def viewShift (V : View) (dr dc : Int) : View := { base := V.base + dr * V.stride + dc, stride := V.stride }

/-- `V[r][c]`, as a non-negative integer (00_scope.md R11, 20_memory.md R37). -/
def viewSample (m : List Host.Cell) (V : View) (r c : Int) : Int := ((sampleAt m (viewAddr V r c)).toNat : Int)

/-- The positions of a block of `h` rows and `w` columns, row by row. -/
def blockGrid (h w : Nat) : List (Nat × Nat) :=
  (List.range h).flatMap fun y => (List.range w).map fun x => (y, x)

/-- Write a block to a view: `D[y][x] <- f y x` for every position (20_memory.md R44). -/
def writeBlock (m : List Host.Cell) (D : View) (w h : Nat) (f : Nat → Nat → Byte) : List Host.Cell :=
  (blockGrid h w).foldl (fun m p => memSet m (viewAddr D p.1 p.2).toNat (f p.1 p.2)) m

/-! ## Scratch (10_state.md R25, R26) -/

/-- `T[y][x]` of a 16 x 16 buffer. -/
def tileAt (T : Tile) (y x : Nat) : Byte := T[(16 * y + x) % 256]'(Nat.mod_lt _ (by decide))

/-- Write a block of `h` rows and `w` columns into a 16 x 16 buffer; its other entries stay. (Irreducible: a proof cites
`tileAt_tileWrite`.) -/
@[irreducible] def tileWrite (T : Tile) (w h : Nat) (f : Nat → Nat → Byte) : Tile :=
  Vector.ofFn fun k => if k.val % 16 < w ∧ k.val / 16 < h then f (k.val / 16) (k.val % 16) else T[k]

/-- `MID[k - 2][x]` as a signed integer, `k` counting the rows of the buffer from 0 (43_filter_c.md R89). -/
def midAt (M : MidBuffer) (k x : Nat) : Int := (M[(16 * k + x) % 336]'(Nat.mod_lt _ (by decide))).toInt

/-- Write `n` rows and `w` columns of `MID`, in 16 bits; its other entries stay. (Irreducible: a proof cites
`midAt_midWrite`.) -/
@[irreducible] def midWrite (M : MidBuffer) (w n : Nat) (f : Nat → Nat → Int) : MidBuffer :=
  Vector.ofFn fun k => if k.val % 16 < w ∧ k.val / 16 < n then BitVec.ofInt 16 (f (k.val / 16) (k.val % 16)) else M[k]

/-! ## Operand registers and the host's reads -/

/-- `x[i]` by index (10_state.md R15). -/
def operandAt (x : Operands) (i : Fin 8) : Word :=
  match i with
  | 0 => x.srcPtr
  | 1 => x.srcStride
  | 2 => x.dstPtr
  | 3 => x.dstStride
  | 4 => x.mvX
  | 5 => x.mvY
  | 6 => x.width
  | 7 => x.height

/-- Answer the host. -/
def answer (s : State) (r : Reply) : State := { s with replies := s.replies ++ [r] }

/-! ## A command's beginning and end -/

/-- *Issue* (10_state.md R31; 46_dispatcher.md R125 step 1): the operands are loaded, `STATUS` says busy, `SEQ <- RUN`. -/
def issueCommand (d : Operands) (s : State) : State :=
  { s with x := d, status := statusIssued, seq := .run, slot := .command }

/-- Taking the one exception, `UNSUPPORTED_WIDTH` (60_exceptions.md R141): the status is written, the engine is idle (so no
race is open), and nothing else changes. The offending value stays readable in `x[WIDTH]` (R137). There is no return from it (R143). -/
def raiseUnsupportedWidth (s : State) : State :=
  { s with status := statusFailed, seq := .idle, slot := .command, raced := [] }

/-- The scratch of an ended command holds unspecified values (10_state.md R27; U9; log 7). -/
def forgetScratch (s : State) : State :=
  { s with tmpA := Config.scratchTile s.draws 0, tmpB := Config.scratchTile s.draws 1, mid := Config.scratchMid s.draws,
           acc := Config.accWord s.draws, draws := s.draws + 1 }

/-- Completion without error (46_dispatcher.md R125 step 7; 10_state.md R20). -/
def completeCommand (s : State) : State :=
  forgetScratch { s with status := statusCompleted s.status, seq := .idle, slot := .command, raced := [] }

/-- The engine after the reset transaction (70_reset_and_hazards.md R151; 10_state.md R32): idle, `STATUS = 0`, operand
registers and scratch unspecified; the ROM, which is `PHASE_ROM`, and the sample memory are as they were (R153, R154). -/
def resetEngine (s : State) : State :=
  forgetScratch { s with x := freeOperands s.draws, status := 0, seq := .idle, slot := .command, raced := [] }

/-! ## Construction -/

/-- The machine with the given `PHASE_ROM`, right after its reset (00_scope.md R7; 10_state.md R32); a ROM that is not well
formed is refused (30_encoding.md R65; U12; log 4). -/
def buildMachine (rom : Config.Rom) : Result :=
  if h : romWellFormed rom = true then .next { State.reset with rom := { words := rom, wellFormed := h } }
  else .refused .illFormedRom

end Sys2Proof.Machine
end

