-- ==== Sys2Proof/Machine/Operands.lean ====
section
/-! DEFINITION. Operand forms: the values derived from the operand registers (10_state.md R23), the read and write
footprints (20_memory.md R37, R43, R44) and the contract of a command (20_memory.md R46; 70_reset_and_hazards.md R157, R158,
R162, R165). -/

namespace Sys2Proof.Machine

/-- `a >> n`, the arithmetic right shift of an integer: the floor of `a / 2^n` (00_scope.md R8). -/
def shiftRight (a : Int) (n : Nat) : Int := a / (2 ^ n : Int)

/-- The integer part of a motion-vector component (30_encoding.md R61). -/
def mvInteger (v : Word) : Int := shiftRight v.toInt 2

/-- The source view `S` at the block origin (10_state.md R23, 20_memory.md R36, 30_encoding.md R62). -/
def sourceView (x : Operands) : View :=
  { base := x.srcPtr.toNat + mvInteger x.mvY * x.srcStride.toNat + mvInteger x.mvX, stride := x.srcStride.toNat }

/-- The destination view `D`, which the motion vector does not move (46_dispatcher.md R130). -/
def destView (x : Operands) : View := { base := x.dstPtr.toNat, stride := x.dstStride.toNat }

/-- `h` (10_state.md R23). -/
def blockHeight (x : Operands) : Nat := x.height.toNat

/-- A shift bit as a number of rows or columns (30_encoding.md R57). -/
def shiftOf (b : Bool) : Int := if b then 1 else 0

/-- The source view of a term, `S + (dr, dc)` (20_memory.md R36; 45_phase_table.md R104). -/
def termView (S : View) (t : Term) : View := viewShift S (shiftOf t.dr) (shiftOf t.dc)

/-- A unit operation reads two rows before its block and three after it (20_memory.md R37). -/
def readsRowsAround (op : UnitOp) : Bool :=
  match op with
  | .copy => false
  | .filtH => false
  | .filtV => true
  | .filtC => true

/-- A unit operation reads two columns before its block and three after it (20_memory.md R37). -/
def readsColsAround (op : UnitOp) : Bool :=
  match op with
  | .copy => false
  | .filtH => true
  | .filtV => false
  | .filtC => true

/-- The first row or column read: -2 with the padding, else 0. -/
def readStart (around : Bool) : Int := if around then -2 else 0

/-- How many rows or columns are read for a block of `n`: `n + 5` with the padding, else `n`. -/
def readCount (around : Bool) (n : Nat) : Nat := if around then n + 5 else n

/-- The addresses a term reads (20_memory.md R37, R43): the full box of its row range and its column range. -/
def termReads (S : View) (w h : Nat) (t : Term) : List Int :=
  (blockGrid (readCount (readsRowsAround t.op) h) (readCount (readsColsAround t.op) w)).map fun p =>
    viewAddr (termView S t) (readStart (readsRowsAround t.op) + p.1) (readStart (readsColsAround t.op) + p.2)

/-- The read footprint of a command with the source terms `ts` (20_memory.md R43). -/
def readFootprint (S : View) (w h : Nat) (ts : List Term) : List Int := ts.flatMap (termReads S w h)

/-- The write footprint of a command (20_memory.md R44). -/
def writeFootprint (D : View) (w h : Nat) : List Int :=
  (blockGrid h w).map fun p => viewAddr D p.1 p.2

/-- The height is one the block descriptor allows (10_state.md R17). -/
def heightLegal (w h : Nat) : Bool := decide (1 ≤ h) && decide (h ≤ Config.maxHeight) && (decide (w ≠ 4) || decide (h % 4 = 0))

/-- Both strides are at least the block width (10_state.md R17). -/
def stridesLegal (w : Nat) (x : Operands) : Bool := decide (w ≤ x.srcStride.toNat) && decide (w ≤ x.dstStride.toNat)

/-- The bases a command's address arithmetic goes through (U2): the source view's, the terms', the destination's. -/
def commandBases (x : Operands) (ts : List Term) : List Int :=
  (sourceView x).base :: (destView x).base :: ts.map fun t => (termView (sourceView x) t).base

/-- The two footprints meet (U6; 70_reset_and_hazards.md R158). -/
def footprintsMeet (reads writes : List Int) : Bool := reads.any fun a => decide (a ∈ writes)

/-- The contract of a command whose block is `w` wide and whose recipe evaluates the terms `ts`: `next` with the state
unchanged when it is kept, else the stop of the first clause broken (U4, U3, U2, U1, U6; logs 12 and 13). -/
def checkContract (w : Nat) (ts : List Term) (s : State) : Result :=
  let h := blockHeight s.x
  let reads := readFootprint (sourceView s.x) w h ts
  let writes := writeFootprint (destView s.x) w h
  if heightLegal w h = false then .refused .heightOutOfContract
  else if stridesLegal w s.x = false then .refused .strideOutOfContract
  else if (commandBases s.x ts).all addressInRange = false then .refused .addressOverflow
  else if reads.all addressInRange = false then .refused .addressOverflow
  else if writes.all addressInRange = false then .refused .addressOverflow
  else if reads.all (validLocation s.mem) = false then .fault .invalidLocation
  else if writes.all (validLocation s.mem) = false then .fault .invalidLocation
  else if footprintsMeet reads writes then .refused .footprintsOverlap
  else .next s

end Sys2Proof.Machine
end

