-- ==== Sys2Proof/Machine/Units.lean ====
section
/-! DEFINITION. The five unit operations (40_copy.md to 44_avg.md), the evaluation of a source term (45_phase_table.md R104),
the execution of a recipe (R102), and the meanings of the five unit rows. -/

namespace Sys2Proof.Machine

/-- `clip_u8` (00_scope.md R9). -/
def clipU8 (v : Int) : Byte := if v < 0 then 0 else if v > 255 then 255 else BitVec.ofInt 8 v

/-- `tap6` (00_scope.md R10). -/
def tap6 (p0 p1 p2 p3 p4 p5 : Int) : Int := p0 - 5 * p1 + 20 * p2 + 20 * p3 - 5 * p4 + p5

/-- The six-tap sum along a row, around column `c` of row `r` (41_filter_h.md R75, 43_filter_c.md R89). -/
def rowSum (m : List Host.Cell) (V : View) (r c : Int) : Int :=
  tap6 (viewSample m V r (c - 2)) (viewSample m V r (c - 1)) (viewSample m V r c)
    (viewSample m V r (c + 1)) (viewSample m V r (c + 2)) (viewSample m V r (c + 3))

/-- The six-tap sum along a column, around row `r` of column `c` (42_filter_v.md R82). -/
def colSum (m : List Host.Cell) (V : View) (r c : Int) : Int :=
  tap6 (viewSample m V (r - 2) c) (viewSample m V (r - 1) c) (viewSample m V r c)
    (viewSample m V (r + 1) c) (viewSample m V (r + 2) c) (viewSample m V (r + 3) c)

/-- Bias, shift and clip of a one-dimensional sum (41_filter_h.md R75, R77). -/
def roundOne (sum : Int) : Byte := clipU8 (shiftRight (sum + Config.bias1) Config.shift1)

/-- Bias, shift and clip of a two-dimensional sum (43_filter_c.md R90, R94). -/
def roundTwo (sum2 : Int) : Byte := clipU8 (shiftRight (sum2 + Config.bias2) Config.shift2)

/-- The stage-two accumulator, `ACC_BITS` wide, holding the sum of six stage-one values (43_filter_c.md R90, R93). -/
def stageTwoSum (M : MidBuffer) (y x : Nat) : BitVec 20 :=
  BitVec.ofInt 20 (tap6 (midAt M y x) (midAt M (y + 1) x) (midAt M (y + 2) x)
    (midAt M (y + 3) x) (midAt M (y + 4) x) (midAt M (y + 5) x))

/-- COPY: one result sample (40_copy.md R70). -/
def copySample (m : List Host.Cell) (V : View) (y x : Nat) : Byte := sampleAt m (viewAddr V y x)

/-- FILT_H: one result sample (41_filter_h.md R75). -/
def filtHSample (m : List Host.Cell) (V : View) (y x : Nat) : Byte := roundOne (rowSum m V y x)

/-- FILT_V: one result sample (42_filter_v.md R82). -/
def filtVSample (m : List Host.Cell) (V : View) (y x : Nat) : Byte := roundOne (colSum m V y x)

/-- FILT_C stage two: one result sample from `MID` (43_filter_c.md R90). -/
def filtCSample (M : MidBuffer) (y x : Nat) : Byte := roundTwo (stageTwoSum M y x).toInt

/-- AVG: one result sample (44_avg.md R97); the sum is taken over the integers, so no carry is lost (R99). -/
def avgSample (a b : Byte) : Byte := BitVec.ofInt 8 (shiftRight ((a.toNat : Int) + b.toNat + 1) 1)

/-- FILT_C stage one: `MID` filled for rows `-2 .. h + 2` (43_filter_c.md R89). What the accumulator holds afterwards
depends on the order of the outputs, which is open (20_memory.md R49): a free value (log 7). -/
def stageOne (V : View) (w h : Nat) (s : State) : State :=
  { s with mid := midWrite s.mid w (h + 5) (fun k x => rowSum s.mem V ((k : Int) - 2) x),
           acc := Config.accWord s.draws, draws := s.draws + 1 }

/-- What a unit operation does before its results can be read: FILT_C fills `MID`. -/
def prepareTerm (op : UnitOp) (V : View) (w h : Nat) (s : State) : State :=
  match op with
  | .copy => s
  | .filtH => s
  | .filtV => s
  | .filtC => stageOne V w h s

/-- One result sample of a unit operation, in a state prepared for it. -/
def unitSample (op : UnitOp) (V : View) (s : State) (y x : Nat) : Byte :=
  match op with
  | .copy => copySample s.mem V y x
  | .filtH => filtHSample s.mem V y x
  | .filtV => filtVSample s.mem V y x
  | .filtC => filtCSample s.mid y x

/-- The state prepared for the term `t` at width `w`. -/
def termState (t : Term) (w : Nat) (s : State) : State :=
  prepareTerm t.op (termView (sourceView s.x) t) w (blockHeight s.x) s

/-- The result block of the term `t` at width `w` (45_phase_table.md R104). -/
def termBlock (t : Term) (w : Nat) (s : State) (y x : Nat) : Byte :=
  unitSample t.op (termView (sourceView s.x) t) (termState t w s) y x

/-- `D <- term(t)` (45_phase_table.md R102, single term). -/
def termToDest (t : Term) (w : Nat) (s : State) : State :=
  { termState t w s with mem := writeBlock s.mem (destView s.x) w (blockHeight s.x) (termBlock t w s) }

/-- `TMP_A <- term(t)` (45_phase_table.md R102). -/
def termToA (t : Term) (w : Nat) (s : State) : State :=
  { termState t w s with tmpA := tileWrite s.tmpA w (blockHeight s.x) (termBlock t w s) }

/-- `TMP_B <- term(t)` (45_phase_table.md R102). -/
def termToB (t : Term) (w : Nat) (s : State) : State :=
  { termState t w s with tmpB := tileWrite s.tmpB w (blockHeight s.x) (termBlock t w s) }

/-- `D <- AVG(TMP_A, TMP_B)` (44_avg.md R97; 45_phase_table.md R102). -/
def averageToDest (w : Nat) (s : State) : State :=
  { s with mem := writeBlock s.mem (destView s.x) w (blockHeight s.x)
             (fun y x => avgSample (tileAt s.tmpA y x) (tileAt s.tmpB y x)) }

/-- A recipe of one term, under the contract (45_phase_table.md R102). -/
def runSingle (t : Term) (w : Nat) (s : State) : Result :=
  andThen (checkContract w [t] s) fun s => .next (termToDest t w s)

/-- A recipe of two terms and an average, under the contract (45_phase_table.md R102). The spec lets the two terms be computed
"in either order or together"; that A comes before B is the model's choice (log 21, DESIGN CHOICE). -/
def runAverage (a b : Term) (w : Nat) (s : State) : Result :=
  andThen (checkContract w [a, b] s) fun s => .next (averageToDest w (termToB b w (termToA a w s)))

/-- The execution of a recipe word (45_phase_table.md R102); the reserved encoding is refused
(30_encoding.md R65); no phase ROM holds it. -/
def runRecipe (r : BitVec 9) (w : Nat) (s : State) : Result :=
  if (decodeRecipe r).wellFormed = false then .refused (.undecodable .reservedRecipe)
  else if (decodeRecipe r).avg then runAverage (decodeRecipe r).a (decodeRecipe r).b w s
  else runSingle (decodeRecipe r).a w s

/-- A unit row takes its block width from `x[WIDTH]`, which the dispatcher has checked (46_dispatcher.md R128; log 19). -/
def withBlockWidth (s : State) (f : Nat → Result) : Result :=
  if widthLegal s.x.width then f s.x.width.toNat else .refused .widthNotDispatched

/-- `COPY` (40_copy.md R70): the single-term recipe copy, with its shifts. -/
def execCopy (dr dc : Bool) (s : State) : Result :=
  withBlockWidth s fun w => runSingle { op := .copy, dr := dr, dc := dc } w s

/-- `FILT_H` (41_filter_h.md R75): the single-term recipe H, with its shifts. -/
def execFiltH (dr dc : Bool) (s : State) : Result :=
  withBlockWidth s fun w => runSingle { op := .filtH, dr := dr, dc := dc } w s

/-- `FILT_V` (42_filter_v.md R82): the single-term recipe V, with its shifts. -/
def execFiltV (dr dc : Bool) (s : State) : Result :=
  withBlockWidth s fun w => runSingle { op := .filtV, dr := dr, dc := dc } w s

/-- `FILT_C` (43_filter_c.md R88): the single-term recipe C, with its shifts. -/
def execFiltC (dr dc : Bool) (s : State) : Result :=
  withBlockWidth s fun w => runSingle { op := .filtC, dr := dr, dc := dc } w s

/-- `AVG` (44_avg.md R97): the recipe avg(a, b) (45_phase_table.md R102). -/
def execAvg (a b : Term) (s : State) : Result :=
  withBlockWidth s fun w => runAverage a b w s

end Sys2Proof.Machine
end

