-- ==== Sys2Proof/Machine/Cases.lean ====
section
/-! DEFINITION. The sixteen fractional-position cases at the three widths (45_phase_table.md R105 to R120, R122): each is
recipe rule R102 on its word of the phase ROM. No flag is written and no error arises in a case. -/

namespace Sys2Proof.Machine

/-- `ROM[p]` (10_state.md R21). -/
def romWord (rom : Config.Rom) (p : BitVec 4) : BitVec 9 := rom[p.toNat]'p.isLt

/-- The case of phase index `p` at block width `w` (45_phase_table.md R102; 46_dispatcher.md R125 steps 5 and 6). -/
def runCase (w : Nat) (p : BitVec 4) (s : State) : Result := runRecipe (romWord s.rom.words p) w s

/-- `MC_V0H0.W4` (45_phase_table.md R105). -/
def execMcV0H0W4 (s : State) : Result := runCase 4 0b0000 s

/-- `MC_V0H1.W4` (45_phase_table.md R106). -/
def execMcV0H1W4 (s : State) : Result := runCase 4 0b0001 s

/-- `MC_V0H2.W4` (45_phase_table.md R107). -/
def execMcV0H2W4 (s : State) : Result := runCase 4 0b0010 s

/-- `MC_V0H3.W4` (45_phase_table.md R108). -/
def execMcV0H3W4 (s : State) : Result := runCase 4 0b0011 s

/-- `MC_V1H0.W4` (45_phase_table.md R109). -/
def execMcV1H0W4 (s : State) : Result := runCase 4 0b0100 s

/-- `MC_V1H1.W4` (45_phase_table.md R110). -/
def execMcV1H1W4 (s : State) : Result := runCase 4 0b0101 s

/-- `MC_V1H2.W4` (45_phase_table.md R111). -/
def execMcV1H2W4 (s : State) : Result := runCase 4 0b0110 s

/-- `MC_V1H3.W4` (45_phase_table.md R112). -/
def execMcV1H3W4 (s : State) : Result := runCase 4 0b0111 s

/-- `MC_V2H0.W4` (45_phase_table.md R113). -/
def execMcV2H0W4 (s : State) : Result := runCase 4 0b1000 s

/-- `MC_V2H1.W4` (45_phase_table.md R114). -/
def execMcV2H1W4 (s : State) : Result := runCase 4 0b1001 s

/-- `MC_V2H2.W4` (45_phase_table.md R115). -/
def execMcV2H2W4 (s : State) : Result := runCase 4 0b1010 s

/-- `MC_V2H3.W4` (45_phase_table.md R116). -/
def execMcV2H3W4 (s : State) : Result := runCase 4 0b1011 s

/-- `MC_V3H0.W4` (45_phase_table.md R117). -/
def execMcV3H0W4 (s : State) : Result := runCase 4 0b1100 s

/-- `MC_V3H1.W4` (45_phase_table.md R118). -/
def execMcV3H1W4 (s : State) : Result := runCase 4 0b1101 s

/-- `MC_V3H2.W4` (45_phase_table.md R119). -/
def execMcV3H2W4 (s : State) : Result := runCase 4 0b1110 s

/-- `MC_V3H3.W4` (45_phase_table.md R120). -/
def execMcV3H3W4 (s : State) : Result := runCase 4 0b1111 s

/-- `MC_V0H0.W8` (45_phase_table.md R105). -/
def execMcV0H0W8 (s : State) : Result := runCase 8 0b0000 s

/-- `MC_V0H1.W8` (45_phase_table.md R106). -/
def execMcV0H1W8 (s : State) : Result := runCase 8 0b0001 s

/-- `MC_V0H2.W8` (45_phase_table.md R107). -/
def execMcV0H2W8 (s : State) : Result := runCase 8 0b0010 s

/-- `MC_V0H3.W8` (45_phase_table.md R108). -/
def execMcV0H3W8 (s : State) : Result := runCase 8 0b0011 s

/-- `MC_V1H0.W8` (45_phase_table.md R109). -/
def execMcV1H0W8 (s : State) : Result := runCase 8 0b0100 s

/-- `MC_V1H1.W8` (45_phase_table.md R110). -/
def execMcV1H1W8 (s : State) : Result := runCase 8 0b0101 s

/-- `MC_V1H2.W8` (45_phase_table.md R111). -/
def execMcV1H2W8 (s : State) : Result := runCase 8 0b0110 s

/-- `MC_V1H3.W8` (45_phase_table.md R112). -/
def execMcV1H3W8 (s : State) : Result := runCase 8 0b0111 s

/-- `MC_V2H0.W8` (45_phase_table.md R113). -/
def execMcV2H0W8 (s : State) : Result := runCase 8 0b1000 s

/-- `MC_V2H1.W8` (45_phase_table.md R114). -/
def execMcV2H1W8 (s : State) : Result := runCase 8 0b1001 s

/-- `MC_V2H2.W8` (45_phase_table.md R115). -/
def execMcV2H2W8 (s : State) : Result := runCase 8 0b1010 s

/-- `MC_V2H3.W8` (45_phase_table.md R116). -/
def execMcV2H3W8 (s : State) : Result := runCase 8 0b1011 s

/-- `MC_V3H0.W8` (45_phase_table.md R117). -/
def execMcV3H0W8 (s : State) : Result := runCase 8 0b1100 s

/-- `MC_V3H1.W8` (45_phase_table.md R118). -/
def execMcV3H1W8 (s : State) : Result := runCase 8 0b1101 s

/-- `MC_V3H2.W8` (45_phase_table.md R119). -/
def execMcV3H2W8 (s : State) : Result := runCase 8 0b1110 s

/-- `MC_V3H3.W8` (45_phase_table.md R120). -/
def execMcV3H3W8 (s : State) : Result := runCase 8 0b1111 s

/-- `MC_V0H0.W16` (45_phase_table.md R105). -/
def execMcV0H0W16 (s : State) : Result := runCase 16 0b0000 s

/-- `MC_V0H1.W16` (45_phase_table.md R106). -/
def execMcV0H1W16 (s : State) : Result := runCase 16 0b0001 s

/-- `MC_V0H2.W16` (45_phase_table.md R107). -/
def execMcV0H2W16 (s : State) : Result := runCase 16 0b0010 s

/-- `MC_V0H3.W16` (45_phase_table.md R108). -/
def execMcV0H3W16 (s : State) : Result := runCase 16 0b0011 s

/-- `MC_V1H0.W16` (45_phase_table.md R109). -/
def execMcV1H0W16 (s : State) : Result := runCase 16 0b0100 s

/-- `MC_V1H1.W16` (45_phase_table.md R110). -/
def execMcV1H1W16 (s : State) : Result := runCase 16 0b0101 s

/-- `MC_V1H2.W16` (45_phase_table.md R111). -/
def execMcV1H2W16 (s : State) : Result := runCase 16 0b0110 s

/-- `MC_V1H3.W16` (45_phase_table.md R112). -/
def execMcV1H3W16 (s : State) : Result := runCase 16 0b0111 s

/-- `MC_V2H0.W16` (45_phase_table.md R113). -/
def execMcV2H0W16 (s : State) : Result := runCase 16 0b1000 s

/-- `MC_V2H1.W16` (45_phase_table.md R114). -/
def execMcV2H1W16 (s : State) : Result := runCase 16 0b1001 s

/-- `MC_V2H2.W16` (45_phase_table.md R115). -/
def execMcV2H2W16 (s : State) : Result := runCase 16 0b1010 s

/-- `MC_V2H3.W16` (45_phase_table.md R116). -/
def execMcV2H3W16 (s : State) : Result := runCase 16 0b1011 s

/-- `MC_V3H0.W16` (45_phase_table.md R117). -/
def execMcV3H0W16 (s : State) : Result := runCase 16 0b1100 s

/-- `MC_V3H1.W16` (45_phase_table.md R118). -/
def execMcV3H1W16 (s : State) : Result := runCase 16 0b1101 s

/-- `MC_V3H2.W16` (45_phase_table.md R119). -/
def execMcV3H2W16 (s : State) : Result := runCase 16 0b1110 s

/-- `MC_V3H3.W16` (45_phase_table.md R120). -/
def execMcV3H3W16 (s : State) : Result := runCase 16 0b1111 s

end Sys2Proof.Machine
end

