-- ==== Sys2Proof/Machine/Command.lean ====
section
/-! DEFINITION. The top-level dispatcher and the one host command (46_dispatcher.md R125 to R134). -/

namespace Sys2Proof.Machine

/-- `PREDICT_LUMA` (46_dispatcher.md R125) as one atomic step (20_memory.md R50): issue; the width check, before anything
else (R128), with the error `UNSUPPORTED_WIDTH` (60_exceptions.md R141); the recipe of `ROM[{vphase, hphase}]` at the width
selected; completion. -/
def execPredictLuma (d : Operands) (s : State) : Result :=
  match widthSelect d.width with
  | none => .next (raiseUnsupportedWidth (issueCommand d s))
  | some wsel =>
    andThen (runCase (selectedWidth wsel) (phaseIndex d) (issueCommand d s)) fun t => .next (completeCommand t)

end Sys2Proof.Machine
end

