-- ==== Sys2Proof/Machine/Dispatch.lean ====
section
/-! DEFINITION. Dispatch: one arm per constructor of Instr. -/

namespace Sys2Proof.Machine

def exec (i : Instr) (s : State) : Host.Outcome State Fault Refusal :=
  match i with
  | .predictLuma d => Sys2Proof.Machine.execPredictLuma d s
  | .mcV0H0W4 => Sys2Proof.Machine.execMcV0H0W4 s
  | .mcV0H1W4 => Sys2Proof.Machine.execMcV0H1W4 s
  | .mcV0H2W4 => Sys2Proof.Machine.execMcV0H2W4 s
  | .mcV0H3W4 => Sys2Proof.Machine.execMcV0H3W4 s
  | .mcV1H0W4 => Sys2Proof.Machine.execMcV1H0W4 s
  | .mcV1H1W4 => Sys2Proof.Machine.execMcV1H1W4 s
  | .mcV1H2W4 => Sys2Proof.Machine.execMcV1H2W4 s
  | .mcV1H3W4 => Sys2Proof.Machine.execMcV1H3W4 s
  | .mcV2H0W4 => Sys2Proof.Machine.execMcV2H0W4 s
  | .mcV2H1W4 => Sys2Proof.Machine.execMcV2H1W4 s
  | .mcV2H2W4 => Sys2Proof.Machine.execMcV2H2W4 s
  | .mcV2H3W4 => Sys2Proof.Machine.execMcV2H3W4 s
  | .mcV3H0W4 => Sys2Proof.Machine.execMcV3H0W4 s
  | .mcV3H1W4 => Sys2Proof.Machine.execMcV3H1W4 s
  | .mcV3H2W4 => Sys2Proof.Machine.execMcV3H2W4 s
  | .mcV3H3W4 => Sys2Proof.Machine.execMcV3H3W4 s
  | .mcV0H0W8 => Sys2Proof.Machine.execMcV0H0W8 s
  | .mcV0H1W8 => Sys2Proof.Machine.execMcV0H1W8 s
  | .mcV0H2W8 => Sys2Proof.Machine.execMcV0H2W8 s
  | .mcV0H3W8 => Sys2Proof.Machine.execMcV0H3W8 s
  | .mcV1H0W8 => Sys2Proof.Machine.execMcV1H0W8 s
  | .mcV1H1W8 => Sys2Proof.Machine.execMcV1H1W8 s
  | .mcV1H2W8 => Sys2Proof.Machine.execMcV1H2W8 s
  | .mcV1H3W8 => Sys2Proof.Machine.execMcV1H3W8 s
  | .mcV2H0W8 => Sys2Proof.Machine.execMcV2H0W8 s
  | .mcV2H1W8 => Sys2Proof.Machine.execMcV2H1W8 s
  | .mcV2H2W8 => Sys2Proof.Machine.execMcV2H2W8 s
  | .mcV2H3W8 => Sys2Proof.Machine.execMcV2H3W8 s
  | .mcV3H0W8 => Sys2Proof.Machine.execMcV3H0W8 s
  | .mcV3H1W8 => Sys2Proof.Machine.execMcV3H1W8 s
  | .mcV3H2W8 => Sys2Proof.Machine.execMcV3H2W8 s
  | .mcV3H3W8 => Sys2Proof.Machine.execMcV3H3W8 s
  | .mcV0H0W16 => Sys2Proof.Machine.execMcV0H0W16 s
  | .mcV0H1W16 => Sys2Proof.Machine.execMcV0H1W16 s
  | .mcV0H2W16 => Sys2Proof.Machine.execMcV0H2W16 s
  | .mcV0H3W16 => Sys2Proof.Machine.execMcV0H3W16 s
  | .mcV1H0W16 => Sys2Proof.Machine.execMcV1H0W16 s
  | .mcV1H1W16 => Sys2Proof.Machine.execMcV1H1W16 s
  | .mcV1H2W16 => Sys2Proof.Machine.execMcV1H2W16 s
  | .mcV1H3W16 => Sys2Proof.Machine.execMcV1H3W16 s
  | .mcV2H0W16 => Sys2Proof.Machine.execMcV2H0W16 s
  | .mcV2H1W16 => Sys2Proof.Machine.execMcV2H1W16 s
  | .mcV2H2W16 => Sys2Proof.Machine.execMcV2H2W16 s
  | .mcV2H3W16 => Sys2Proof.Machine.execMcV2H3W16 s
  | .mcV3H0W16 => Sys2Proof.Machine.execMcV3H0W16 s
  | .mcV3H1W16 => Sys2Proof.Machine.execMcV3H1W16 s
  | .mcV3H2W16 => Sys2Proof.Machine.execMcV3H2W16 s
  | .mcV3H3W16 => Sys2Proof.Machine.execMcV3H3W16 s
  | .copy dr dc => Sys2Proof.Machine.execCopy dr dc s
  | .filtH dr dc => Sys2Proof.Machine.execFiltH dr dc s
  | .filtV dr dc => Sys2Proof.Machine.execFiltV dr dc s
  | .filtC dr dc => Sys2Proof.Machine.execFiltC dr dc s
  | .avg a b => Sys2Proof.Machine.execAvg a b s

end Sys2Proof.Machine
end

