-- ==== Sys2Proof/Machine/Sequencer.lean ====
section
/-! DEFINITION. The sequencer: what the engine fetches while `SEQ = RUN`, how it decodes a command level by level
(30_encoding.md R53; log 10), and which command it is running. -/

namespace Sys2Proof.Machine

/-- The code the sequencer holds (30_encoding.md R53 to R58): the descriptor in the operand registers, or what it has been
decoded to so far. -/
def fetchCode (s : State) : Code :=
  match s.slot with
  | .command => .d8 (encodeDescriptor s.x)
  | .key k => .k6 k
  | .recipe r => .r9 r
  | .term t => .s4 t

/-- Run the fetched instruction to the command's completion. `PREDICT_LUMA` completes by itself (46_dispatcher.md R125
step 7); a key, a recipe or a term is the rest of a command, so completion follows it. -/
def runTurn (s : State) : Result :=
  match decode (fetchCode s) with
  | .error e => .refused (.undecodable e)
  | .ok i => if s.slot = .command then exec i s else andThen (exec i s) fun t => .next (completeCommand t)

/-- Decode the running command one level further (30_encoding.md R53): the width check and the dispatch key; the recipe
word of the key; the single term of a recipe without average. -/
def decodeTurn (s : State) : Result :=
  match s.slot with
  | .command =>
    match dispatchKey s.x with
    | none => .next (raiseUnsupportedWidth s)
    | some k => .next { s with slot := .key k }
  | .key k =>
    match decodeKey k with
    | .ok _ => .next { s with slot := .recipe (romWord s.rom.words (k.extractLsb' 0 4)) }
    | .error e => .refused (.undecodable e)
  | .recipe r =>
    match decodeRecipeWord r with
    | .ok _ => if (decodeRecipe r).avg then .next s else .next { s with slot := .term (r.extractLsb' 4 4) }
    | .error e => .refused (.undecodable e)
  | .term _ => .next s

/-- The block width and the source terms of the command the engine is running, `none` where its width is unsupported or
its key reserved (it then touches no memory). -/
def runningCommand (s : State) : Option (Nat × List Term) :=
  match s.slot with
  | .command =>
    if widthLegal s.x.width then some (s.x.width.toNat, recipeTerms (romWord s.rom.words (phaseIndex s.x))) else none
  | .key k =>
    match decodeKey k with
    | .ok _ => some (selectedWidth (k.extractLsb' 4 2), recipeTerms (romWord s.rom.words (k.extractLsb' 0 4)))
    | .error _ => none
  | .recipe r => if widthLegal s.x.width then some (s.x.width.toNat, recipeTerms r) else none
  | .term t => if widthLegal s.x.width then some (s.x.width.toNat, [decodeTerm t]) else none

/-- The read footprint of the command in progress (20_memory.md R43), empty while the engine is idle. -/
def runningReads (s : State) : List Int :=
  match s.seq, runningCommand s with
  | .run, some (w, ts) => readFootprint (sourceView s.x) w (blockHeight s.x) ts
  | _, _ => []

/-- The write footprint of the command in progress (20_memory.md R44), empty while the engine is idle. -/
def runningWrites (s : State) : List Int :=
  match s.seq, runningCommand s with
  | .run, some (w, _) => writeFootprint (destView s.x) w (blockHeight s.x)
  | _, _ => []

end Sys2Proof.Machine
end

