-- ==== Sys2Proof/Machine/Races.lean ====
section
/-! DEFINITION. What the engine's turn leaves where the host wrote a footprint of the running command (hazards H3 and H4,
70_reset_and_hazards.md R159, R160; 93_implementation_defined.md U7, U8; log 14). The host's write stands in memory at
once and its address in `raced`; the free choices are made when the command completes. -/

namespace Sys2Proof.Machine

/-- The result at row `y`, column `x` of the running command reads a location the host has written meanwhile. The addresses
it reads are the footprint of a block of one sample there (20_memory.md R37, R43). -/
def sourceRaced (s : State) (ts : List Term) (y x : Nat) : Bool :=
  (readFootprint (viewShift (sourceView s.x) y x) 1 1 ts).any fun a => decide (a.toNat ∈ s.raced)

/-- What the running command's write of row `y`, column `x` carries, where its run in state `s` would leave the memory `m`: a
free value if a source sample was raced (U7, "`any value`"). The value belongs to the count of draws at which it is asked
for, so a read of it and the completion may differ (log 14, DESIGN CHOICE). -/
def finalSample (s : State) (ts : List Term) (m : List Host.Cell) (y x : Nat) : Byte :=
  if sourceRaced s ts y x then Config.racedSample s.draws (16 * y + x) else sampleAt m (viewAddr (destView s.x) y x)

/-- The destination sample at row `y`, column `x` once the command has completed: where the host wrote the same location, the
host's sample or the command's, free (U8, "Two writers to one address"). -/
def settledSample (s : State) (ts : List Term) (m : List Host.Cell) (y x : Nat) : Byte :=
  if (viewAddr (destView s.x) y x).toNat ∈ s.raced ∧ Config.landed s.draws (16 * y + x) = false then
    sampleAt s.mem (viewAddr (destView s.x) y x)
  else finalSample s ts m y x

/-- The state `t` that the command running in `s` completes in, with the races of `s` decided. -/
def settleRaces (s t : State) : State :=
  match s.raced, runningCommand s with
  | [], _ => t
  | _ :: _, none => t
  | _ :: _, some (w, ts) =>
    { t with mem := writeBlock t.mem (destView s.x) w (blockHeight s.x) (settledSample s ts t.mem) }

/-- The engine's own turn: it runs its command to completion, or has nothing to do. -/
def engineTurn (s : State) : Result :=
  match s.seq with
  | .idle => .next s
  | .run => andThen (runTurn s) fun t => .next (settleRaces s t)

end Sys2Proof.Machine
end

