-- ==== Sys2Proof/Machine/HostPort.lean ====
section
/-! DEFINITION. The host's transactions (10_state.md R30, R31; 70_reset_and_hazards.md R151 to R154), its accesses to the
sample memory with the hazards H3 and H4 (R159, R160), and the turn order (log 9). -/

namespace Sys2Proof.Machine

/-- A transaction that is accepted only while `SEQ = IDLE` (10_state.md R30): issue and operand read. -/
def needsIdle (op : HostOp) : Bool :=
  match op with
  | .issue _ => true
  | .readOperand _ => true
  | .readStatus => false
  | .reset => false
  | .writeSample _ _ => false
  | .readSample _ => false

/-- The destination after a reset has abandoned a command (70_reset_and_hazards.md R152; U11; log 15): every address of the
write footprint holds its old value or its final one, which of the two is free. -/
def abandonedMem (n : Nat) (old final : List Host.Cell) (D : View) (w h : Nat) : List Host.Cell :=
  (blockGrid h w).foldl
    (fun m p => if Config.landed n (16 * p.1 + p.2) then
        memSet m (viewAddr D p.1 p.2).toNat (sampleAt final (viewAddr D p.1 p.2))
      else m) old

/-- Reset while a command runs (70_reset_and_hazards.md R152): the engine is idle, no status is reported, the destination is
old or final address by address. A command whose outcome is not defined stops as its run would (log 15). -/
def abandonCommand (s : State) : Result :=
  andThen (engineTurn s) fun t =>
    match runningCommand s with
    | none => .next (resetEngine s)
    | some (w, _) =>
      .next (resetEngine { s with mem := abandonedMem s.draws s.mem t.mem (destView s.x) w (blockHeight s.x) })

/-- The host writes a valid address (10_state.md R29). Inside a footprint of the running command the write is a race
(70_reset_and_hazards.md R159, R160; log 14): it is noted, and a command whose outcome is not defined stops as its run
would. -/
def hostWrite (a : Nat) (v : Byte) (s : State) : Result :=
  if (a : Int) ∈ runningReads s ∨ (a : Int) ∈ runningWrites s then
    andThen (engineTurn s) fun _ => .next { s with mem := memSet s.mem a v, raced := s.raced.insert a }
  else .next { s with mem := memSet s.mem a v }

/-- The host reads a location that holds `v`. Inside the write footprint of the running command it sees that sample or the
one the engine's turn would leave if it came at once, free (70_reset_and_hazards.md R160; U8; log 14). The read draws, so a
result whose source was raced is drawn anew at the completion: there the reader may have seen neither the old sample nor the
one the completion leaves (log 14, DESIGN CHOICE; wider than 20_memory.md R41). -/
def hostRead (a : Nat) (v : Byte) (s : State) : Result :=
  if (a : Int) ∈ runningWrites s then
    andThen (engineTurn s) fun t =>
      .next (answer { s with draws := s.draws + 1 }
        (.sample a (if Config.seesFinal s.draws then sampleAt t.mem a else v)))
  else .next (answer s (.sample a v))

/-- One transaction of the host. -/
def hostTurn (op : HostOp) (s : State) : Result :=
  match op with
  | .issue d => .next (issueCommand d s)
  | .readStatus => .next (answer s (.status s.status))
  | .readOperand i => .next (answer s (.operand i (operandAt s.x i)))
  | .reset =>
    match s.seq with
    | .idle => .next (resetEngine s)
    | .run => abandonCommand s
  | .writeSample a v => if addressInRange a then hostWrite a v s else .refused .addressOverflow
  | .readSample a =>
    match memFind s.mem a with
    | some v => hostRead a v s
    | none => .fault .invalidLocation

/-- The turn at the head of the agenda waits (10_state.md R31): its transaction needs an idle engine and a command runs. -/
def mustWait (e : Event) (q : Seq) : Bool :=
  match e, q with
  | .host op, .run => needsIdle op
  | _, _ => false

/-- The turn `e`, already taken off the agenda. -/
def takeEvent (e : Event) (s : State) : Result :=
  match e with
  | .host op => hostTurn op s
  | .run => engineTurn s
  | .decode =>
    match s.seq with
    | .idle => .next s
    | .run => decodeTurn s

/-- One step of the machine: the next turn of the agenda. An empty agenda, or a transaction that must wait, gives the turn
to the engine, and the transaction stays (log 9). -/
def takeTurn (s : State) : Result :=
  match s.agenda with
  | [] => engineTurn s
  | e :: rest => if mustWait e s.seq then engineTurn s else takeEvent e { s with agenda := rest }

end Sys2Proof.Machine
end

