-- ==== Sys2Proof/Machine/Launch.lean ====
section
/-! DEFINITION. How a table word is placed so that the next step runs it (log 10): the host's set-up for a command
(70_reset_and_hazards.md R156), the code in the sequencer, and the engine's turn. -/

namespace Sys2Proof.Machine

/-- The height of the set-up's block: the least legal one (10_state.md R17). -/
def launchHeight (w : Nat) : Nat := if w = 4 then 4 else 1

/-- The row stride of the set-up's source plane: room for two columns before a block of 16 and four after it. -/
def launchStride : Nat := 24

/-- How many locations the set-up's source plane has: two rows before the block and four after it. -/
def launchPlane (w : Nat) : Nat := launchStride * (launchHeight w + 6)

/-- The operands of the set-up: block width `w`, the phases of `p`, the block at row 2, column 2 of a plane at address 0,
the destination right behind the plane. -/
def launchOperands (w : Nat) (p : BitVec 4) : Operands :=
  { srcPtr := BitVec.ofNat 32 (2 * launchStride + 2)
    srcStride := BitVec.ofNat 32 launchStride
    dstPtr := BitVec.ofNat 32 (launchPlane w)
    dstStride := 16
    mvX := (p.extractLsb' 0 2).setWidth 32
    mvY := (p.extractLsb' 2 2).setWidth 32
    width := BitVec.ofNat 32 w
    height := BitVec.ofNat 32 (launchHeight w) }

/-- Make one location valid: it holds 0 if it was not valid before. -/
def memEnsure (m : List Host.Cell) (a : Nat) : List Host.Cell :=
  match m with
  | [] => [(a, 0)]
  | (k, u) :: rest =>
    if a = k then (k, u) :: rest
    else if a < k then (a, 0) :: (k, u) :: rest
    else (k, u) :: memEnsure rest a

/-- Make the locations `0 .. n - 1` valid. -/
def ensureValid (m : List Host.Cell) (n : Nat) : List Host.Cell :=
  (List.range n).foldr (fun a m => memEnsure m a) m

/-- The set-up of R156 for a row other than `PREDICT_LUMA`: planes, operands, and the code in the sequencer. -/
def launchRow (w : Nat) (p : BitVec 4) (slot : Slot) (s : State) : State :=
  { s with x := launchOperands w p, slot := slot,
           mem := ensureValid s.mem (launchPlane w + 16 * launchHeight w) }

/-- The code placed in the sequencer. A descriptor is its own operands; a code without eight words leaves them. -/
def placeCode (c : Code) (s : State) : State :=
  match c with
  | .d8 ws =>
    match decodeDescriptor ws with
    | .ok (.predictLuma d) => { s with x := d, slot := .command }
    | _ => { s with slot := .command }
  | .k6 k => launchRow (selectedWidth (k.extractLsb' 4 2)) (k.extractLsb' 0 4) (.key k) s
  | .s4 t => launchRow 4 0 (.term t) s
  | .r9 r => launchRow 4 0 (.recipe r) s

/-- The engine is running, no location is raced, and the next turn is the engine's own. -/
def startEngine (s : State) : State :=
  { s with seq := .run, status := statusIssued, raced := [], agenda := .run :: s.agenda }

end Sys2Proof.Machine
end

