-- ==== Sys2Proof/Machine/Step.lean ====
section
/-! DEFINITION. One step of the machine, and the placing of a table word. -/

namespace Sys2Proof.Machine

/-- One step: the next turn of the agenda (log 9). -/
def step (s : State) : Host.Outcome State Fault Refusal := takeTurn s

/-- `s` with the table word placed so that the next step runs it (log 10). -/
def State.withFetchWord (s : State) (nbits w : Nat) : State := startEngine (placeCode (codeOfTableWord nbits w) s)

end Sys2Proof.Machine
end

