-- ==== Sys2Proof/Safety.lean ====
section
/-! DEFINITION. What counts as a safe run, in the terms the claims use: the contract of a command (10_state.md R17;
20_memory.md R43 to R46; 70_reset_and_hazards.md R157, R158, R162), the results the spec gives, and the invariant. -/

namespace Sys2Proof.Safety

open Sys2Proof.Machine

/-! ## The contract -/

/-- The rows and columns a unit operation reads, relative to its view (20_memory.md R37). -/
def InReadRange (op : UnitOp) (w h : Nat) (r c : Int) : Prop :=
  match op with
  | .copy => (0 ≤ r ∧ r < h) ∧ (0 ≤ c ∧ c < w)
  | .filtH => (0 ≤ r ∧ r < h) ∧ (-2 ≤ c ∧ c ≤ w + 2)
  | .filtV => (-2 ≤ r ∧ r ≤ h + 2) ∧ (0 ≤ c ∧ c < w)
  | .filtC => (-2 ≤ r ∧ r ≤ h + 2) ∧ (-2 ≤ c ∧ c ≤ w + 2)

/-- The read footprint of a command (20_memory.md R43). -/
def Reads (x : Operands) (w : Nat) (ts : List Term) (a : Int) : Prop :=
  ∃ t ∈ ts, ∃ r c : Int, InReadRange t.op w (blockHeight x) r c ∧ a = viewAddr (termView (sourceView x) t) r c

/-- What the result at row `y`, column `x` alone reads (40_copy.md R70, 41_filter_h.md R76, 42_filter_v.md R84, 43_filter_c.md
R88): the read range of a block of one sample, there. -/
def ReadsFor (x : Operands) (ts : List Term) (row col : Nat) (a : Int) : Prop :=
  ∃ t ∈ ts, ∃ r c : Int, InReadRange t.op 1 1 r c ∧ a = viewAddr (termView (sourceView x) t) (row + r) (col + c)

/-- The write footprint of a command (20_memory.md R44). -/
def Writes (x : Operands) (w : Nat) (a : Int) : Prop :=
  ∃ r c : Nat, (r < blockHeight x ∧ c < w) ∧ a = viewAddr (destView x) r c

/-- A valid location of the launch memory (20_memory.md R46). -/
def Valid (m : List Host.Cell) (a : Int) : Prop :=
  (0 ≤ a ∧ a < Config.addressEnd) ∧ (memFind m a.toNat).isSome = true

/-- The height and the strides are legal for the block width `w` (10_state.md R17). -/
structure OperandsLegal (w : Nat) (x : Operands) : Prop where
  height_pos : 1 ≤ blockHeight x
  height_max : blockHeight x ≤ 16
  height_four : w = 4 → blockHeight x % 4 = 0
  source_stride : w ≤ x.srcStride.toNat
  dest_stride : w ≤ x.dstStride.toNat

/-- A command of block width `w` whose recipe evaluates the terms `ts` is within contract (20_memory.md R46;
70_reset_and_hazards.md R157, R158, R162). -/
structure InContract (w : Nat) (ts : List Term) (s : State) : Prop where
  operands : OperandsLegal w s.x
  bases : ∀ a ∈ commandBases s.x ts, 0 ≤ a ∧ a < Config.addressEnd
  reads : ∀ a, Reads s.x w ts a → Valid s.mem a
  writes : ∀ a, Writes s.x w a → Valid s.mem a
  disjoint : ∀ a, Reads s.x w ts a → ¬ Writes s.x w a

/-! ## The terms of the printed table (45_phase_table.md R101) -/

/-- A term without a shift. -/
abbrev plain (op : UnitOp) : Term := { op := op, dr := false, dc := false }

/-- `+1col`: the source shifted one column right. -/
abbrev nextCol (op : UnitOp) : Term := { op := op, dr := false, dc := true }

/-- `+1row`: the source shifted one row down. -/
abbrev nextRow (op : UnitOp) : Term := { op := op, dr := true, dc := false }

/-- `+1row+1col`. -/
abbrev nextRowCol (op : UnitOp) : Term := { op := op, dr := true, dc := true }

/-! ## Results, as the unit rules give them, over exact integers -/

/-- `sum2` of FILT_C as an exact integer (43_filter_c.md R88). -/
def doubleSum (m : List Host.Cell) (V : View) (y x : Int) : Int :=
  tap6 (rowSum m V (y - 2) x) (rowSum m V (y - 1) x) (rowSum m V y x)
    (rowSum m V (y + 1) x) (rowSum m V (y + 2) x) (rowSum m V (y + 3) x)

/-- One result sample of FILT_C (43_filter_c.md R88). -/
def centreSample (m : List Host.Cell) (V : View) (y x : Nat) : Byte := roundTwo (doubleSum m V y x)

/-- `(a + b + 1) >> 1` (44_avg.md R97). -/
def averageOf (a b : Byte) : Byte := BitVec.ofNat 8 ((a.toNat + b.toNat + 1) / 2)

/-- One result sample of a source term on the source view `S` (45_phase_table.md R104). -/
def termResult (t : Term) (m : List Host.Cell) (S : View) (y x : Nat) : Byte :=
  match t.op with
  | .copy => copySample m (termView S t) y x
  | .filtH => filtHSample m (termView S t) y x
  | .filtV => filtVSample m (termView S t) y x
  | .filtC => centreSample m (termView S t) y x

/-- One result sample of a recipe word on the source view `S` (45_phase_table.md R102). -/
def recipeResult (r : BitVec 9) (m : List Host.Cell) (S : View) (y x : Nat) : Byte :=
  if (decodeRecipe r).avg then
    averageOf (termResult (decodeRecipe r).a m S y x) (termResult (decodeRecipe r).b m S y x)
  else termResult (decodeRecipe r).a m S y x

/-- The destination block of the operands `x` holds `f y x` at row `y`, column `x`. -/
def DestHolds (m : List Host.Cell) (x : Operands) (w : Nat) (f : Nat → Nat → Byte) : Prop :=
  ∀ r c : Nat, r < blockHeight x → c < w → memFind m (viewAddr (destView x) r c).toNat = some (f r c)

/-- Every location outside the destination block of the operands `x` reads as before. -/
def KeptOutside (m m' : List Host.Cell) (x : Operands) (w : Nat) : Prop :=
  ∀ a : Nat, ¬ Writes x w a → memFind m' a = memFind m a

/-- A recipe's scratch: the byte buffers are written by averages only, `MID` and the accumulator (and with them the count
of free values) by FILT_C only (45_phase_table.md R102; 10_state.md R25, R26). -/
structure ScratchFrame (ts : List Term) (s t : State) : Prop where
  tiles : ts.length < 2 → t.tmpA = s.tmpA ∧ t.tmpB = s.tmpB
  middle : (∀ u ∈ ts, u.op ≠ .filtC) → t.mid = s.mid ∧ t.acc = s.acc ∧ t.draws = s.draws

/-- What no unit operation and no case writes: the operand registers (10_state.md R16), `STATUS` and `SEQ` (R20), the phase
ROM (R21), and the model's own bookkeeping. -/
structure EngineFrame (s t : State) : Prop where
  operands : t.x = s.x
  seq : t.seq = s.seq
  status : t.status = s.status
  rom : t.rom = s.rom
  slot : t.slot = s.slot
  agenda : t.agenda = s.agenda
  replies : t.replies = s.replies
  raced : t.raced = s.raced

/-- The outcome `r` of a recipe with the terms `ts` at width `w` in state `s`: a next state whose destination block holds
`f`, and nothing else changed but the recipe's scratch. -/
def Produces (r : Result) (s : State) (w : Nat) (ts : List Term) (f : Nat → Nat → Byte) : Prop :=
  ∃ t, r = .next t ∧ DestHolds t.mem s.x w f ∧ KeptOutside s.mem t.mem s.x w ∧ EngineFrame s t ∧ ScratchFrame ts s t

/-! ## The invariant -/

/-- The sequencer's decoded form is that of the command in the operand registers (30_encoding.md R53). -/
def SlotFits (s : State) : Prop :=
  match s.slot with
  | .command => True
  | .key k => dispatchKey s.x = some k
  | .recipe r => (dispatchKey s.x).isSome = true ∧ r = romWord s.rom.words (phaseIndex s.x)
  | .term t =>
    (dispatchKey s.x).isSome = true ∧ (decodeRecipe (romWord s.rom.words (phaseIndex s.x))).avg = false ∧
      t = (romWord s.rom.words (phaseIndex s.x)).extractLsb' 4 4

/-- What holds at reset and after every step: `STATUS` is 0x01 exactly while a command runs and 0x00, 0x02 or 0x16 else
(10_state.md R19, R20), an idle engine has nothing decoded, the decoded form fits the operands, a raced location lies in a
footprint of the running command (so an idle engine has none; log 14), the phase ROM is well formed (30_encoding.md R65, by
its type) and the memory is in canonical form. -/
structure EngineInv (s : State) : Prop where
  running : s.seq = .run → s.status = 0x01
  resting : s.seq = .idle → (s.status = 0x00 ∨ s.status = 0x02 ∨ s.status = 0x16) ∧ s.slot = .command
  fits : SlotFits s
  races : ∀ a ∈ s.raced, (a : Int) ∈ runningReads s ∨ (a : Int) ∈ runningWrites s
  rom : romWellFormed s.rom.words = true
  mem : memWellFormed s.mem

end Sys2Proof.Safety
end

