-- ==== Sys2Proof/Certificates/Slice0/Obligations.lean ====
section
/-! DEFINITION. The statements for the provers, from the numbered rules of spec/. Every definition says its statement in
the words of OBLIGATIONS.json. -/

open Sys2Proof Sys2Proof.Machine Sys2Proof.Safety

/-- For every instruction, with every operand at every value, decode (encode i) is i. (30_encoding.md section 2 (formats
D8, K6, S4, R9); 30_encoding.md section 4 (the opcode map)) -/
def Obligations.DecodeInvertsEncode : Prop :=
  ∀ i : Instr, decode (encode i) = .ok i

/-- A code that decodes to an instruction is the code of that instruction; a recipe word is meant only with its avg bit
set, since a word with avg = 0 decodes to its single term, whose own code is an S4 term. (30_encoding.md section 2
(formats D8, K6, S4, R9); 30_encoding.md section 5 (R65)) -/
def Obligations.EncodeInvertsDecode : Prop :=
  ∀ (c : Code) (i : Instr), decode c = .ok i → (∀ r, c = .r9 r → (decodeRecipe r).avg = true) → encode i = c

/-- The dispatch keys 001010, 010001, 101111 and 010111, the S4 terms 0001 and 1110, the recipe words 0x185, 0x1A7 and
0x0C0 and the V7 descriptor decode to the instructions the spec names for them. (30_encoding.md section 4 (R63);
95_test_vectors.md V7) -/
def Obligations.TableWordsDecode : Prop :=
  decode (.k6 0b001010) = .ok .mcV2H2W4 ∧ decode (.k6 0b010001) = .ok .mcV0H1W8 ∧
  decode (.k6 0b101111) = .ok .mcV3H3W16 ∧ decode (.k6 0b010111) = .ok .mcV1H3W8 ∧
  decode (.s4 0b0001) = .ok (.copy false true) ∧ decode (.s4 0b1110) = .ok (.filtC true false) ∧
  decode (.r9 0x185) = .ok (.avg (plain .filtV) (nextCol .filtH)) ∧
  decode (.r9 0x1A7) = .ok (.avg (nextRow .filtV) (nextRowCol .filtH)) ∧
  decode (.r9 0x0C0) = .ok (.filtC false false) ∧
  decode (.d8 [0x00001063, 0x00000018, 0x00002000, 0x00000004, 0xFFFFFFFC, 0xFFFFFFF8, 0x00000004, 0x00000004]) =
    .ok (.predictLuma { srcPtr := 4195, srcStride := 24, dstPtr := 8192, dstStride := 4,
                        mvX := BitVec.ofInt 32 (-4), mvY := BitVec.ofInt 32 (-8), width := 4, height := 4 })

/-- A dispatch key from 48 up (wsel = 11) is rejected as a reserved key, and a recipe word with avg = 0 and B not 0000
as a reserved recipe. A machine with a phase ROM of which any of the sixteen words is such a word is refused at
construction as illFormedRom; with any other ROM it is built, in the state after reset but for its ROM. That the refusal
stands at construction is log 4. (30_encoding.md section 2 (R56); 30_encoding.md section 5 (R65);
93_implementation_defined.md U12; notes/assumptions/4.md) -/
def Obligations.ReservedCodesRejected : Prop :=
  (∀ k : BitVec 6, 48 ≤ k.toNat → decode (.k6 k) = .error .reservedKey) ∧
  (∀ r : BitVec 9, r.getLsbD 8 = false → r.extractLsb' 0 4 ≠ 0 → decode (.r9 r) = .error .reservedRecipe) ∧
  (∀ rom : Config.Rom, ((∃ r ∈ rom.toList, r.getLsbD 8 = false ∧ r.extractLsb' 0 4 ≠ 0) →
      buildMachine rom = .refused .illFormedRom) ∧
    ((∀ r ∈ rom.toList, r.getLsbD 8 = false → r.extractLsb' 0 4 = 0) →
      ∃ t, buildMachine rom = .next t ∧ t.rom.words = rom ∧ t = { State.reset with rom := t.rom }))

/-- For width 4, 8 or 16 the key of a descriptor is 16 times 0, 1 or 2, plus 4 times MV_Y mod 4, plus MV_X mod 4
(non-negative residues of the signed components), whatever the other operands are; for any other whole width word there
is no key. (30_encoding.md section 2 (R55, R56); 00_scope.md section 5 (R8)) -/
def Obligations.DispatchKeyIsWidthAndPhases : Prop :=
  ∀ d : Operands,
    (∀ n : Nat, n < 3 → d.width = BitVec.ofNat 32 (4 * 2 ^ n) → ∃ k : BitVec 6, dispatchKey d = some k ∧
      (k.toNat : Int) = 16 * n + 4 * (d.mvY.toInt % 4) + d.mvX.toInt % 4) ∧
    (d.width ≠ 4 → d.width ≠ 8 → d.width ≠ 16 → dispatchKey d = none)

/-- For every component v, v = 4 * integer_part + phase with 0 <= phase <= 3, negative ones included, with no clamp; the
worked values 6, 10, 0, 3, -4, -5 and -1 split as the rule prints them. (R61) -/
def Obligations.MotionVectorSplits : Prop :=
  (∀ v : Word, v.toInt = 4 * mvInteger v + (mvPhase v).toNat ∧ (mvPhase v).toNat ≤ 3) ∧
  (∀ p ∈ [((6 : Int), (1 : Int), (2 : Nat)), (10, 2, 2), (0, 0, 0), (3, 0, 3), (-4, -1, 0), (-5, -2, 3), (-1, -1, 3)],
    mvInteger (BitVec.ofInt 32 p.1) = p.2.1 ∧ (mvPhase (BitVec.ofInt 32 p.1)).toNat = p.2.2)

/-- For every integer v, clip_u8 v is 0 below 0, 255 above 255, and v otherwise. (R9) -/
def Obligations.ClipSaturates : Prop :=
  ∀ v : Int, ((clipU8 v).toNat : Int) = if v < 0 then 0 else if v > 255 then 255 else v

/-- The unclipped quotient (sum + 16) >> 5 is negative exactly when sum <= -17 and exceeds 255 exactly when sum >= 8176;
clipping then gives 0 or 255, and both happen: 0, 255, 0, 0, 255, 0 gives sum -2550, quotient -80, output 0, and 0, 0,
255, 255, 0, 0 gives sum 10200, quotient 319, output 255. (R78) -/
def Obligations.OneDimensionalThresholds : Prop :=
  (∀ sum : Int, (shiftRight (sum + 16) 5 < 0 ↔ sum ≤ -17) ∧ (shiftRight (sum + 16) 5 > 255 ↔ sum ≥ 8176) ∧
    (sum ≤ -17 → roundOne sum = 0) ∧ (sum ≥ 8176 → roundOne sum = 255) ∧
    (-17 < sum → sum < 8176 → ((roundOne sum).toNat : Int) = shiftRight (sum + 16) 5)) ∧
  tap6 0 255 0 0 255 0 = -2550 ∧ shiftRight (-2550 + 16) 5 = -80 ∧ roundOne (-2550) = 0 ∧
  tap6 0 0 255 255 0 0 = 10200 ∧ shiftRight (10200 + 16) 5 = 319 ∧ roundOne 10200 = 255

/-- (sum2 + 512) >> 10 is the floor of (sum2 + 512) / 1024; it is negative exactly when sum2 <= -513 and exceeds 255
exactly when sum2 >= 261632; for sum2 in the range of rule R93 it lies in [-209, 464]; the rule's seven example values
give what it prints. (R94) -/
def Obligations.TwoDimensionalThresholds : Prop :=
  (∀ sum2 : Int, 1024 * shiftRight (sum2 + 512) 10 ≤ sum2 + 512 ∧ sum2 + 512 < 1024 * (shiftRight (sum2 + 512) 10 + 1) ∧
    (shiftRight (sum2 + 512) 10 < 0 ↔ sum2 ≤ -513) ∧ (shiftRight (sum2 + 512) 10 > 255 ↔ sum2 ≥ 261632) ∧
    (-214200 ≤ sum2 → sum2 ≤ 475320 → -209 ≤ shiftRight (sum2 + 512) 10 ∧ shiftRight (sum2 + 512) 10 ≤ 464) ∧
    (sum2 ≤ -513 → roundTwo sum2 = 0) ∧ (sum2 ≥ 261632 → roundTwo sum2 = 255) ∧
    (-513 < sum2 → sum2 < 261632 → ((roundTwo sum2).toNat : Int) = shiftRight (sum2 + 512) 10)) ∧
  (∀ p ∈ [((511 : Int), (0 : Int), (0 : Byte)), (512, 1, 1), (-512, 0, 0), (-513, -1, 0), (-214200, -209, 0),
      (475320, 464, 255), (102000, 100, 100)],
    shiftRight (p.1 + 512) 10 = p.2.1 ∧ roundTwo p.1 = p.2.2)

/-- For every memory, view and position the six-tap row sum lies in [-2550, 10710], inside [-32768, 32767], and reading
it back from 16 bits gives it unchanged. (R92) -/
def Obligations.StageOneFitsSixteenBits : Prop :=
  ∀ (m : List Host.Cell) (V : View) (r c : Int),
    -2550 ≤ rowSum m V r c ∧ rowSum m V r c ≤ 10710 ∧ (BitVec.ofInt 16 (rowSum m V r c)).toInt = rowSum m V r c

/-- For every memory, view and position the double six-tap sum lies in [-214200, 475320] and reading it back from 20
bits gives it unchanged; both ends are reached from stage-one values at the ends of their range. The width 20 is the
model's choice within ACC_BITS >= 20 (log 18). (43_filter_c.md (R93); 92_eei_decisions.md D9; 95_test_vectors.md V3.2)
-/
def Obligations.StageTwoFitsTwentyBits : Prop :=
  (∀ (m : List Host.Cell) (V : View) (y x : Int), -214200 ≤ doubleSum m V y x ∧ doubleSum m V y x ≤ 475320 ∧
    (BitVec.ofInt 20 (doubleSum m V y x)).toInt = doubleSum m V y x) ∧
  tap6 10710 (-2550) 10710 10710 (-2550) 10710 = 475320 ∧
  tap6 (-2550) 10710 (-2550) (-2550) 10710 (-2550) = -214200

/-- For every memory, view and position, the six-tap row sum of six column sums equals the six-tap column sum of six row
sums, and the column sums have the same range [-2550, 10710]. (R95) -/
def Obligations.AxisOrderUnobservable : Prop :=
  ∀ (m : List Host.Cell) (V : View) (y x : Int),
    tap6 (colSum m V y (x - 2)) (colSum m V y (x - 1)) (colSum m V y x)
      (colSum m V y (x + 1)) (colSum m V y (x + 2)) (colSum m V y (x + 3)) = doubleSum m V y x ∧
    -2550 ≤ colSum m V y x ∧ colSum m V y x ≤ 10710

/-- For a square block of n by n and any view V with its transpose T (T[r][c] = V[c][r] at every position FILT_V reads
of T), FILT_V(T)[y][x] = FILT_H(V)[x][y] at every position of the block; so for a source symmetric under transpose (T =
V) the horizontal output transposed is the vertical output. (R85) -/
def Obligations.TranspositionLaw : Prop :=
  (∀ (n : Nat) (m m' : List Host.Cell) (V T : View),
    (∀ r c : Int, InReadRange .filtV n n r c → viewSample m' T r c = viewSample m V c r) →
    ∀ y x : Nat, y < n → x < n → filtVSample m' T y x = filtHSample m V x y) ∧
  (∀ (n : Nat) (m : List Host.Cell) (V : View),
    (∀ r c : Int, InReadRange .filtV n n r c → viewSample m V r c = viewSample m V c r) →
    ∀ y x : Nat, y < n → x < n → filtVSample m V y x = filtHSample m V x y)

/-- For all samples a, b: avg(a, b) is (a + b + 1) / 2 rounded down, equals avg(b, a), lies between min and max, and
avg(a, a) = a; avg(255, 255) = 255 needs the ninth bit. (44_avg.md (R97, R98, R99)) -/
def Obligations.AverageLaws : Prop :=
  (∀ a b : Byte, (avgSample a b).toNat = (a.toNat + b.toNat + 1) / 2 ∧ avgSample a b = avgSample b a ∧
    avgSample a a = a ∧ min a.toNat b.toNat ≤ (avgSample a b).toNat ∧ (avgSample a b).toNat ≤ max a.toNat b.toNat) ∧
  avgSample 255 255 = 255

/-- For widths 8 and 16, every term, heights up to 16 and every row of the block: the sample the machine computes for
the term at width w, at column x of the left half, is the sample it computes at width w/2 at column x on the same source
view; at column x of the right half it is the sample it computes at width w/2 at column x - w/2 on the source view moved
right by w/2. The two runs have the same sample memory and height and may differ in everything else, scratch included.
(45_phase_table.md (R122, R104); 95_test_vectors.md V10) -/
def Obligations.WidthsSideBySide : Prop :=
  ∀ (t : Term) (s half : State) (w y x : Nat), w = 8 ∨ w = 16 → blockHeight s.x ≤ 16 → y < blockHeight s.x →
    half.mem = s.mem → half.x.height = s.x.height →
    (x < w / 2 → sourceView half.x = sourceView s.x → termBlock t w s y x = termBlock t (w / 2) half y x) ∧
    (w / 2 ≤ x → x < w → sourceView half.x = viewShift (sourceView s.x) 0 ((w / 2 : Nat) : Int) →
      termBlock t w s y x = termBlock t (w / 2) half y (x - w / 2))

/-- For every shift, in every state whose WIDTH is legal and whose operands are within contract for the term, COPY
answers a next state whose destination block holds V[y + dr][x + dc]; every other location, every register, STATUS, SEQ,
the ROM and all scratch are unchanged. The scratch kept is the model's reading (log 17); the slot, agenda, replies and
raced locations kept are the model's own fields (logs 9, 10 and 14). (40_copy.md (R70, R71); 45_phase_table.md (R104))
-/
def Obligations.CopyCompletes : Prop :=
  ∀ (s : State) (dr dc : Bool), widthLegal s.x.width = true →
    InContract s.x.width.toNat [{ op := .copy, dr := dr, dc := dc }] s →
    Produces (exec (.copy dr dc) s) s s.x.width.toNat [{ op := .copy, dr := dr, dc := dc }] fun y x =>
      sampleAt s.mem (viewAddr (sourceView s.x) (y + shiftOf dr) (x + shiftOf dc))

/-- For every shift, in every state whose WIDTH is legal and whose operands are within contract for the term, FILT_H
answers a next state whose destination block holds clip_u8((sum + 16) >> 5) of the six samples along row y + dr around
column x + dc; every other location, every register, STATUS, SEQ, the ROM and all scratch are unchanged. The scratch
kept is the model's reading (log 17); the slot, agenda, replies and raced locations kept are the model's own fields
(logs 9, 10 and 14). (41_filter_h.md (R75, R80); 45_phase_table.md (R104)) -/
def Obligations.FiltHCompletes : Prop :=
  ∀ (s : State) (dr dc : Bool), widthLegal s.x.width = true →
    InContract s.x.width.toNat [{ op := .filtH, dr := dr, dc := dc }] s →
    Produces (exec (.filtH dr dc) s) s s.x.width.toNat [{ op := .filtH, dr := dr, dc := dc }] fun y x =>
      clipU8 (shiftRight (rowSum s.mem (sourceView s.x) (y + shiftOf dr) (x + shiftOf dc) + 16) 5)

/-- For every shift, in every state whose WIDTH is legal and whose operands are within contract for the term, FILT_V
answers a next state whose destination block holds clip_u8((sum + 16) >> 5) of the six samples along column x + dc
around row y + dr; every other location, every register, STATUS, SEQ, the ROM and all scratch are unchanged. The scratch
kept is the model's reading (log 17); the slot, agenda, replies and raced locations kept are the model's own fields
(logs 9, 10 and 14). (42_filter_v.md (R82, R86); 45_phase_table.md (R104)) -/
def Obligations.FiltVCompletes : Prop :=
  ∀ (s : State) (dr dc : Bool), widthLegal s.x.width = true →
    InContract s.x.width.toNat [{ op := .filtV, dr := dr, dc := dc }] s →
    Produces (exec (.filtV dr dc) s) s s.x.width.toNat [{ op := .filtV, dr := dr, dc := dc }] fun y x =>
      clipU8 (shiftRight (colSum s.mem (sourceView s.x) (y + shiftOf dr) (x + shiftOf dc) + 16) 5)

/-- For every shift, in every state whose WIDTH is legal and whose operands are within contract for the term, FILT_C
answers a next state whose destination block holds clip_u8((sum2 + 512) >> 10) of the exact double six-tap sum, with MID
holding the unrounded row sums of rows -2 to h + 2; other locations, registers, STATUS, SEQ, the ROM, TMP_A and TMP_B
are unchanged, and so are the entries of MID outside the block. That the other scratch keeps its value is the model's
reading (log 17), and so are the slot, agenda, replies and raced locations kept (logs 9, 10 and 14). (43_filter_c.md
(R88, R89, R90, R91); 45_phase_table.md (R104)) -/
def Obligations.FiltCCompletes : Prop :=
  ∀ (s : State) (dr dc : Bool), widthLegal s.x.width = true →
    InContract s.x.width.toNat [{ op := .filtC, dr := dr, dc := dc }] s →
    ∃ t, exec (.filtC dr dc) s = .next t ∧
      DestHolds t.mem s.x s.x.width.toNat (fun y x =>
        clipU8 (shiftRight (doubleSum s.mem (sourceView s.x) (y + shiftOf dr) (x + shiftOf dc) + 512) 10)) ∧
      KeptOutside s.mem t.mem s.x s.x.width.toNat ∧ EngineFrame s t ∧ t.tmpA = s.tmpA ∧ t.tmpB = s.tmpB ∧
      (∀ k x : Nat, k < 21 → x < 16 → midAt t.mid k x =
        if k < blockHeight s.x + 5 ∧ x < s.x.width.toNat then
          rowSum s.mem (sourceView s.x) ((k : Int) - 2 + shiftOf dr) (x + shiftOf dc)
        else midAt s.mid k x)

/-- For all terms a, b, in every state whose WIDTH is legal and whose operands are within contract for both terms, AVG
answers a next state in which TMP_A holds the block of a, TMP_B that of b (their entries outside the block unchanged),
and the destination block holds (A + B + 1) >> 1; other locations, registers, STATUS, SEQ and the ROM are unchanged, and
without a FILT_C term so are MID and the accumulator. That scratch entries outside the block keep their values is the
model's reading (log 17); the slot, agenda, replies and raced locations kept are the model's own fields (logs 9, 10 and
14). (44_avg.md (R97); 45_phase_table.md (R102, R104); 10_state.md (R25)) -/
def Obligations.AvgCompletes : Prop :=
  ∀ (s : State) (a b : Term), widthLegal s.x.width = true → InContract s.x.width.toNat [a, b] s →
    ∃ t, exec (.avg a b) s = .next t ∧
      DestHolds t.mem s.x s.x.width.toNat (fun y x =>
        averageOf (termResult a s.mem (sourceView s.x) y x) (termResult b s.mem (sourceView s.x) y x)) ∧
      KeptOutside s.mem t.mem s.x s.x.width.toNat ∧ EngineFrame s t ∧ ScratchFrame [a, b] s t ∧
      (∀ y x : Nat, y < 16 → x < 16 →
        tileAt t.tmpA y x = (if y < blockHeight s.x ∧ x < s.x.width.toNat then
          termResult a s.mem (sourceView s.x) y x else tileAt s.tmpA y x) ∧
        tileAt t.tmpB y x = (if y < blockHeight s.x ∧ x < s.x.width.toNat then
          termResult b s.mem (sourceView s.x) y x else tileAt s.tmpB y x))

/-- With WIDTH not 4, 8 or 16, COPY, FILT_H, FILT_V, FILT_C and AVG are refused as widthNotDispatched: the dispatcher
never starts a unit for such a width. That such a run is refused by this name is the model's choice (log 19).
(46_dispatcher.md (R128); notes/assumptions/19.md) -/
def Obligations.UnitRowsNeedDispatchedWidth : Prop :=
  ∀ (s : State) (dr dc : Bool) (a b : Term), widthLegal s.x.width = false →
    exec (.copy dr dc) s = .refused .widthNotDispatched ∧ exec (.filtH dr dc) s = .refused .widthNotDispatched ∧
    exec (.filtV dr dc) s = .refused .widthNotDispatched ∧ exec (.filtC dr dc) s = .refused .widthNotDispatched ∧
    exec (.avg a b) s = .refused .widthNotDispatched

/-- Under ROM_DOC, in every state within contract for the terms of copy, MC_V0H0.W4, MC_V0H0.W8 and MC_V0H0.W16 each
answer a next state whose destination block, of that width, holds copy of the source view; every other location, every
register, STATUS, SEQ and the ROM are unchanged, and so is every scratch buffer the recipe does not use. The scratch
kept is the model's reading (log 17); the slot, agenda, replies and raced locations kept are its own fields (logs 9, 10
and 14). (45_phase_table.md (R105, R101, R102); 10_state.md (R20, R23)) -/
def Obligations.CaseV0H0Copy : Prop :=
  ∀ s : State, s.rom.words = Config.romDoc →
    (InContract 4 [plain .copy] s →
      Produces (exec .mcV0H0W4 s) s 4 [plain .copy] fun y x =>
        copySample s.mem (sourceView s.x) y x) ∧
    (InContract 8 [plain .copy] s →
      Produces (exec .mcV0H0W8 s) s 8 [plain .copy] fun y x =>
        copySample s.mem (sourceView s.x) y x) ∧
    (InContract 16 [plain .copy] s →
      Produces (exec .mcV0H0W16 s) s 16 [plain .copy] fun y x =>
        copySample s.mem (sourceView s.x) y x)

/-- Under ROM_DOC, in every state within contract for the terms of avg(copy, H), MC_V0H1.W4, MC_V0H1.W8 and MC_V0H1.W16
each answer a next state whose destination block, of that width, holds avg(copy, H) of the source view; every other
location, every register, STATUS, SEQ and the ROM are unchanged, and so is every scratch buffer the recipe does not use.
The scratch kept is the model's reading (log 17); the slot, agenda, replies and raced locations kept are its own fields
(logs 9, 10 and 14). (45_phase_table.md (R106, R101, R102); 10_state.md (R20, R23)) -/
def Obligations.CaseV0H1AverageCopyH : Prop :=
  ∀ s : State, s.rom.words = Config.romDoc →
    (InContract 4 [plain .copy, plain .filtH] s →
      Produces (exec .mcV0H1W4 s) s 4 [plain .copy, plain .filtH] fun y x =>
        averageOf (copySample s.mem (sourceView s.x) y x)
          (filtHSample s.mem (sourceView s.x) y x)) ∧
    (InContract 8 [plain .copy, plain .filtH] s →
      Produces (exec .mcV0H1W8 s) s 8 [plain .copy, plain .filtH] fun y x =>
        averageOf (copySample s.mem (sourceView s.x) y x)
          (filtHSample s.mem (sourceView s.x) y x)) ∧
    (InContract 16 [plain .copy, plain .filtH] s →
      Produces (exec .mcV0H1W16 s) s 16 [plain .copy, plain .filtH] fun y x =>
        averageOf (copySample s.mem (sourceView s.x) y x)
          (filtHSample s.mem (sourceView s.x) y x))

/-- Under ROM_DOC, in every state within contract for the terms of H, MC_V0H2.W4, MC_V0H2.W8 and MC_V0H2.W16 each answer
a next state whose destination block, of that width, holds H of the source view; every other location, every register,
STATUS, SEQ and the ROM are unchanged, and so is every scratch buffer the recipe does not use. The scratch kept is the
model's reading (log 17); the slot, agenda, replies and raced locations kept are its own fields (logs 9, 10 and 14).
(45_phase_table.md (R107, R101, R102); 10_state.md (R20, R23)) -/
def Obligations.CaseV0H2H : Prop :=
  ∀ s : State, s.rom.words = Config.romDoc →
    (InContract 4 [plain .filtH] s →
      Produces (exec .mcV0H2W4 s) s 4 [plain .filtH] fun y x =>
        filtHSample s.mem (sourceView s.x) y x) ∧
    (InContract 8 [plain .filtH] s →
      Produces (exec .mcV0H2W8 s) s 8 [plain .filtH] fun y x =>
        filtHSample s.mem (sourceView s.x) y x) ∧
    (InContract 16 [plain .filtH] s →
      Produces (exec .mcV0H2W16 s) s 16 [plain .filtH] fun y x =>
        filtHSample s.mem (sourceView s.x) y x)

/-- Under ROM_DOC, in every state within contract for the terms of avg(copy+1col, H), MC_V0H3.W4, MC_V0H3.W8 and
MC_V0H3.W16 each answer a next state whose destination block, of that width, holds avg(copy+1col, H) of the source view;
every other location, every register, STATUS, SEQ and the ROM are unchanged, and so is every scratch buffer the recipe
does not use. The scratch kept is the model's reading (log 17); the slot, agenda, replies and raced locations kept are
its own fields (logs 9, 10 and 14). (45_phase_table.md (R108, R101, R102); 10_state.md (R20, R23)) -/
def Obligations.CaseV0H3AverageCopyNextColH : Prop :=
  ∀ s : State, s.rom.words = Config.romDoc →
    (InContract 4 [nextCol .copy, plain .filtH] s →
      Produces (exec .mcV0H3W4 s) s 4 [nextCol .copy, plain .filtH] fun y x =>
        averageOf (copySample s.mem (viewShift (sourceView s.x) 0 1) y x)
          (filtHSample s.mem (sourceView s.x) y x)) ∧
    (InContract 8 [nextCol .copy, plain .filtH] s →
      Produces (exec .mcV0H3W8 s) s 8 [nextCol .copy, plain .filtH] fun y x =>
        averageOf (copySample s.mem (viewShift (sourceView s.x) 0 1) y x)
          (filtHSample s.mem (sourceView s.x) y x)) ∧
    (InContract 16 [nextCol .copy, plain .filtH] s →
      Produces (exec .mcV0H3W16 s) s 16 [nextCol .copy, plain .filtH] fun y x =>
        averageOf (copySample s.mem (viewShift (sourceView s.x) 0 1) y x)
          (filtHSample s.mem (sourceView s.x) y x))

/-- Under ROM_DOC, in every state within contract for the terms of avg(copy, V), MC_V1H0.W4, MC_V1H0.W8 and MC_V1H0.W16
each answer a next state whose destination block, of that width, holds avg(copy, V) of the source view; every other
location, every register, STATUS, SEQ and the ROM are unchanged, and so is every scratch buffer the recipe does not use.
The scratch kept is the model's reading (log 17); the slot, agenda, replies and raced locations kept are its own fields
(logs 9, 10 and 14). (45_phase_table.md (R109, R101, R102); 10_state.md (R20, R23)) -/
def Obligations.CaseV1H0AverageCopyV : Prop :=
  ∀ s : State, s.rom.words = Config.romDoc →
    (InContract 4 [plain .copy, plain .filtV] s →
      Produces (exec .mcV1H0W4 s) s 4 [plain .copy, plain .filtV] fun y x =>
        averageOf (copySample s.mem (sourceView s.x) y x)
          (filtVSample s.mem (sourceView s.x) y x)) ∧
    (InContract 8 [plain .copy, plain .filtV] s →
      Produces (exec .mcV1H0W8 s) s 8 [plain .copy, plain .filtV] fun y x =>
        averageOf (copySample s.mem (sourceView s.x) y x)
          (filtVSample s.mem (sourceView s.x) y x)) ∧
    (InContract 16 [plain .copy, plain .filtV] s →
      Produces (exec .mcV1H0W16 s) s 16 [plain .copy, plain .filtV] fun y x =>
        averageOf (copySample s.mem (sourceView s.x) y x)
          (filtVSample s.mem (sourceView s.x) y x))

/-- Under ROM_DOC, in every state within contract for the terms of avg(V, H), MC_V1H1.W4, MC_V1H1.W8 and MC_V1H1.W16
each answer a next state whose destination block, of that width, holds avg(V, H) of the source view; every other
location, every register, STATUS, SEQ and the ROM are unchanged, and so is every scratch buffer the recipe does not use.
The scratch kept is the model's reading (log 17); the slot, agenda, replies and raced locations kept are its own fields
(logs 9, 10 and 14). (45_phase_table.md (R110, R101, R102); 10_state.md (R20, R23)) -/
def Obligations.CaseV1H1AverageVH : Prop :=
  ∀ s : State, s.rom.words = Config.romDoc →
    (InContract 4 [plain .filtV, plain .filtH] s →
      Produces (exec .mcV1H1W4 s) s 4 [plain .filtV, plain .filtH] fun y x =>
        averageOf (filtVSample s.mem (sourceView s.x) y x)
          (filtHSample s.mem (sourceView s.x) y x)) ∧
    (InContract 8 [plain .filtV, plain .filtH] s →
      Produces (exec .mcV1H1W8 s) s 8 [plain .filtV, plain .filtH] fun y x =>
        averageOf (filtVSample s.mem (sourceView s.x) y x)
          (filtHSample s.mem (sourceView s.x) y x)) ∧
    (InContract 16 [plain .filtV, plain .filtH] s →
      Produces (exec .mcV1H1W16 s) s 16 [plain .filtV, plain .filtH] fun y x =>
        averageOf (filtVSample s.mem (sourceView s.x) y x)
          (filtHSample s.mem (sourceView s.x) y x))

/-- Under ROM_DOC, in every state within contract for the terms of avg(C, V), MC_V1H2.W4, MC_V1H2.W8 and MC_V1H2.W16
each answer a next state whose destination block, of that width, holds avg(C, V) of the source view; every other
location, every register, STATUS, SEQ and the ROM are unchanged, and so is every scratch buffer the recipe does not use.
The scratch kept is the model's reading (log 17); the slot, agenda, replies and raced locations kept are its own fields
(logs 9, 10 and 14). (45_phase_table.md (R111, R101, R102); 10_state.md (R20, R23)) -/
def Obligations.CaseV1H2AverageCV : Prop :=
  ∀ s : State, s.rom.words = Config.romDoc →
    (InContract 4 [plain .filtC, plain .filtV] s →
      Produces (exec .mcV1H2W4 s) s 4 [plain .filtC, plain .filtV] fun y x =>
        averageOf (centreSample s.mem (sourceView s.x) y x)
          (filtVSample s.mem (sourceView s.x) y x)) ∧
    (InContract 8 [plain .filtC, plain .filtV] s →
      Produces (exec .mcV1H2W8 s) s 8 [plain .filtC, plain .filtV] fun y x =>
        averageOf (centreSample s.mem (sourceView s.x) y x)
          (filtVSample s.mem (sourceView s.x) y x)) ∧
    (InContract 16 [plain .filtC, plain .filtV] s →
      Produces (exec .mcV1H2W16 s) s 16 [plain .filtC, plain .filtV] fun y x =>
        averageOf (centreSample s.mem (sourceView s.x) y x)
          (filtVSample s.mem (sourceView s.x) y x))

/-- Under ROM_DOC, in every state within contract for the terms of avg(V, H+1col), MC_V1H3.W4, MC_V1H3.W8 and
MC_V1H3.W16 each answer a next state whose destination block, of that width, holds avg(V, H+1col) of the source view;
every other location, every register, STATUS, SEQ and the ROM are unchanged, and so is every scratch buffer the recipe
does not use. The scratch kept is the model's reading (log 17); the slot, agenda, replies and raced locations kept are
its own fields (logs 9, 10 and 14). (45_phase_table.md (R112, R101, R102); 10_state.md (R20, R23)) -/
def Obligations.CaseV1H3AverageVHNextCol : Prop :=
  ∀ s : State, s.rom.words = Config.romDoc →
    (InContract 4 [plain .filtV, nextCol .filtH] s →
      Produces (exec .mcV1H3W4 s) s 4 [plain .filtV, nextCol .filtH] fun y x =>
        averageOf (filtVSample s.mem (sourceView s.x) y x)
          (filtHSample s.mem (viewShift (sourceView s.x) 0 1) y x)) ∧
    (InContract 8 [plain .filtV, nextCol .filtH] s →
      Produces (exec .mcV1H3W8 s) s 8 [plain .filtV, nextCol .filtH] fun y x =>
        averageOf (filtVSample s.mem (sourceView s.x) y x)
          (filtHSample s.mem (viewShift (sourceView s.x) 0 1) y x)) ∧
    (InContract 16 [plain .filtV, nextCol .filtH] s →
      Produces (exec .mcV1H3W16 s) s 16 [plain .filtV, nextCol .filtH] fun y x =>
        averageOf (filtVSample s.mem (sourceView s.x) y x)
          (filtHSample s.mem (viewShift (sourceView s.x) 0 1) y x))

/-- Under ROM_DOC, in every state within contract for the terms of V, MC_V2H0.W4, MC_V2H0.W8 and MC_V2H0.W16 each answer
a next state whose destination block, of that width, holds V of the source view; every other location, every register,
STATUS, SEQ and the ROM are unchanged, and so is every scratch buffer the recipe does not use. The scratch kept is the
model's reading (log 17); the slot, agenda, replies and raced locations kept are its own fields (logs 9, 10 and 14).
(45_phase_table.md (R113, R101, R102); 10_state.md (R20, R23)) -/
def Obligations.CaseV2H0V : Prop :=
  ∀ s : State, s.rom.words = Config.romDoc →
    (InContract 4 [plain .filtV] s →
      Produces (exec .mcV2H0W4 s) s 4 [plain .filtV] fun y x =>
        filtVSample s.mem (sourceView s.x) y x) ∧
    (InContract 8 [plain .filtV] s →
      Produces (exec .mcV2H0W8 s) s 8 [plain .filtV] fun y x =>
        filtVSample s.mem (sourceView s.x) y x) ∧
    (InContract 16 [plain .filtV] s →
      Produces (exec .mcV2H0W16 s) s 16 [plain .filtV] fun y x =>
        filtVSample s.mem (sourceView s.x) y x)

/-- Under ROM_DOC, in every state within contract for the terms of avg(C, V+1col), MC_V2H1.W4, MC_V2H1.W8 and
MC_V2H1.W16 each answer a next state whose destination block, of that width, holds avg(C, V+1col) of the source view;
every other location, every register, STATUS, SEQ and the ROM are unchanged, and so is every scratch buffer the recipe
does not use. The scratch kept is the model's reading (log 17); the slot, agenda, replies and raced locations kept are
its own fields (logs 9, 10 and 14). (45_phase_table.md (R114, R101, R102); 10_state.md (R20, R23)) -/
def Obligations.CaseV2H1AverageCVNextCol : Prop :=
  ∀ s : State, s.rom.words = Config.romDoc →
    (InContract 4 [plain .filtC, nextCol .filtV] s →
      Produces (exec .mcV2H1W4 s) s 4 [plain .filtC, nextCol .filtV] fun y x =>
        averageOf (centreSample s.mem (sourceView s.x) y x)
          (filtVSample s.mem (viewShift (sourceView s.x) 0 1) y x)) ∧
    (InContract 8 [plain .filtC, nextCol .filtV] s →
      Produces (exec .mcV2H1W8 s) s 8 [plain .filtC, nextCol .filtV] fun y x =>
        averageOf (centreSample s.mem (sourceView s.x) y x)
          (filtVSample s.mem (viewShift (sourceView s.x) 0 1) y x)) ∧
    (InContract 16 [plain .filtC, nextCol .filtV] s →
      Produces (exec .mcV2H1W16 s) s 16 [plain .filtC, nextCol .filtV] fun y x =>
        averageOf (centreSample s.mem (sourceView s.x) y x)
          (filtVSample s.mem (viewShift (sourceView s.x) 0 1) y x))

/-- Under ROM_DOC, in every state within contract for the terms of C, MC_V2H2.W4, MC_V2H2.W8 and MC_V2H2.W16 each answer
a next state whose destination block, of that width, holds C of the source view; every other location, every register,
STATUS, SEQ and the ROM are unchanged, and so is every scratch buffer the recipe does not use. The scratch kept is the
model's reading (log 17); the slot, agenda, replies and raced locations kept are its own fields (logs 9, 10 and 14).
(45_phase_table.md (R115, R101, R102); 10_state.md (R20, R23)) -/
def Obligations.CaseV2H2C : Prop :=
  ∀ s : State, s.rom.words = Config.romDoc →
    (InContract 4 [plain .filtC] s →
      Produces (exec .mcV2H2W4 s) s 4 [plain .filtC] fun y x =>
        centreSample s.mem (sourceView s.x) y x) ∧
    (InContract 8 [plain .filtC] s →
      Produces (exec .mcV2H2W8 s) s 8 [plain .filtC] fun y x =>
        centreSample s.mem (sourceView s.x) y x) ∧
    (InContract 16 [plain .filtC] s →
      Produces (exec .mcV2H2W16 s) s 16 [plain .filtC] fun y x =>
        centreSample s.mem (sourceView s.x) y x)

/-- Under ROM_DOC, in every state within contract for the terms of avg(C, V+1col), MC_V2H3.W4, MC_V2H3.W8 and
MC_V2H3.W16 each answer a next state whose destination block, of that width, holds avg(C, V+1col) of the source view;
every other location, every register, STATUS, SEQ and the ROM are unchanged, and so is every scratch buffer the recipe
does not use. The scratch kept is the model's reading (log 17); the slot, agenda, replies and raced locations kept are
its own fields (logs 9, 10 and 14). (45_phase_table.md (R116, R101, R102); 10_state.md (R20, R23)) -/
def Obligations.CaseV2H3AverageCVNextCol : Prop :=
  ∀ s : State, s.rom.words = Config.romDoc →
    (InContract 4 [plain .filtC, nextCol .filtV] s →
      Produces (exec .mcV2H3W4 s) s 4 [plain .filtC, nextCol .filtV] fun y x =>
        averageOf (centreSample s.mem (sourceView s.x) y x)
          (filtVSample s.mem (viewShift (sourceView s.x) 0 1) y x)) ∧
    (InContract 8 [plain .filtC, nextCol .filtV] s →
      Produces (exec .mcV2H3W8 s) s 8 [plain .filtC, nextCol .filtV] fun y x =>
        averageOf (centreSample s.mem (sourceView s.x) y x)
          (filtVSample s.mem (viewShift (sourceView s.x) 0 1) y x)) ∧
    (InContract 16 [plain .filtC, nextCol .filtV] s →
      Produces (exec .mcV2H3W16 s) s 16 [plain .filtC, nextCol .filtV] fun y x =>
        averageOf (centreSample s.mem (sourceView s.x) y x)
          (filtVSample s.mem (viewShift (sourceView s.x) 0 1) y x))

/-- Under ROM_DOC, in every state within contract for the terms of avg(copy+1row, V), MC_V3H0.W4, MC_V3H0.W8 and
MC_V3H0.W16 each answer a next state whose destination block, of that width, holds avg(copy+1row, V) of the source view;
every other location, every register, STATUS, SEQ and the ROM are unchanged, and so is every scratch buffer the recipe
does not use. The scratch kept is the model's reading (log 17); the slot, agenda, replies and raced locations kept are
its own fields (logs 9, 10 and 14). (45_phase_table.md (R117, R101, R102); 10_state.md (R20, R23)) -/
def Obligations.CaseV3H0AverageCopyNextRowV : Prop :=
  ∀ s : State, s.rom.words = Config.romDoc →
    (InContract 4 [nextRow .copy, plain .filtV] s →
      Produces (exec .mcV3H0W4 s) s 4 [nextRow .copy, plain .filtV] fun y x =>
        averageOf (copySample s.mem (viewShift (sourceView s.x) 1 0) y x)
          (filtVSample s.mem (sourceView s.x) y x)) ∧
    (InContract 8 [nextRow .copy, plain .filtV] s →
      Produces (exec .mcV3H0W8 s) s 8 [nextRow .copy, plain .filtV] fun y x =>
        averageOf (copySample s.mem (viewShift (sourceView s.x) 1 0) y x)
          (filtVSample s.mem (sourceView s.x) y x)) ∧
    (InContract 16 [nextRow .copy, plain .filtV] s →
      Produces (exec .mcV3H0W16 s) s 16 [nextRow .copy, plain .filtV] fun y x =>
        averageOf (copySample s.mem (viewShift (sourceView s.x) 1 0) y x)
          (filtVSample s.mem (sourceView s.x) y x))

/-- Under ROM_DOC, in every state within contract for the terms of avg(V, H+1row), MC_V3H1.W4, MC_V3H1.W8 and
MC_V3H1.W16 each answer a next state whose destination block, of that width, holds avg(V, H+1row) of the source view;
every other location, every register, STATUS, SEQ and the ROM are unchanged, and so is every scratch buffer the recipe
does not use. The scratch kept is the model's reading (log 17); the slot, agenda, replies and raced locations kept are
its own fields (logs 9, 10 and 14). (45_phase_table.md (R118, R101, R102); 10_state.md (R20, R23)) -/
def Obligations.CaseV3H1AverageVHNextRow : Prop :=
  ∀ s : State, s.rom.words = Config.romDoc →
    (InContract 4 [plain .filtV, nextRow .filtH] s →
      Produces (exec .mcV3H1W4 s) s 4 [plain .filtV, nextRow .filtH] fun y x =>
        averageOf (filtVSample s.mem (sourceView s.x) y x)
          (filtHSample s.mem (viewShift (sourceView s.x) 1 0) y x)) ∧
    (InContract 8 [plain .filtV, nextRow .filtH] s →
      Produces (exec .mcV3H1W8 s) s 8 [plain .filtV, nextRow .filtH] fun y x =>
        averageOf (filtVSample s.mem (sourceView s.x) y x)
          (filtHSample s.mem (viewShift (sourceView s.x) 1 0) y x)) ∧
    (InContract 16 [plain .filtV, nextRow .filtH] s →
      Produces (exec .mcV3H1W16 s) s 16 [plain .filtV, nextRow .filtH] fun y x =>
        averageOf (filtVSample s.mem (sourceView s.x) y x)
          (filtHSample s.mem (viewShift (sourceView s.x) 1 0) y x))

/-- Under ROM_DOC, in every state within contract for the terms of avg(C, V+1row), MC_V3H2.W4, MC_V3H2.W8 and
MC_V3H2.W16 each answer a next state whose destination block, of that width, holds avg(C, V+1row) of the source view;
every other location, every register, STATUS, SEQ and the ROM are unchanged, and so is every scratch buffer the recipe
does not use. The scratch kept is the model's reading (log 17); the slot, agenda, replies and raced locations kept are
its own fields (logs 9, 10 and 14). (45_phase_table.md (R119, R101, R102); 10_state.md (R20, R23)) -/
def Obligations.CaseV3H2AverageCVNextRow : Prop :=
  ∀ s : State, s.rom.words = Config.romDoc →
    (InContract 4 [plain .filtC, nextRow .filtV] s →
      Produces (exec .mcV3H2W4 s) s 4 [plain .filtC, nextRow .filtV] fun y x =>
        averageOf (centreSample s.mem (sourceView s.x) y x)
          (filtVSample s.mem (viewShift (sourceView s.x) 1 0) y x)) ∧
    (InContract 8 [plain .filtC, nextRow .filtV] s →
      Produces (exec .mcV3H2W8 s) s 8 [plain .filtC, nextRow .filtV] fun y x =>
        averageOf (centreSample s.mem (sourceView s.x) y x)
          (filtVSample s.mem (viewShift (sourceView s.x) 1 0) y x)) ∧
    (InContract 16 [plain .filtC, nextRow .filtV] s →
      Produces (exec .mcV3H2W16 s) s 16 [plain .filtC, nextRow .filtV] fun y x =>
        averageOf (centreSample s.mem (sourceView s.x) y x)
          (filtVSample s.mem (viewShift (sourceView s.x) 1 0) y x))

/-- Under ROM_DOC, in every state within contract for the terms of avg(V+1row, H+1row+1col), MC_V3H3.W4, MC_V3H3.W8 and
MC_V3H3.W16 each answer a next state whose destination block, of that width, holds avg(V+1row, H+1row+1col) of the
source view; every other location, every register, STATUS, SEQ and the ROM are unchanged, and so is every scratch buffer
the recipe does not use. The scratch kept is the model's reading (log 17); the slot, agenda, replies and raced locations
kept are its own fields (logs 9, 10 and 14). (45_phase_table.md (R120, R101, R102); 10_state.md (R20, R23)) -/
def Obligations.CaseV3H3AverageVNextRowHNextRowCol : Prop :=
  ∀ s : State, s.rom.words = Config.romDoc →
    (InContract 4 [nextRow .filtV, nextRowCol .filtH] s →
      Produces (exec .mcV3H3W4 s) s 4 [nextRow .filtV, nextRowCol .filtH] fun y x =>
        averageOf (filtVSample s.mem (viewShift (sourceView s.x) 1 0) y x)
          (filtHSample s.mem (viewShift (sourceView s.x) 1 1) y x)) ∧
    (InContract 8 [nextRow .filtV, nextRowCol .filtH] s →
      Produces (exec .mcV3H3W8 s) s 8 [nextRow .filtV, nextRowCol .filtH] fun y x =>
        averageOf (filtVSample s.mem (viewShift (sourceView s.x) 1 0) y x)
          (filtHSample s.mem (viewShift (sourceView s.x) 1 1) y x)) ∧
    (InContract 16 [nextRow .filtV, nextRowCol .filtH] s →
      Produces (exec .mcV3H3W16 s) s 16 [nextRow .filtV, nextRowCol .filtH] fun y x =>
        averageOf (filtVSample s.mem (viewShift (sourceView s.x) 1 0) y x)
          (filtHSample s.mem (viewShift (sourceView s.x) 1 1) y x))

/-- For every descriptor with a legal width, every phase ROM, and every state within contract for the terms of the
recipe word selected, PREDICT_LUMA answers a next state: the destination block holds the recipe's result on the source
view, every other location is unchanged, the operand registers hold the descriptor, STATUS = 0x02, SEQ = IDLE, and the
ROM, the agenda and the replies are unchanged. The agenda, the replies, the slot and the list of raced locations, empty
after the command, are the model's own fields (logs 9, 10 and 14). (46_dispatcher.md (R125, R129, R130);
45_phase_table.md (R102); 10_state.md (R16, R20); 20_memory.md (R44, R50)) -/
def Obligations.PredictLumaWritesPrediction : Prop :=
  ∀ (d : Operands) (s : State), widthLegal d.width = true →
    InContract d.width.toNat (recipeTerms (romWord s.rom.words (phaseIndex d))) (issueCommand d s) →
    ∃ t, exec (.predictLuma d) s = .next t ∧
      DestHolds t.mem d d.width.toNat (recipeResult (romWord s.rom.words (phaseIndex d)) s.mem (sourceView d)) ∧
      KeptOutside s.mem t.mem d d.width.toNat ∧ t.x = d ∧ t.status = 0x02 ∧ t.seq = .idle ∧ t.rom = s.rom ∧
      t.slot = .command ∧ t.agenda = s.agenda ∧ t.replies = s.replies ∧ t.raced = []

/-- For every descriptor whose width is not 4, 8 or 16, whatever its other operands, PREDICT_LUMA answers the state in
which the operands are loaded (the issue), ERR = 1, ECODE = 1, BUSY = 0, DONE = 1 and SEQ = IDLE; the slot is put back
to the undecoded command and the list of raced locations to empty; and everything else, the whole sample memory, the
ROM, the scratch, the agenda, the replies and the count of draws included, is as it was. The slot, the agenda, the
replies, the draws and the raced locations are the model's own fields (logs 7, 9, 10 and 14). (60_exceptions.md (R141,
R142); 10_state.md (R31); 46_dispatcher.md (R125 step 1); notes/assumptions/7.md; notes/assumptions/9.md;
notes/assumptions/10.md; notes/assumptions/14.md) -/
def Obligations.UnsupportedWidthRaises : Prop :=
  ∀ (d : Operands) (s : State), d.width ≠ 4 → d.width ≠ 8 → d.width ≠ 16 →
    ∃ t, exec (.predictLuma d) s = .next t ∧ statusErr t.status = true ∧ statusEcode t.status = 1 ∧
      statusBusy t.status = false ∧ statusDone t.status = true ∧ t.status = 0x16 ∧ t.seq = .idle ∧ t.x = d ∧
      t = { s with x := t.x, status := t.status, seq := t.seq, slot := .command, raced := [] }

/-- For every descriptor with a dispatch key, executing PREDICT_LUMA is executing the row the key decodes to in the
issued state and then completing; a stop of the row is the command's stop. (46_dispatcher.md (R125 steps 5 to 7, R129);
30_encoding.md (R53, R56)) -/
def Obligations.PredictRunsItsDispatchKey : Prop :=
  ∀ (d : Operands) (s : State) (k : BitVec 6) (i : Instr), dispatchKey d = some k → decode (.k6 k) = .ok i →
    exec (.predictLuma d) s = andThen (exec i (issueCommand d s)) fun t => .next (completeCommand t)

/-- For every key and every phase ROM, with WIDTH that of the key: the recipe word of the key decodes to an instruction
(AVG with two terms, or the single term), and executing the key's row is executing that instruction. That no word of the
ROM is the reserved encoding is a condition on the ROM itself, refused when the machine is built (R65, U12, log 4).
(45_phase_table.md (R102); 30_encoding.md (R53, R58, R65); 93_implementation_defined.md U12; notes/assumptions/4.md) -/
def Obligations.CaseRunsItsRecipeWord : Prop :=
  ∀ (k : BitVec 6) (i : Instr) (s : State), decode (.k6 k) = .ok i →
    s.x.width.toNat = selectedWidth (k.extractLsb' 4 2) →
    ∃ j, decode (.r9 (romWord s.rom.words (k.extractLsb' 0 4))) = .ok j ∧ exec i s = exec j s

/-- For a legal width and any phase ROM, PREDICT_LUMA stops: as heightOutOfContract for an illegal height; else as
strideOutOfContract for a stride below the width; else as addressOverflow if a base or a footprint address leaves the
address range; else with the fault invalidLocation if a footprint address is not a valid location; else as
footprintsOverlap if the footprints meet. No out-of-contract command gets a result. The names and the order of these
stops are the model's choice (logs 12 and 13). (93_implementation_defined.md U1, U2, U3, U4, U6; 70_reset_and_hazards.md
(R165); notes/assumptions/12.md; notes/assumptions/13.md) -/
def Obligations.OutOfContractStops : Prop :=
  ∀ (d : Operands) (s : State), widthLegal d.width = true →
    let w := d.width.toNat
    let ts := recipeTerms (romWord s.rom.words (phaseIndex d))
    let heightOk := 1 ≤ blockHeight d ∧ blockHeight d ≤ 16 ∧ (w = 4 → blockHeight d % 4 = 0)
    let stridesOk := w ≤ d.srcStride.toNat ∧ w ≤ d.dstStride.toNat
    let inRange := ∀ a, (a ∈ commandBases d ts ∨ Reads d w ts a ∨ Writes d w a) → 0 ≤ a ∧ a < Config.addressEnd
    let allValid := ∀ a, (Reads d w ts a ∨ Writes d w a) → Valid s.mem a
    let meet := ∃ a, Reads d w ts a ∧ Writes d w a
    (¬ heightOk → exec (.predictLuma d) s = .refused .heightOutOfContract) ∧
    (heightOk → ¬ stridesOk → exec (.predictLuma d) s = .refused .strideOutOfContract) ∧
    (heightOk → stridesOk → ¬ inRange → exec (.predictLuma d) s = .refused .addressOverflow) ∧
    (heightOk → stridesOk → inRange → ¬ allValid → exec (.predictLuma d) s = .fault .invalidLocation) ∧
    (heightOk → stridesOk → inRange → allValid → meet → exec (.predictLuma d) s = .refused .footprintsOverlap)

/-- Two states with the same ROM, both within contract for the same descriptor, whose memories agree on the command's
read footprint, get the same destination block, whatever else differs: other samples, scratch, status, earlier operands.
(46_dispatcher.md (R132); 20_memory.md (R40, R43); 10_state.md (R27)) -/
def Obligations.OnlyReadFootprintMatters : Prop :=
  ∀ (d : Operands) (s s' : State), s.rom = s'.rom → widthLegal d.width = true →
    InContract d.width.toNat (recipeTerms (romWord s.rom.words (phaseIndex d))) (issueCommand d s) →
    InContract d.width.toNat (recipeTerms (romWord s.rom.words (phaseIndex d))) (issueCommand d s') →
    (∀ a, Reads d d.width.toNat (recipeTerms (romWord s.rom.words (phaseIndex d))) a →
      sampleAt s.mem a = sampleAt s'.mem a) →
    ∃ t t', exec (.predictLuma d) s = .next t ∧ exec (.predictLuma d) s' = .next t' ∧
      t.status = t'.status ∧ ∀ a, Writes d d.width.toNat a → memFind t.mem a.toNat = memFind t'.mem a.toNat

/-- For every descriptor with a legal width, every phase ROM and every state within contract: if every sample of the
read footprint equals c, PREDICT_LUMA answers a next state whose destination block holds c everywhere.
(45_phase_table.md (R124 (a)); 95_test_vectors.md S1) -/
def Obligations.ConstantInputGivesConstantOutput : Prop :=
  ∀ (d : Operands) (s : State) (c : Byte), widthLegal d.width = true →
    InContract d.width.toNat (recipeTerms (romWord s.rom.words (phaseIndex d))) (issueCommand d s) →
    (∀ a, Reads d d.width.toNat (recipeTerms (romWord s.rom.words (phaseIndex d))) a → sampleAt s.mem a = c) →
    ∃ t, exec (.predictLuma d) s = .next t ∧ DestHolds t.mem d d.width.toNat fun _ _ => c

/-- Whenever a row other than PREDICT_LUMA answers a next state, the operand registers, STATUS, SEQ, the ROM, the slot,
the agenda, the replies and the raced locations are unchanged; whenever PREDICT_LUMA does, the operand registers hold
its descriptor, the engine is idle, STATUS is 0x02 or 0x16, the ROM, the agenda and the replies are unchanged, and no
location is raced. The slot, the agenda, the replies and the raced locations are the model's own fields (logs 9, 10 and
14). (10_state.md (R16, R20, R21); 60_exceptions.md (R136)) -/
def Obligations.RowsKeepEngineState : Prop :=
  ∀ (i : Instr) (s t : State), exec i s = .next t →
    ((∀ d, i ≠ .predictLuma d) → EngineFrame s t) ∧
    (∀ d, i = .predictLuma d → t.x = d ∧ t.seq = .idle ∧ (t.status = 0x02 ∨ t.status = 0x16) ∧ t.rom = s.rom ∧
      t.agenda = s.agenda ∧ t.replies = s.replies ∧ t.raced = [])

/-- Whenever an instruction answers a next state, exactly the locations valid before are valid after: the set of valid
locations is the host's. A memory in canonical form stays so; that form is the model's own (log 5). (20_memory.md (R34,
R44); 10_state.md (R29); notes/assumptions/5.md) -/
def Obligations.ExecKeepsValidLocations : Prop :=
  ∀ (i : Instr) (s t : State), exec i s = .next t →
    (∀ a : Nat, (memFind t.mem a).isSome = (memFind s.mem a).isSome) ∧ (memWellFormed s.mem → memWellFormed t.mem)

/-- While SEQ = RUN, when the agenda is empty or its head is the engine's turn, and the code in the sequencer decodes to
i: step is exec i on the state with that turn taken off, and for a key, recipe or term in the slot the command's
completion follows (PREDICT_LUMA completes by itself); then the races with host accesses are decided, and where no
location is raced step is exec and completion alone. The turns, the sequencer's codes and the deciding of races are the
model's own (logs 9, 10 and 14). (30_encoding.md (R53); 46_dispatcher.md (R125 step 7); notes/assumptions/10.md;
notes/assumptions/14.md) -/
def Obligations.StepRunsFetchedInstruction : Prop :=
  ∀ (s : State) (i : Instr), s.seq = .run → (s.agenda = [] ∨ ∃ rest, s.agenda = .run :: rest) →
    decode (fetchCode s) = .ok i →
    let u := { s with agenda := s.agenda.tail }
    let ran := if s.slot = .command then exec i u else andThen (exec i u) fun t => .next (completeCommand t)
    step s = andThen ran (fun t => .next (settleRaces u t)) ∧ (s.raced = [] → step s = ran)

/-- In every state that meets the invariant with a command running: if decoding one level further leaves the command
running, the engine's turn then has the same outcome as its turn at once, the whole next state or the same stop; if
decoding ends the command (unsupported width), the engine's turn at once gives that same state. The decoding turns are
the model's own (log 10). (30_encoding.md (R53); 20_memory.md (R50); 45_phase_table.md (R102); notes/assumptions/10.md)
-/
def Obligations.DecodingFurtherKeepsOutcome : Prop :=
  ∀ s t : State, EngineInv s → s.seq = .run → decodeTurn s = .next t →
    (t.seq = .run → engineTurn t = engineTurn s) ∧ (t.seq = .idle → engineTurn s = .next t)

/-- When SEQ = IDLE and the next turn is an issue, step answers the state in which x[0..7] hold the descriptor, STATUS =
0x01, SEQ = RUN, the sequencer holds the undecoded command, that turn is taken off, and everything else is unchanged,
whatever STATUS was before. The turn order and the slot are the model's own (logs 9 and 10). (10_state.md (R20, R31);
46_dispatcher.md (R125 step 1)) -/
def Obligations.IssueStartsCommand : Prop :=
  ∀ (s : State) (d : Operands) (rest : List Event), s.seq = .idle → s.agenda = .host (.issue d) :: rest →
    step s = .next { s with x := d, status := 0x01, seq := .run, slot := .command, agenda := rest }

/-- While SEQ = RUN, when the next turn is an issue or an operand read, step is the engine's own turn with the agenda
left as it is; and when that answers a next state the engine is idle, so the transaction is accepted on the next step.
The turn order is the model's own (log 9). (10_state.md (R30, R31); notes/assumptions/9.md) -/
def Obligations.BusyTransactionsWait : Prop :=
  ∀ (s : State) (op : HostOp) (rest : List Event), s.seq = .run → s.agenda = .host op :: rest →
    ((∃ d, op = .issue d) ∨ ∃ i, op = .readOperand i) →
    step s = engineTurn s ∧ ∀ t, step s = .next t → t.seq = .idle ∧ t.agenda = s.agenda

/-- A status read appends STATUS to the replies, in IDLE or RUN; an operand read of index i in IDLE appends x[i];
neither changes anything else but the agenda. The agenda and the replies are the model's own (log 9). (10_state.md (R19,
R30, R31)) -/
def Obligations.HostReadsAreAnswered : Prop :=
  ∀ (s : State) (rest : List Event),
    (s.agenda = .host .readStatus :: rest →
      step s = .next { s with agenda := rest, replies := s.replies ++ [.status s.status] }) ∧
    (∀ i : Fin 8, s.seq = .idle → s.agenda = .host (.readOperand i) :: rest →
      step s = .next { s with agenda := rest, replies := s.replies ++
        [.operand i ((encodeDescriptor s.x).getD i.val 0)] })

/-- In IDLE, a host write of v at an address a in range makes a valid with sample v and leaves every other location; a
host read of a valid location appends its sample to the replies; a host read elsewhere faults; a host write at an
integer that is no address is refused (how the host's accesses look is the model's choice, log 20). (10_state.md (R13,
R29); notes/assumptions/20.md) -/
def Obligations.HostSampleAccesses : Prop :=
  ∀ (s : State) (a : Nat) (rest : List Event), s.seq = .idle →
    (∀ v, a < Config.addressEnd → s.agenda = .host (.writeSample a v) :: rest → ∃ t, step s = .next t ∧
      memFind t.mem a = some v ∧ (∀ b, b ≠ a → memFind t.mem b = memFind s.mem b) ∧
      t = { s with agenda := rest, mem := t.mem }) ∧
    (∀ v, memFind s.mem a = some v → s.agenda = .host (.readSample a) :: rest →
      step s = .next { s with agenda := rest, replies := s.replies ++ [.sample a v] }) ∧
    (memFind s.mem a = none → s.agenda = .host (.readSample a) :: rest → step s = .fault .invalidLocation) ∧
    (∀ v, Config.addressEnd ≤ a → s.agenda = .host (.writeSample a v) :: rest → step s = .refused .addressOverflow)

/-- While a command runs with block width w and terms ts: a host write outside both footprints is performed; one inside
a footprint is performed too and its location noted as raced, provided the engine's turn would answer a next state. A
host read of a valid location outside the write footprint answers its sample; inside, where the engine's turn would
answer u, it answers the sample now there or the one u holds (a result whose source was raced is drawn anew at the
completion, log 14). When the command's run answers u, the engine's turn answers u with only its memory decided:
locations outside the write footprint are as in u, and a destination sample whose own source samples were not raced is
as in u, or, if its location was raced, as the host left it. Nothing is said of the others. The noting and the count of
draws are the model's own (logs 7 and 14); which sample is seen or stays is free. (93_implementation_defined.md U7, U8;
70_reset_and_hazards.md (R159, R160); 20_memory.md (R41, R50); notes/assumptions/14.md) -/
def Obligations.HostRacesAreFreeChoices : Prop :=
  ∀ (s : State) (w : Nat) (ts : List Term), s.seq = .run → runningCommand s = some (w, ts) →
    (∀ (a : Nat) (v : Byte) (rest : List Event), a < Config.addressEnd → s.agenda = .host (.writeSample a v) :: rest →
      (¬ Reads s.x w ts a → ¬ Writes s.x w a → step s = .next { s with agenda := rest, mem := memSet s.mem a v }) ∧
      (Reads s.x w ts a ∨ Writes s.x w a → ∀ u, engineTurn { s with agenda := rest } = .next u →
        step s = .next { s with agenda := rest, mem := memSet s.mem a v, raced := s.raced.insert a })) ∧
    (∀ (a : Nat) (v : Byte) (rest : List Event), memFind s.mem a = some v → s.agenda = .host (.readSample a) :: rest →
      (¬ Writes s.x w a → step s = .next { s with agenda := rest, replies := s.replies ++ [.sample a v] }) ∧
      (Writes s.x w a → ∀ u, engineTurn { s with agenda := rest } = .next u → ∃ b,
        step s = .next { s with agenda := rest, replies := s.replies ++ [.sample a b], draws := s.draws + 1 } ∧
        (b = v ∨ memFind u.mem a = some b))) ∧
    (∀ u, runTurn s = .next u → ∃ t, engineTurn s = .next t ∧ t = { u with mem := t.mem } ∧
      (∀ a : Nat, ¬ Writes s.x w a → memFind t.mem a = memFind u.mem a) ∧
      ∀ r c : Nat, r < blockHeight s.x → c < w → (∀ b ∈ s.raced, ¬ ReadsFor s.x ts r c b) →
        let a := (viewAddr (destView s.x) r c).toNat
        memFind t.mem a = memFind u.mem a ∨ (a ∈ s.raced ∧ memFind t.mem a = memFind s.mem a))

/-- When SEQ = IDLE and the next turn is a reset, step answers a state with SEQ = IDLE and STATUS = 0x00 in which the
sample memory, the ROM, the replies and the rest of the agenda are as before; the operand registers and the scratch are
unspecified, so nothing is said of them. The agenda, the replies and the slot are the model's own (logs 9 and 10).
(70_reset_and_hazards.md (R151, R153, R154); 10_state.md (R32)) -/
def Obligations.ResetOfIdleEngine : Prop :=
  ∀ (s : State) (rest : List Event), s.seq = .idle → s.agenda = .host .reset :: rest →
    ∃ t, step s = .next t ∧ t.seq = .idle ∧ t.status = 0x00 ∧ t.mem = s.mem ∧ t.rom = s.rom ∧ t.slot = .command ∧
      t.replies = s.replies ∧ t.agenda = rest

/-- When a command for which the engine's turn would answer u is reset while it runs, step answers an idle state with
STATUS = 0x00 in which every location holds its old sample or the sample u holds (which of the two is free, log 15); the
ROM, the replies and the rest of the agenda are as before. (70_reset_and_hazards.md (R152); 20_memory.md (R41);
notes/assumptions/15.md) -/
def Obligations.ResetAbandonsRunningCommand : Prop :=
  ∀ (s u : State) (rest : List Event), s.seq = .run → s.agenda = .host .reset :: rest →
    engineTurn { s with agenda := rest } = .next u →
    ∃ t, step s = .next t ∧ t.seq = .idle ∧ t.status = 0x00 ∧ t.rom = s.rom ∧ t.slot = .command ∧
      t.replies = s.replies ∧ t.agenda = rest ∧
      ∀ a : Nat, memFind t.mem a = memFind s.mem a ∨ memFind t.mem a = memFind u.mem a

/-- From every state that meets the invariant (STATUS is 0x01 exactly while SEQ = RUN and otherwise 0x00, 0x02 or 0x16;
an idle engine holds nothing decoded and a running one only what its operands decode to; every raced location lies in a
footprint of the running command, so an idle engine has none; the ROM is well formed; the memory is in canonical form),
a step that answers a next state leads to a state that meets it. The decoded form, the raced locations and the memory's
canonical form are the model's own (logs 5, 10 and 14); that the ROM is well formed its type says already (log 4).
(10_state.md (R18, R19, R20); 30_encoding.md (R53, R65); 20_memory.md (R34); notes/assumptions/4.md;
notes/assumptions/5.md; notes/assumptions/10.md; notes/assumptions/14.md) -/
def Obligations.EveryStepKeepsInvariant : Prop :=
  ∀ s t : State, EngineInv s → step s = .next t → EngineInv t

/-- State.reset meets the invariant that every step keeps (the statement EveryStepKeepsInvariant says what it holds).
The empty memory, the slot and the list of raced locations at reset are the model's choices (logs 5, 10 and 16).
(10_state.md (R18, R19, R32); 30_encoding.md (R65); notes/assumptions/5.md; notes/assumptions/10.md;
notes/assumptions/16.md) -/
def Obligations.ResetMeetsInvariant : Prop :=
  EngineInv State.reset

/-- After reset SEQ = IDLE, every field of STATUS and bit 3 read 0, and the phase ROM holds ROM_DOC word by word; the
values the spec leaves open are not mentioned. That the ROM parameter has its default value is log 4. (10_state.md
(R32); 45_phase_table.md (R101)) -/
def Obligations.ResetValues : Prop :=
  State.reset.seq = .idle ∧ statusBusy State.reset.status = false ∧ statusDone State.reset.status = false ∧
  statusErr State.reset.status = false ∧ statusEcode State.reset.status = 0 ∧ State.reset.status.getLsbD 3 = false ∧
  State.reset.rom.words.toList = [0x000, 0x104, 0x040, 0x114, 0x108, 0x184, 0x1C8, 0x185,
    0x080, 0x1C9, 0x0C0, 0x1C9, 0x128, 0x186, 0x1CA, 0x1A7]

/-- Whenever a step answers a next state, whatever the turn (an instruction, a transaction, a reset), all sixteen words
of the phase ROM are unchanged. (10_state.md (R21); 70_reset_and_hazards.md (R154); notes/assumptions/4.md) -/
def Obligations.RomNeverChanges : Prop :=
  ∀ s t : State, step s = .next t → t.rom = s.rom

/-- For every width and height at least 1: every read of a case other than (1,3), (3,2), (3,3) lies in rows -2 to h + 2
and columns -2 to w + 2 of the source view; case (1,3) reads column w + 3, case (3,2) row h + 3, and case (3,3) both.
(45_phase_table.md (R121); 20_memory.md (R45)) -/
def Obligations.PaddingWindowSuffices : Prop :=
  ∀ w h : Nat, 1 ≤ w → 1 ≤ h →
    (∀ p : BitVec 4, p ≠ 7 → p ≠ 14 → p ≠ 15 → ∀ t ∈ recipeTerms (romWord Config.romDoc p), ∀ r c : Int,
      InReadRange t.op w h r c → (-2 ≤ r + shiftOf t.dr ∧ r + shiftOf t.dr ≤ h + 2) ∧
        (-2 ≤ c + shiftOf t.dc ∧ c + shiftOf t.dc ≤ w + 2)) ∧
    (∀ p : BitVec 4, p = 7 ∨ p = 15 → ∃ t ∈ recipeTerms (romWord Config.romDoc p), ∃ r c : Int,
      InReadRange t.op w h r c ∧ c + shiftOf t.dc = w + 3) ∧
    (∀ p : BitVec 4, p = 14 ∨ p = 15 → ∃ t ∈ recipeTerms (romWord Config.romDoc p), ∃ r c : Int,
      InReadRange t.op w h r c ∧ r + shiftOf t.dr = h + 3)
end

