-- ==== Sys2Proof/Laws/Memory.lean ====
section
/-! SUPPORT. The laws of the sample memory: read after write, the canonical form, and blocks. -/

namespace Sys2Proof.Machine

/-! ## One sample -/

@[simp] theorem memFind_nil (a : Nat) : memFind [] a = none := rfl

theorem memFind_cons (k : Nat) (v : Byte) (m : List Host.Cell) (a : Nat) :
    memFind ((k, v) :: m) a = if k = a then some v else memFind m a := by
  by_cases h : k = a
  · subst h
    simp [memFind]
  · have hb : Nat.beq k a = false := by
      rw [← Bool.not_eq_true, Nat.beq_eq]
      exact h
    simp [memFind, hb, h]

/-- A read after a write to the same address gives the value written. -/
theorem memFind_memSet_same (m : List Host.Cell) (a : Nat) (v : Byte) : memFind (memSet m a v) a = some v := by
  induction m with
  | nil => simp [memSet, memFind_cons]
  | cons c rest ih =>
    obtain ⟨k, u⟩ := c
    unfold memSet
    split
    · simp [memFind_cons, *]
    · split
      · simp [memFind_cons]
      · have : k ≠ a := fun h => by simp_all
        simp [memFind_cons, this, ih]

/-- A write leaves every other address alone. -/
theorem memFind_memSet_other (m : List Host.Cell) {a b : Nat} (v : Byte) (h : b ≠ a) :
    memFind (memSet m a v) b = memFind m b := by
  induction m with
  | nil => simp [memSet, memFind_cons, Ne.symm h]
  | cons c rest ih =>
    obtain ⟨k, u⟩ := c
    unfold memSet
    split
    · next hk =>
      have : k ≠ b := fun e => h (by omega)
      simp [memFind_cons, this]
    · split
      · simp [memFind_cons, Ne.symm h]
      · simp [memFind_cons, ih]

theorem memFind_memSet (m : List Host.Cell) (a b : Nat) (v : Byte) :
    memFind (memSet m a v) b = if b = a then some v else memFind m b := by
  split
  · next h => rw [h, memFind_memSet_same]
  · next h => exact memFind_memSet_other m v h

/-- What a write lists: the written cell and cells listed before. -/
theorem mem_memSet {m : List Host.Cell} {a : Nat} {v : Byte} {c : Host.Cell} (h : c ∈ memSet m a v) :
    c = (a, v) ∨ c ∈ m := by
  induction m with
  | nil => simpa [memSet] using h
  | cons d rest ih =>
    obtain ⟨k, u⟩ := d
    unfold memSet at h
    split at h
    · next hk =>
      rcases List.mem_cons.1 h with rfl | h
      · left; simp [hk]
      · right; simp [h]
    · split at h
      · rcases List.mem_cons.1 h with rfl | h
        · left; rfl
        · right; exact h
      · rcases List.mem_cons.1 h with rfl | h
        · right; simp
        · rcases ih h with h | h
          · left; exact h
          · right; simp [h]

/-- A write inside the address range keeps the canonical form. -/
theorem memSet_wellFormed {m : List Host.Cell} (h : memWellFormed m) {a : Nat} (ha : a < Config.addressEnd) (v : Byte) :
    memWellFormed (memSet m a v) := by
  refine ⟨?_, fun c hc => ?_⟩
  · obtain ⟨hs, -⟩ := h
    induction m with
    | nil => simp [memSet]
    | cons c rest ih =>
      obtain ⟨k, u⟩ := c
      rw [List.pairwise_cons] at hs
      unfold memSet
      split
      · exact List.pairwise_cons.2 ⟨fun d hd => hs.1 d hd, hs.2⟩
      · next hne =>
        split
        · next hlt =>
          refine List.pairwise_cons.2 ⟨fun d hd => ?_, List.pairwise_cons.2 hs⟩
          rcases List.mem_cons.1 hd with rfl | hd
          · exact hlt
          · exact Nat.lt_trans hlt (hs.1 d hd)
        · next hlt =>
          refine List.pairwise_cons.2 ⟨fun d hd => ?_, ih hs.2⟩
          rcases mem_memSet hd with rfl | hd
          · show k < a
            omega
          · exact hs.1 d hd
  · rcases mem_memSet hc with rfl | hc
    · exact ha
    · exact h.2 c hc

/-- Reset's memory is in canonical form. -/
theorem reset_mem_wellFormed : memWellFormed State.reset.mem := by
  constructor <;> simp [State.reset]

/-! ## Making locations valid -/

theorem memEnsure_cases (m : List Host.Cell) (a : Nat) : memEnsure m a = m ∨ memEnsure m a = memSet m a 0 := by
  induction m with
  | nil => right; rfl
  | cons c rest ih =>
    obtain ⟨k, u⟩ := c
    unfold memEnsure memSet
    split
    · next h => left; rfl
    · split
      · right; rfl
      · rcases ih with h | h
        · left; rw [h]
        · right; rw [h]

theorem memEnsure_wellFormed {m : List Host.Cell} (h : memWellFormed m) {a : Nat} (ha : a < Config.addressEnd) :
    memWellFormed (memEnsure m a) := by
  rcases memEnsure_cases m a with e | e
  · rw [e]; exact h
  · rw [e]; exact memSet_wellFormed h ha 0

/-- Making locations valid keeps the canonical form. -/
theorem ensureValid_wellFormed {m : List Host.Cell} (h : memWellFormed m) {n : Nat} (hn : n ≤ Config.addressEnd) :
    memWellFormed (ensureValid m n) := by
  have key : ∀ l : List Nat, (∀ a ∈ l, a < Config.addressEnd) →
      memWellFormed (l.foldr (fun a m => memEnsure m a) m) := by
    intro l
    induction l with
    | nil => intro _; exact h
    | cons a l ih =>
      intro hl
      exact memEnsure_wellFormed (ih fun b hb => hl b (List.mem_cons_of_mem a hb)) (hl a List.mem_cons_self)
  exact key _ fun a ha => Nat.lt_of_lt_of_le (List.mem_range.1 ha) hn

/-! ## Blocks -/

@[simp] theorem mem_blockGrid (h w y x : Nat) : (y, x) ∈ blockGrid h w ↔ y < h ∧ x < w := by
  simp [blockGrid]

/-- Writing cells one after another: an address none of them has reads as before. -/
theorem memFind_foldl_other {α : Type} (l : List α) (addr : α → Nat) (f : α → Byte) (m : List Host.Cell) {b : Nat}
    (hb : ∀ p ∈ l, addr p ≠ b) : memFind (l.foldl (fun m p => memSet m (addr p) (f p)) m) b = memFind m b := by
  induction l generalizing m with
  | nil => rfl
  | cons q l ih =>
    rw [List.foldl_cons, ih _ fun p hp => hb p (List.mem_cons_of_mem q hp)]
    exact memFind_memSet_other m _ (Ne.symm (hb q List.mem_cons_self))

/-- Writing cells one after another: an address reads as the value written, if all writes to it agree. -/
theorem memFind_foldl_same {α : Type} (l : List α) (addr : α → Nat) (f : α → Byte) (m : List Host.Cell) {p : α}
    (hp : p ∈ l) (agree : ∀ q ∈ l, addr q = addr p → f q = f p) :
    memFind (l.foldl (fun m p => memSet m (addr p) (f p)) m) (addr p) = some (f p) := by
  induction l generalizing m p with
  | nil => cases hp
  | cons q l ih =>
    rw [List.foldl_cons]
    by_cases later : ∃ q' ∈ l, addr q' = addr p
    · obtain ⟨q', hq', e⟩ := later
      have same := agree q' (List.mem_cons_of_mem q hq') e
      rw [← e, ← same]
      exact ih _ hq' fun r hr er => by
        rw [same]
        exact agree r (List.mem_cons_of_mem q hr) (er.trans e)
    · have none_later : ∀ r ∈ l, addr r ≠ addr p := fun r hr e => later ⟨r, hr, e⟩
      have hpq : p = q := by
        rcases List.mem_cons.1 hp with h | h
        · exact h
        · exact absurd rfl (none_later p h)
      rw [memFind_foldl_other l addr f _ none_later, ← hpq, memFind_memSet_same]

/-- Writing cells inside the address range keeps the canonical form. -/
theorem foldl_memSet_wellFormed {α : Type} (l : List α) (addr : α → Nat) (f : α → Byte) {m : List Host.Cell}
    (h : memWellFormed m) (range : ∀ p ∈ l, addr p < Config.addressEnd) :
    memWellFormed (l.foldl (fun m p => memSet m (addr p) (f p)) m) := by
  induction l generalizing m with
  | nil => exact h
  | cons q l ih =>
    rw [List.foldl_cons]
    exact ih (memSet_wellFormed h (range q List.mem_cons_self) _) fun p hp => range p (List.mem_cons_of_mem q hp)

/-- Rows at least `w` apart do not meet: two positions of a block have two addresses. -/
theorem viewAddr_injective {V : View} {w : Nat} (hw : (w : Int) ≤ V.stride) {r c r' c' : Nat} (hc : c < w) (hc' : c' < w)
    (e : viewAddr V r c = viewAddr V r' c') : r = r' ∧ c = c' := by
  unfold viewAddr at e
  have hr : r = r' := by
    rcases Nat.lt_trichotomy r r' with h | h | h
    · have : (r : Int) + 1 ≤ r' := by omega
      nlinarith
    · exact h
    · have : (r' : Int) + 1 ≤ r := by omega
      nlinarith
  subst hr
  exact ⟨rfl, by omega⟩

/-- A block written is the block read, where its rows do not overlap and its addresses are not negative. -/
theorem memFind_writeBlock {m : List Host.Cell} {D : View} {w h : Nat} (f : Nat → Nat → Byte) (hw : (w : Int) ≤ D.stride)
    (nonneg : ∀ r c : Nat, r < h → c < w → 0 ≤ viewAddr D r c) {r c : Nat} (hr : r < h) (hc : c < w) :
    memFind (writeBlock m D w h f) (viewAddr D r c).toNat = some (f r c) := by
  refine memFind_foldl_same (blockGrid h w) (fun p => (viewAddr D p.1 p.2).toNat) (fun p => f p.1 p.2) m
    (p := (r, c)) ((mem_blockGrid _ _ _ _).2 ⟨hr, hc⟩) ?_
  rintro ⟨r', c'⟩ hq e
  obtain ⟨hr', hc'⟩ := (mem_blockGrid _ _ _ _).1 hq
  have h1 := nonneg r c hr hc
  have h2 := nonneg r' c' hr' hc'
  have e' : viewAddr D r' c' = viewAddr D r c := by simp only at e; omega
  obtain ⟨rfl, rfl⟩ := viewAddr_injective hw hc' hc e'
  rfl

/-- A block written leaves every address outside it alone. -/
theorem memFind_writeBlock_other {m : List Host.Cell} {D : View} {w h : Nat} (f : Nat → Nat → Byte) {a : Nat}
    (ha : ∀ r c : Nat, r < h → c < w → (viewAddr D r c).toNat ≠ a) :
    memFind (writeBlock m D w h f) a = memFind m a := by
  refine memFind_foldl_other (blockGrid h w) (fun p => (viewAddr D p.1 p.2).toNat) (fun p => f p.1 p.2) m ?_
  rintro ⟨r, c⟩ hp
  obtain ⟨hr, hc⟩ := (mem_blockGrid _ _ _ _).1 hp
  exact ha r c hr hc

/-- Writing a block inside the address range keeps the canonical form. -/
theorem writeBlock_wellFormed {m : List Host.Cell} {D : View} {w h : Nat} (f : Nat → Nat → Byte) (hm : memWellFormed m)
    (range : ∀ r c : Nat, r < h → c < w → (viewAddr D r c).toNat < Config.addressEnd) :
    memWellFormed (writeBlock m D w h f) := by
  refine foldl_memSet_wellFormed (blockGrid h w) (fun p => (viewAddr D p.1 p.2).toNat) (fun p => f p.1 p.2) hm ?_
  rintro ⟨r, c⟩ hp
  obtain ⟨hr, hc⟩ := (mem_blockGrid _ _ _ _).1 hp
  exact range r c hr hc

/-- A memory that lists the addresses `0 .. n - 1` has exactly these. -/
theorem memFind_range (n : Nat) (f : Nat → Byte) (a : Nat) :
    memFind ((List.range n).map fun k => (k, f k)) a = if a < n then some (f a) else none := by
  induction n with
  | zero => simp
  | succ n ih =>
    have app : ∀ l l' : List Host.Cell, memFind (l ++ l') a = (memFind l a).or (memFind l' a) := by
      intro l l'
      unfold memFind
      rw [List.find?_append]
      cases List.find? (fun c => Nat.beq c.1 a) l <;> simp
    rw [List.range_succ, List.map_append, app, ih]
    by_cases h1 : a < n
    · simp [h1, Nat.lt_succ_of_lt h1]
    · by_cases h2 : a = n
      · subst h2; simp [memFind_cons]
      · have : ¬ a < n + 1 := by omega
        simp [h1, this, memFind_cons, Ne.symm h2]

end Sys2Proof.Machine
end

