-- ==== Sys2Proof/Laws/Contract.lean ====
section
/-! SUPPORT. The contract check says exactly the contract: it answers `next` with the state unchanged when the command is
within contract, and never answers another state. -/

namespace Sys2Proof.Machine

open Sys2Proof.Safety

theorem addressInRange_iff (a : Int) : addressInRange a = true ↔ 0 ≤ a ∧ a < Config.addressEnd := by
  simp [addressInRange]

theorem validLocation_iff (m : List Host.Cell) (a : Int) : validLocation m a = true ↔ Valid m a := by
  simp [validLocation, Valid, addressInRange_iff]

theorem inReadRange_iff (op : UnitOp) (w h : Nat) (r c : Int) : InReadRange op w h r c ↔
    (∃ y : Nat, y < readCount (readsRowsAround op) h ∧ r = readStart (readsRowsAround op) + y) ∧
      ∃ x : Nat, x < readCount (readsColsAround op) w ∧ c = readStart (readsColsAround op) + x := by
  have plain : ∀ (n : Nat) (r : Int), (0 ≤ r ∧ r < n) ↔ ∃ y : Nat, y < n ∧ r = 0 + y := fun n r =>
    ⟨fun h => ⟨r.toNat, by omega, by omega⟩, fun ⟨y, h1, h2⟩ => by omega⟩
  have around : ∀ (n : Nat) (r : Int), (-2 ≤ r ∧ r ≤ n + 2) ↔ ∃ y : Nat, y < n + 5 ∧ r = -2 + y := fun n r =>
    ⟨fun h => ⟨(r + 2).toNat, by omega, by omega⟩, fun ⟨y, h1, h2⟩ => by omega⟩
  cases op <;>
    simp only [InReadRange, readCount, readStart, readsRowsAround, readsColsAround, if_true, if_false,
      Bool.false_eq_true, plain, around]

/-- The address list of a term is its read range. -/
theorem mem_termReads (S : View) (w h : Nat) (t : Term) (a : Int) : a ∈ termReads S w h t ↔
    ∃ r c : Int, InReadRange t.op w h r c ∧ a = viewAddr (termView S t) r c := by
  unfold termReads
  simp only [List.mem_map, Prod.exists, mem_blockGrid, inReadRange_iff]
  constructor
  · rintro ⟨y, x, ⟨hy, hx⟩, rfl⟩
    exact ⟨_, _, ⟨⟨y, hy, rfl⟩, ⟨x, hx, rfl⟩⟩, rfl⟩
  · rintro ⟨_, _, ⟨⟨y, hy, rfl⟩, ⟨x, hx, rfl⟩⟩, rfl⟩
    exact ⟨y, x, ⟨hy, hx⟩, rfl⟩

/-- The address list of the reads is the read footprint. -/
theorem mem_readFootprint (x : Operands) (w : Nat) (ts : List Term) (a : Int) :
    a ∈ readFootprint (sourceView x) w (blockHeight x) ts ↔ Reads x w ts a := by
  simp only [readFootprint, List.mem_flatMap, mem_termReads, Reads]

/-- The address list of the writes is the write footprint. -/
theorem mem_writeFootprint (x : Operands) (w : Nat) (a : Int) :
    a ∈ writeFootprint (destView x) w (blockHeight x) ↔ Writes x w a := by
  unfold writeFootprint Writes
  simp only [List.mem_map, Prod.exists, mem_blockGrid]
  constructor
  · rintro ⟨r, c, h, rfl⟩
    exact ⟨r, c, h, rfl⟩
  · rintro ⟨r, c, h, rfl⟩
    exact ⟨r, c, h, rfl⟩

theorem heightLegal_iff (w h : Nat) : heightLegal w h = true ↔ (1 ≤ h ∧ h ≤ 16) ∧ (w = 4 → h % 4 = 0) := by
  by_cases hw : w = 4 <;> simp [heightLegal, Config.maxHeight, hw]

theorem stridesLegal_iff (w : Nat) (x : Operands) :
    stridesLegal w x = true ↔ w ≤ x.srcStride.toNat ∧ w ≤ x.dstStride.toNat := by
  simp [stridesLegal]

theorem operandsLegal_iff (w : Nat) (x : Operands) :
    OperandsLegal w x ↔ heightLegal w (blockHeight x) = true ∧ stridesLegal w x = true := by
  rw [heightLegal_iff, stridesLegal_iff]
  exact ⟨fun h => ⟨⟨⟨h.1, h.2⟩, h.3⟩, h.4, h.5⟩, fun h => ⟨h.1.1.1, h.1.1.2, h.1.2, h.2.1, h.2.2⟩⟩

/-- The footprints do not meet: no address read is written. -/
theorem footprintsMeet_eq_false (reads writes : List Int) :
    footprintsMeet reads writes = false ↔ ∀ a ∈ reads, ¬ a ∈ writes := by
  simp [footprintsMeet]

/-- Everything the contract check can do: it answers `next` only with the state it was given, and exactly within contract. -/
theorem checkContract_eq_next (w : Nat) (ts : List Term) (s t : State) :
    checkContract w ts s = .next t ↔ t = s ∧ InContract w ts s := by
  have reads := mem_readFootprint s.x w ts
  have writes := mem_writeFootprint s.x w
  have contract : InContract w ts s ↔
      heightLegal w (blockHeight s.x) = true ∧ stridesLegal w s.x = true ∧
      (commandBases s.x ts).all addressInRange = true ∧
      (readFootprint (sourceView s.x) w (blockHeight s.x) ts).all addressInRange = true ∧
      (writeFootprint (destView s.x) w (blockHeight s.x)).all addressInRange = true ∧
      (readFootprint (sourceView s.x) w (blockHeight s.x) ts).all (validLocation s.mem) = true ∧
      (writeFootprint (destView s.x) w (blockHeight s.x)).all (validLocation s.mem) = true ∧
      footprintsMeet (readFootprint (sourceView s.x) w (blockHeight s.x) ts)
        (writeFootprint (destView s.x) w (blockHeight s.x)) = false := by
    simp only [List.all_eq_true, footprintsMeet_eq_false, reads, writes, addressInRange_iff,
      validLocation_iff]
    constructor
    · intro h
      obtain ⟨h1, h2⟩ := (operandsLegal_iff w s.x).1 h.operands
      exact ⟨h1, h2, h.bases, fun a ha => (h.reads a ha).1, fun a ha => (h.writes a ha).1, h.reads, h.writes,
        h.disjoint⟩
    · rintro ⟨h1, h2, h3, -, -, h6, h7, h8⟩
      exact ⟨(operandsLegal_iff w s.x).2 ⟨h1, h2⟩, h3, h6, h7, h8⟩
  rw [contract]
  unfold checkContract
  simp only
  generalize heightLegal w (blockHeight s.x) = b1
  generalize stridesLegal w s.x = b2
  generalize (commandBases s.x ts).all addressInRange = b3
  generalize (readFootprint (sourceView s.x) w (blockHeight s.x) ts).all addressInRange = b4
  generalize (writeFootprint (destView s.x) w (blockHeight s.x)).all addressInRange = b5
  generalize (readFootprint (sourceView s.x) w (blockHeight s.x) ts).all (validLocation s.mem) = b6
  generalize (writeFootprint (destView s.x) w (blockHeight s.x)).all (validLocation s.mem) = b7
  generalize footprintsMeet (readFootprint (sourceView s.x) w (blockHeight s.x) ts)
    (writeFootprint (destView s.x) w (blockHeight s.x)) = b8
  cases b1
  · simp
  cases b2
  · simp
  cases b3
  · simp
  cases b4
  · simp
  cases b5
  · simp
  cases b6
  · simp
  cases b7
  · simp
  cases b8 <;> simp [eq_comm]

/-- Within contract the check answers `next`. -/
theorem checkContract_of_inContract {w : Nat} {ts : List Term} {s : State} (h : InContract w ts s) :
    checkContract w ts s = .next s := (checkContract_eq_next w ts s s).2 ⟨rfl, h⟩

end Sys2Proof.Machine
end

