-- ==== Sys2Proof/Laws/PerInstr.lean ====
section
/-! SUPPORT. The per-instruction family EncodesInForm: every instruction's code is in its row's format (30_encoding.md R54
to R60), with the fixed bits of that format. -/

namespace Sys2Proof.Laws.EncodesInForm

/-- The code of `i` is in the format of its row: a D8 has eight words; a K6 is below 48 (`wsel` is not 11); in an S4 `sel`
names the unit operation, bit 1 is `dr` and bit 0 is `dc`; an R9 has its `avg` bit set. -/
def Statement (i : Instr) : Prop :=
  match encode i with
  | .d8 ws => ws.length = 8
  | .k6 k => k.toNat < 48
  | .s4 t =>
    (t.extractLsb' 2 2 = 0b00 ∧ i = .copy (t.getLsbD 1) (t.getLsbD 0)) ∨
    (t.extractLsb' 2 2 = 0b01 ∧ i = .filtH (t.getLsbD 1) (t.getLsbD 0)) ∨
    (t.extractLsb' 2 2 = 0b10 ∧ i = .filtV (t.getLsbD 1) (t.getLsbD 0)) ∨
    (t.extractLsb' 2 2 = 0b11 ∧ i = .filtC (t.getLsbD 1) (t.getLsbD 0))
  | .r9 r => r.getLsbD 8 = true

theorem predictLuma (d : Operands) : Statement (.predictLuma d) := rfl
theorem mcV0H0W4 : Statement .mcV0H0W4 := (by decide : (0b000000 : BitVec 6).toNat < 48)
theorem mcV0H1W4 : Statement .mcV0H1W4 := (by decide : (0b000001 : BitVec 6).toNat < 48)
theorem mcV0H2W4 : Statement .mcV0H2W4 := (by decide : (0b000010 : BitVec 6).toNat < 48)
theorem mcV0H3W4 : Statement .mcV0H3W4 := (by decide : (0b000011 : BitVec 6).toNat < 48)
theorem mcV1H0W4 : Statement .mcV1H0W4 := (by decide : (0b000100 : BitVec 6).toNat < 48)
theorem mcV1H1W4 : Statement .mcV1H1W4 := (by decide : (0b000101 : BitVec 6).toNat < 48)
theorem mcV1H2W4 : Statement .mcV1H2W4 := (by decide : (0b000110 : BitVec 6).toNat < 48)
theorem mcV1H3W4 : Statement .mcV1H3W4 := (by decide : (0b000111 : BitVec 6).toNat < 48)
theorem mcV2H0W4 : Statement .mcV2H0W4 := (by decide : (0b001000 : BitVec 6).toNat < 48)
theorem mcV2H1W4 : Statement .mcV2H1W4 := (by decide : (0b001001 : BitVec 6).toNat < 48)
theorem mcV2H2W4 : Statement .mcV2H2W4 := (by decide : (0b001010 : BitVec 6).toNat < 48)
theorem mcV2H3W4 : Statement .mcV2H3W4 := (by decide : (0b001011 : BitVec 6).toNat < 48)
theorem mcV3H0W4 : Statement .mcV3H0W4 := (by decide : (0b001100 : BitVec 6).toNat < 48)
theorem mcV3H1W4 : Statement .mcV3H1W4 := (by decide : (0b001101 : BitVec 6).toNat < 48)
theorem mcV3H2W4 : Statement .mcV3H2W4 := (by decide : (0b001110 : BitVec 6).toNat < 48)
theorem mcV3H3W4 : Statement .mcV3H3W4 := (by decide : (0b001111 : BitVec 6).toNat < 48)
theorem mcV0H0W8 : Statement .mcV0H0W8 := (by decide : (0b010000 : BitVec 6).toNat < 48)
theorem mcV0H1W8 : Statement .mcV0H1W8 := (by decide : (0b010001 : BitVec 6).toNat < 48)
theorem mcV0H2W8 : Statement .mcV0H2W8 := (by decide : (0b010010 : BitVec 6).toNat < 48)
theorem mcV0H3W8 : Statement .mcV0H3W8 := (by decide : (0b010011 : BitVec 6).toNat < 48)
theorem mcV1H0W8 : Statement .mcV1H0W8 := (by decide : (0b010100 : BitVec 6).toNat < 48)
theorem mcV1H1W8 : Statement .mcV1H1W8 := (by decide : (0b010101 : BitVec 6).toNat < 48)
theorem mcV1H2W8 : Statement .mcV1H2W8 := (by decide : (0b010110 : BitVec 6).toNat < 48)
theorem mcV1H3W8 : Statement .mcV1H3W8 := (by decide : (0b010111 : BitVec 6).toNat < 48)
theorem mcV2H0W8 : Statement .mcV2H0W8 := (by decide : (0b011000 : BitVec 6).toNat < 48)
theorem mcV2H1W8 : Statement .mcV2H1W8 := (by decide : (0b011001 : BitVec 6).toNat < 48)
theorem mcV2H2W8 : Statement .mcV2H2W8 := (by decide : (0b011010 : BitVec 6).toNat < 48)
theorem mcV2H3W8 : Statement .mcV2H3W8 := (by decide : (0b011011 : BitVec 6).toNat < 48)
theorem mcV3H0W8 : Statement .mcV3H0W8 := (by decide : (0b011100 : BitVec 6).toNat < 48)
theorem mcV3H1W8 : Statement .mcV3H1W8 := (by decide : (0b011101 : BitVec 6).toNat < 48)
theorem mcV3H2W8 : Statement .mcV3H2W8 := (by decide : (0b011110 : BitVec 6).toNat < 48)
theorem mcV3H3W8 : Statement .mcV3H3W8 := (by decide : (0b011111 : BitVec 6).toNat < 48)
theorem mcV0H0W16 : Statement .mcV0H0W16 := (by decide : (0b100000 : BitVec 6).toNat < 48)
theorem mcV0H1W16 : Statement .mcV0H1W16 := (by decide : (0b100001 : BitVec 6).toNat < 48)
theorem mcV0H2W16 : Statement .mcV0H2W16 := (by decide : (0b100010 : BitVec 6).toNat < 48)
theorem mcV0H3W16 : Statement .mcV0H3W16 := (by decide : (0b100011 : BitVec 6).toNat < 48)
theorem mcV1H0W16 : Statement .mcV1H0W16 := (by decide : (0b100100 : BitVec 6).toNat < 48)
theorem mcV1H1W16 : Statement .mcV1H1W16 := (by decide : (0b100101 : BitVec 6).toNat < 48)
theorem mcV1H2W16 : Statement .mcV1H2W16 := (by decide : (0b100110 : BitVec 6).toNat < 48)
theorem mcV1H3W16 : Statement .mcV1H3W16 := (by decide : (0b100111 : BitVec 6).toNat < 48)
theorem mcV2H0W16 : Statement .mcV2H0W16 := (by decide : (0b101000 : BitVec 6).toNat < 48)
theorem mcV2H1W16 : Statement .mcV2H1W16 := (by decide : (0b101001 : BitVec 6).toNat < 48)
theorem mcV2H2W16 : Statement .mcV2H2W16 := (by decide : (0b101010 : BitVec 6).toNat < 48)
theorem mcV2H3W16 : Statement .mcV2H3W16 := (by decide : (0b101011 : BitVec 6).toNat < 48)
theorem mcV3H0W16 : Statement .mcV3H0W16 := (by decide : (0b101100 : BitVec 6).toNat < 48)
theorem mcV3H1W16 : Statement .mcV3H1W16 := (by decide : (0b101101 : BitVec 6).toNat < 48)
theorem mcV3H2W16 : Statement .mcV3H2W16 := (by decide : (0b101110 : BitVec 6).toNat < 48)
theorem mcV3H3W16 : Statement .mcV3H3W16 := (by decide : (0b101111 : BitVec 6).toNat < 48)
theorem copy (dr dc : Bool) : Statement (.copy dr dc) := by
  cases dr <;> cases dc <;> exact .inl ⟨rfl, rfl⟩
theorem filtH (dr dc : Bool) : Statement (.filtH dr dc) := by
  cases dr <;> cases dc <;> exact .inr (.inl ⟨rfl, rfl⟩)
theorem filtV (dr dc : Bool) : Statement (.filtV dr dc) := by
  cases dr <;> cases dc <;> exact .inr (.inr (.inl ⟨rfl, rfl⟩))
theorem filtC (dr dc : Bool) : Statement (.filtC dr dc) := by
  cases dr <;> cases dc <;> exact .inr (.inr (.inr ⟨rfl, rfl⟩))
theorem avg (a b : Term) : Statement (.avg a b) := by
  obtain ⟨oa, ra, ca⟩ := a
  obtain ⟨ob, rb, cb⟩ := b
  cases oa <;> cases ra <;> cases ca <;> cases ob <;> cases rb <;> cases cb <;> rfl

end Sys2Proof.Laws.EncodesInForm
end

