-- ==== Sys2Proof/Laws/State.lean ====
section
/-! SUPPORT. The small lemmas of State: one per field per named update, each true by unfolding. -/

namespace Sys2Proof.Machine

/-! ## issueCommand -/

@[simp] theorem issueCommand_x (d : Operands) (s : State) : (issueCommand d s).x = d := rfl
@[simp] theorem issueCommand_seq (d : Operands) (s : State) : (issueCommand d s).seq = .run := rfl
@[simp] theorem issueCommand_status (d : Operands) (s : State) : (issueCommand d s).status = statusIssued := rfl
@[simp] theorem issueCommand_rom (d : Operands) (s : State) : (issueCommand d s).rom = s.rom := rfl
@[simp] theorem issueCommand_tmpA (d : Operands) (s : State) : (issueCommand d s).tmpA = s.tmpA := rfl
@[simp] theorem issueCommand_tmpB (d : Operands) (s : State) : (issueCommand d s).tmpB = s.tmpB := rfl
@[simp] theorem issueCommand_mid (d : Operands) (s : State) : (issueCommand d s).mid = s.mid := rfl
@[simp] theorem issueCommand_acc (d : Operands) (s : State) : (issueCommand d s).acc = s.acc := rfl
@[simp] theorem issueCommand_mem (d : Operands) (s : State) : (issueCommand d s).mem = s.mem := rfl
@[simp] theorem issueCommand_slot (d : Operands) (s : State) : (issueCommand d s).slot = .command := rfl
@[simp] theorem issueCommand_agenda (d : Operands) (s : State) : (issueCommand d s).agenda = s.agenda := rfl
@[simp] theorem issueCommand_replies (d : Operands) (s : State) : (issueCommand d s).replies = s.replies := rfl
@[simp] theorem issueCommand_raced (d : Operands) (s : State) : (issueCommand d s).raced = s.raced := rfl
@[simp] theorem issueCommand_draws (d : Operands) (s : State) : (issueCommand d s).draws = s.draws := rfl

/-! ## raiseUnsupportedWidth -/

@[simp] theorem raiseUnsupportedWidth_x (s : State) : (raiseUnsupportedWidth s).x = s.x := rfl
@[simp] theorem raiseUnsupportedWidth_seq (s : State) : (raiseUnsupportedWidth s).seq = .idle := rfl
@[simp] theorem raiseUnsupportedWidth_status (s : State) : (raiseUnsupportedWidth s).status = statusFailed := rfl
@[simp] theorem raiseUnsupportedWidth_rom (s : State) : (raiseUnsupportedWidth s).rom = s.rom := rfl
@[simp] theorem raiseUnsupportedWidth_tmpA (s : State) : (raiseUnsupportedWidth s).tmpA = s.tmpA := rfl
@[simp] theorem raiseUnsupportedWidth_tmpB (s : State) : (raiseUnsupportedWidth s).tmpB = s.tmpB := rfl
@[simp] theorem raiseUnsupportedWidth_mid (s : State) : (raiseUnsupportedWidth s).mid = s.mid := rfl
@[simp] theorem raiseUnsupportedWidth_acc (s : State) : (raiseUnsupportedWidth s).acc = s.acc := rfl
@[simp] theorem raiseUnsupportedWidth_mem (s : State) : (raiseUnsupportedWidth s).mem = s.mem := rfl
@[simp] theorem raiseUnsupportedWidth_slot (s : State) : (raiseUnsupportedWidth s).slot = .command := rfl
@[simp] theorem raiseUnsupportedWidth_agenda (s : State) : (raiseUnsupportedWidth s).agenda = s.agenda := rfl
@[simp] theorem raiseUnsupportedWidth_replies (s : State) : (raiseUnsupportedWidth s).replies = s.replies := rfl
@[simp] theorem raiseUnsupportedWidth_raced (s : State) : (raiseUnsupportedWidth s).raced = [] := rfl
@[simp] theorem raiseUnsupportedWidth_draws (s : State) : (raiseUnsupportedWidth s).draws = s.draws := rfl

/-! ## forgetScratch -/

@[simp] theorem forgetScratch_x (s : State) : (forgetScratch s).x = s.x := rfl
@[simp] theorem forgetScratch_seq (s : State) : (forgetScratch s).seq = s.seq := rfl
@[simp] theorem forgetScratch_status (s : State) : (forgetScratch s).status = s.status := rfl
@[simp] theorem forgetScratch_rom (s : State) : (forgetScratch s).rom = s.rom := rfl
@[simp] theorem forgetScratch_tmpA (s : State) : (forgetScratch s).tmpA = Config.scratchTile s.draws 0 := rfl
@[simp] theorem forgetScratch_tmpB (s : State) : (forgetScratch s).tmpB = Config.scratchTile s.draws 1 := rfl
@[simp] theorem forgetScratch_mid (s : State) : (forgetScratch s).mid = Config.scratchMid s.draws := rfl
@[simp] theorem forgetScratch_acc (s : State) : (forgetScratch s).acc = Config.accWord s.draws := rfl
@[simp] theorem forgetScratch_mem (s : State) : (forgetScratch s).mem = s.mem := rfl
@[simp] theorem forgetScratch_slot (s : State) : (forgetScratch s).slot = s.slot := rfl
@[simp] theorem forgetScratch_agenda (s : State) : (forgetScratch s).agenda = s.agenda := rfl
@[simp] theorem forgetScratch_replies (s : State) : (forgetScratch s).replies = s.replies := rfl
@[simp] theorem forgetScratch_raced (s : State) : (forgetScratch s).raced = s.raced := rfl
@[simp] theorem forgetScratch_draws (s : State) : (forgetScratch s).draws = s.draws + 1 := rfl

/-! ## completeCommand -/

@[simp] theorem completeCommand_x (s : State) : (completeCommand s).x = s.x := rfl
@[simp] theorem completeCommand_seq (s : State) : (completeCommand s).seq = .idle := rfl
@[simp] theorem completeCommand_status (s : State) : (completeCommand s).status = statusCompleted s.status := rfl
@[simp] theorem completeCommand_rom (s : State) : (completeCommand s).rom = s.rom := rfl
@[simp] theorem completeCommand_tmpA (s : State) : (completeCommand s).tmpA = Config.scratchTile s.draws 0 := rfl
@[simp] theorem completeCommand_tmpB (s : State) : (completeCommand s).tmpB = Config.scratchTile s.draws 1 := rfl
@[simp] theorem completeCommand_mid (s : State) : (completeCommand s).mid = Config.scratchMid s.draws := rfl
@[simp] theorem completeCommand_acc (s : State) : (completeCommand s).acc = Config.accWord s.draws := rfl
@[simp] theorem completeCommand_mem (s : State) : (completeCommand s).mem = s.mem := rfl
@[simp] theorem completeCommand_slot (s : State) : (completeCommand s).slot = .command := rfl
@[simp] theorem completeCommand_agenda (s : State) : (completeCommand s).agenda = s.agenda := rfl
@[simp] theorem completeCommand_replies (s : State) : (completeCommand s).replies = s.replies := rfl
@[simp] theorem completeCommand_raced (s : State) : (completeCommand s).raced = [] := rfl
@[simp] theorem completeCommand_draws (s : State) : (completeCommand s).draws = s.draws + 1 := rfl

/-! ## resetEngine -/

@[simp] theorem resetEngine_x (s : State) : (resetEngine s).x = freeOperands s.draws := rfl
@[simp] theorem resetEngine_seq (s : State) : (resetEngine s).seq = .idle := rfl
@[simp] theorem resetEngine_status (s : State) : (resetEngine s).status = 0 := rfl
@[simp] theorem resetEngine_rom (s : State) : (resetEngine s).rom = s.rom := rfl
@[simp] theorem resetEngine_tmpA (s : State) : (resetEngine s).tmpA = Config.scratchTile s.draws 0 := rfl
@[simp] theorem resetEngine_tmpB (s : State) : (resetEngine s).tmpB = Config.scratchTile s.draws 1 := rfl
@[simp] theorem resetEngine_mid (s : State) : (resetEngine s).mid = Config.scratchMid s.draws := rfl
@[simp] theorem resetEngine_acc (s : State) : (resetEngine s).acc = Config.accWord s.draws := rfl
@[simp] theorem resetEngine_mem (s : State) : (resetEngine s).mem = s.mem := rfl
@[simp] theorem resetEngine_slot (s : State) : (resetEngine s).slot = .command := rfl
@[simp] theorem resetEngine_agenda (s : State) : (resetEngine s).agenda = s.agenda := rfl
@[simp] theorem resetEngine_replies (s : State) : (resetEngine s).replies = s.replies := rfl
@[simp] theorem resetEngine_raced (s : State) : (resetEngine s).raced = [] := rfl
@[simp] theorem resetEngine_draws (s : State) : (resetEngine s).draws = s.draws + 1 := rfl

/-! ## answer -/

@[simp] theorem answer_x (s : State) (r : Reply) : (answer s r).x = s.x := rfl
@[simp] theorem answer_seq (s : State) (r : Reply) : (answer s r).seq = s.seq := rfl
@[simp] theorem answer_status (s : State) (r : Reply) : (answer s r).status = s.status := rfl
@[simp] theorem answer_rom (s : State) (r : Reply) : (answer s r).rom = s.rom := rfl
@[simp] theorem answer_tmpA (s : State) (r : Reply) : (answer s r).tmpA = s.tmpA := rfl
@[simp] theorem answer_tmpB (s : State) (r : Reply) : (answer s r).tmpB = s.tmpB := rfl
@[simp] theorem answer_mid (s : State) (r : Reply) : (answer s r).mid = s.mid := rfl
@[simp] theorem answer_acc (s : State) (r : Reply) : (answer s r).acc = s.acc := rfl
@[simp] theorem answer_mem (s : State) (r : Reply) : (answer s r).mem = s.mem := rfl
@[simp] theorem answer_slot (s : State) (r : Reply) : (answer s r).slot = s.slot := rfl
@[simp] theorem answer_agenda (s : State) (r : Reply) : (answer s r).agenda = s.agenda := rfl
@[simp] theorem answer_replies (s : State) (r : Reply) : (answer s r).replies = s.replies ++ [r] := rfl
@[simp] theorem answer_raced (s : State) (r : Reply) : (answer s r).raced = s.raced := rfl
@[simp] theorem answer_draws (s : State) (r : Reply) : (answer s r).draws = s.draws := rfl

/-! ## stageOne -/

@[simp] theorem stageOne_x (V : View) (w h : Nat) (s : State) : (stageOne V w h s).x = s.x := rfl
@[simp] theorem stageOne_seq (V : View) (w h : Nat) (s : State) : (stageOne V w h s).seq = s.seq := rfl
@[simp] theorem stageOne_status (V : View) (w h : Nat) (s : State) : (stageOne V w h s).status = s.status := rfl
@[simp] theorem stageOne_rom (V : View) (w h : Nat) (s : State) : (stageOne V w h s).rom = s.rom := rfl
@[simp] theorem stageOne_tmpA (V : View) (w h : Nat) (s : State) : (stageOne V w h s).tmpA = s.tmpA := rfl
@[simp] theorem stageOne_tmpB (V : View) (w h : Nat) (s : State) : (stageOne V w h s).tmpB = s.tmpB := rfl
@[simp] theorem stageOne_mid (V : View) (w h : Nat) (s : State) : (stageOne V w h s).mid = midWrite s.mid w (h + 5) (fun k x => rowSum s.mem V ((k : Int) - 2) x) := rfl
@[simp] theorem stageOne_acc (V : View) (w h : Nat) (s : State) : (stageOne V w h s).acc = Config.accWord s.draws := rfl
@[simp] theorem stageOne_mem (V : View) (w h : Nat) (s : State) : (stageOne V w h s).mem = s.mem := rfl
@[simp] theorem stageOne_slot (V : View) (w h : Nat) (s : State) : (stageOne V w h s).slot = s.slot := rfl
@[simp] theorem stageOne_agenda (V : View) (w h : Nat) (s : State) : (stageOne V w h s).agenda = s.agenda := rfl
@[simp] theorem stageOne_replies (V : View) (w h : Nat) (s : State) : (stageOne V w h s).replies = s.replies := rfl
@[simp] theorem stageOne_raced (V : View) (w h : Nat) (s : State) : (stageOne V w h s).raced = s.raced := rfl
@[simp] theorem stageOne_draws (V : View) (w h : Nat) (s : State) : (stageOne V w h s).draws = s.draws + 1 := rfl

/-! ## averageToDest -/

@[simp] theorem averageToDest_x (w : Nat) (s : State) : (averageToDest w s).x = s.x := rfl
@[simp] theorem averageToDest_seq (w : Nat) (s : State) : (averageToDest w s).seq = s.seq := rfl
@[simp] theorem averageToDest_status (w : Nat) (s : State) : (averageToDest w s).status = s.status := rfl
@[simp] theorem averageToDest_rom (w : Nat) (s : State) : (averageToDest w s).rom = s.rom := rfl
@[simp] theorem averageToDest_tmpA (w : Nat) (s : State) : (averageToDest w s).tmpA = s.tmpA := rfl
@[simp] theorem averageToDest_tmpB (w : Nat) (s : State) : (averageToDest w s).tmpB = s.tmpB := rfl
@[simp] theorem averageToDest_mid (w : Nat) (s : State) : (averageToDest w s).mid = s.mid := rfl
@[simp] theorem averageToDest_acc (w : Nat) (s : State) : (averageToDest w s).acc = s.acc := rfl
@[simp] theorem averageToDest_mem (w : Nat) (s : State) : (averageToDest w s).mem = writeBlock s.mem (destView s.x) w (blockHeight s.x)
      (fun y x => avgSample (tileAt s.tmpA y x) (tileAt s.tmpB y x)) := rfl
@[simp] theorem averageToDest_slot (w : Nat) (s : State) : (averageToDest w s).slot = s.slot := rfl
@[simp] theorem averageToDest_agenda (w : Nat) (s : State) : (averageToDest w s).agenda = s.agenda := rfl
@[simp] theorem averageToDest_replies (w : Nat) (s : State) : (averageToDest w s).replies = s.replies := rfl
@[simp] theorem averageToDest_raced (w : Nat) (s : State) : (averageToDest w s).raced = s.raced := rfl
@[simp] theorem averageToDest_draws (w : Nat) (s : State) : (averageToDest w s).draws = s.draws := rfl

/-! ## startEngine -/

@[simp] theorem startEngine_x (s : State) : (startEngine s).x = s.x := rfl
@[simp] theorem startEngine_seq (s : State) : (startEngine s).seq = .run := rfl
@[simp] theorem startEngine_status (s : State) : (startEngine s).status = statusIssued := rfl
@[simp] theorem startEngine_rom (s : State) : (startEngine s).rom = s.rom := rfl
@[simp] theorem startEngine_tmpA (s : State) : (startEngine s).tmpA = s.tmpA := rfl
@[simp] theorem startEngine_tmpB (s : State) : (startEngine s).tmpB = s.tmpB := rfl
@[simp] theorem startEngine_mid (s : State) : (startEngine s).mid = s.mid := rfl
@[simp] theorem startEngine_acc (s : State) : (startEngine s).acc = s.acc := rfl
@[simp] theorem startEngine_mem (s : State) : (startEngine s).mem = s.mem := rfl
@[simp] theorem startEngine_slot (s : State) : (startEngine s).slot = s.slot := rfl
@[simp] theorem startEngine_agenda (s : State) : (startEngine s).agenda = .run :: s.agenda := rfl
@[simp] theorem startEngine_replies (s : State) : (startEngine s).replies = s.replies := rfl
@[simp] theorem startEngine_raced (s : State) : (startEngine s).raced = [] := rfl
@[simp] theorem startEngine_draws (s : State) : (startEngine s).draws = s.draws := rfl

/-! ## termState: only FILT_C changes anything -/

@[simp] theorem termState_x (t : Term) (w : Nat) (s : State) : (termState t w s).x = s.x := by
  unfold termState prepareTerm
  split <;> rfl
@[simp] theorem termState_seq (t : Term) (w : Nat) (s : State) : (termState t w s).seq = s.seq := by
  unfold termState prepareTerm
  split <;> rfl
@[simp] theorem termState_status (t : Term) (w : Nat) (s : State) : (termState t w s).status = s.status := by
  unfold termState prepareTerm
  split <;> rfl
@[simp] theorem termState_rom (t : Term) (w : Nat) (s : State) : (termState t w s).rom = s.rom := by
  unfold termState prepareTerm
  split <;> rfl
@[simp] theorem termState_tmpA (t : Term) (w : Nat) (s : State) : (termState t w s).tmpA = s.tmpA := by
  unfold termState prepareTerm
  split <;> rfl
@[simp] theorem termState_tmpB (t : Term) (w : Nat) (s : State) : (termState t w s).tmpB = s.tmpB := by
  unfold termState prepareTerm
  split <;> rfl
@[simp] theorem termState_mem (t : Term) (w : Nat) (s : State) : (termState t w s).mem = s.mem := by
  unfold termState prepareTerm
  split <;> rfl
@[simp] theorem termState_slot (t : Term) (w : Nat) (s : State) : (termState t w s).slot = s.slot := by
  unfold termState prepareTerm
  split <;> rfl
@[simp] theorem termState_agenda (t : Term) (w : Nat) (s : State) : (termState t w s).agenda = s.agenda := by
  unfold termState prepareTerm
  split <;> rfl
@[simp] theorem termState_replies (t : Term) (w : Nat) (s : State) : (termState t w s).replies = s.replies := by
  unfold termState prepareTerm
  split <;> rfl
@[simp] theorem termState_raced (t : Term) (w : Nat) (s : State) : (termState t w s).raced = s.raced := by
  unfold termState prepareTerm
  split <;> rfl

theorem termState_of_not_filtC {t : Term} (h : t.op ≠ .filtC) (w : Nat) (s : State) : termState t w s = s := by
  unfold termState prepareTerm
  split <;> first | rfl | contradiction

/-! ## termToDest -/

@[simp] theorem termToDest_x (t : Term) (w : Nat) (s : State) : (termToDest t w s).x = s.x := termState_x t w s
@[simp] theorem termToDest_seq (t : Term) (w : Nat) (s : State) : (termToDest t w s).seq = s.seq := termState_seq t w s
@[simp] theorem termToDest_status (t : Term) (w : Nat) (s : State) : (termToDest t w s).status = s.status := termState_status t w s
@[simp] theorem termToDest_rom (t : Term) (w : Nat) (s : State) : (termToDest t w s).rom = s.rom := termState_rom t w s
@[simp] theorem termToDest_tmpA (t : Term) (w : Nat) (s : State) : (termToDest t w s).tmpA = s.tmpA := termState_tmpA t w s
@[simp] theorem termToDest_tmpB (t : Term) (w : Nat) (s : State) : (termToDest t w s).tmpB = s.tmpB := termState_tmpB t w s
@[simp] theorem termToDest_mid (t : Term) (w : Nat) (s : State) : (termToDest t w s).mid = (termState t w s).mid := rfl
@[simp] theorem termToDest_acc (t : Term) (w : Nat) (s : State) : (termToDest t w s).acc = (termState t w s).acc := rfl
@[simp] theorem termToDest_mem (t : Term) (w : Nat) (s : State) :
    (termToDest t w s).mem = writeBlock s.mem (destView s.x) w (blockHeight s.x) (termBlock t w s) := rfl
@[simp] theorem termToDest_slot (t : Term) (w : Nat) (s : State) : (termToDest t w s).slot = s.slot := termState_slot t w s
@[simp] theorem termToDest_agenda (t : Term) (w : Nat) (s : State) : (termToDest t w s).agenda = s.agenda := termState_agenda t w s
@[simp] theorem termToDest_replies (t : Term) (w : Nat) (s : State) : (termToDest t w s).replies = s.replies := termState_replies t w s
@[simp] theorem termToDest_raced (t : Term) (w : Nat) (s : State) : (termToDest t w s).raced = s.raced := termState_raced t w s
@[simp] theorem termToDest_draws (t : Term) (w : Nat) (s : State) : (termToDest t w s).draws = (termState t w s).draws := rfl

/-! ## termToA -/

@[simp] theorem termToA_x (t : Term) (w : Nat) (s : State) : (termToA t w s).x = s.x := termState_x t w s
@[simp] theorem termToA_seq (t : Term) (w : Nat) (s : State) : (termToA t w s).seq = s.seq := termState_seq t w s
@[simp] theorem termToA_status (t : Term) (w : Nat) (s : State) : (termToA t w s).status = s.status := termState_status t w s
@[simp] theorem termToA_rom (t : Term) (w : Nat) (s : State) : (termToA t w s).rom = s.rom := termState_rom t w s
@[simp] theorem termToA_tmpA (t : Term) (w : Nat) (s : State) :
    (termToA t w s).tmpA = tileWrite s.tmpA w (blockHeight s.x) (termBlock t w s) := rfl
@[simp] theorem termToA_tmpB (t : Term) (w : Nat) (s : State) : (termToA t w s).tmpB = s.tmpB := termState_tmpB t w s
@[simp] theorem termToA_mid (t : Term) (w : Nat) (s : State) : (termToA t w s).mid = (termState t w s).mid := rfl
@[simp] theorem termToA_acc (t : Term) (w : Nat) (s : State) : (termToA t w s).acc = (termState t w s).acc := rfl
@[simp] theorem termToA_mem (t : Term) (w : Nat) (s : State) : (termToA t w s).mem = s.mem := termState_mem t w s
@[simp] theorem termToA_slot (t : Term) (w : Nat) (s : State) : (termToA t w s).slot = s.slot := termState_slot t w s
@[simp] theorem termToA_agenda (t : Term) (w : Nat) (s : State) : (termToA t w s).agenda = s.agenda := termState_agenda t w s
@[simp] theorem termToA_replies (t : Term) (w : Nat) (s : State) : (termToA t w s).replies = s.replies := termState_replies t w s
@[simp] theorem termToA_raced (t : Term) (w : Nat) (s : State) : (termToA t w s).raced = s.raced := termState_raced t w s
@[simp] theorem termToA_draws (t : Term) (w : Nat) (s : State) : (termToA t w s).draws = (termState t w s).draws := rfl

/-! ## termToB -/

@[simp] theorem termToB_x (t : Term) (w : Nat) (s : State) : (termToB t w s).x = s.x := termState_x t w s
@[simp] theorem termToB_seq (t : Term) (w : Nat) (s : State) : (termToB t w s).seq = s.seq := termState_seq t w s
@[simp] theorem termToB_status (t : Term) (w : Nat) (s : State) : (termToB t w s).status = s.status := termState_status t w s
@[simp] theorem termToB_rom (t : Term) (w : Nat) (s : State) : (termToB t w s).rom = s.rom := termState_rom t w s
@[simp] theorem termToB_tmpA (t : Term) (w : Nat) (s : State) : (termToB t w s).tmpA = s.tmpA := termState_tmpA t w s
@[simp] theorem termToB_tmpB (t : Term) (w : Nat) (s : State) :
    (termToB t w s).tmpB = tileWrite s.tmpB w (blockHeight s.x) (termBlock t w s) := rfl
@[simp] theorem termToB_mid (t : Term) (w : Nat) (s : State) : (termToB t w s).mid = (termState t w s).mid := rfl
@[simp] theorem termToB_acc (t : Term) (w : Nat) (s : State) : (termToB t w s).acc = (termState t w s).acc := rfl
@[simp] theorem termToB_mem (t : Term) (w : Nat) (s : State) : (termToB t w s).mem = s.mem := termState_mem t w s
@[simp] theorem termToB_slot (t : Term) (w : Nat) (s : State) : (termToB t w s).slot = s.slot := termState_slot t w s
@[simp] theorem termToB_agenda (t : Term) (w : Nat) (s : State) : (termToB t w s).agenda = s.agenda := termState_agenda t w s
@[simp] theorem termToB_replies (t : Term) (w : Nat) (s : State) : (termToB t w s).replies = s.replies := termState_replies t w s
@[simp] theorem termToB_raced (t : Term) (w : Nat) (s : State) : (termToB t w s).raced = s.raced := termState_raced t w s
@[simp] theorem termToB_draws (t : Term) (w : Nat) (s : State) : (termToB t w s).draws = (termState t w s).draws := rfl

/-! ## settleRaces: only the memory is decided -/

/-- What settling can do: it decides the memory and nothing else. -/
theorem settleRaces_eq (s t : State) : settleRaces s t = { t with mem := (settleRaces s t).mem } := by
  unfold settleRaces
  split <;> rfl

@[simp] theorem settleRaces_x (s t : State) : (settleRaces s t).x = t.x := by rw [settleRaces_eq]
@[simp] theorem settleRaces_seq (s t : State) : (settleRaces s t).seq = t.seq := by rw [settleRaces_eq]
@[simp] theorem settleRaces_status (s t : State) : (settleRaces s t).status = t.status := by rw [settleRaces_eq]
@[simp] theorem settleRaces_rom (s t : State) : (settleRaces s t).rom = t.rom := by rw [settleRaces_eq]
@[simp] theorem settleRaces_tmpA (s t : State) : (settleRaces s t).tmpA = t.tmpA := by rw [settleRaces_eq]
@[simp] theorem settleRaces_tmpB (s t : State) : (settleRaces s t).tmpB = t.tmpB := by rw [settleRaces_eq]
@[simp] theorem settleRaces_mid (s t : State) : (settleRaces s t).mid = t.mid := by rw [settleRaces_eq]
@[simp] theorem settleRaces_acc (s t : State) : (settleRaces s t).acc = t.acc := by rw [settleRaces_eq]
@[simp] theorem settleRaces_slot (s t : State) : (settleRaces s t).slot = t.slot := by rw [settleRaces_eq]
@[simp] theorem settleRaces_agenda (s t : State) : (settleRaces s t).agenda = t.agenda := by rw [settleRaces_eq]
@[simp] theorem settleRaces_replies (s t : State) : (settleRaces s t).replies = t.replies := by rw [settleRaces_eq]
@[simp] theorem settleRaces_raced (s t : State) : (settleRaces s t).raced = t.raced := by rw [settleRaces_eq]
@[simp] theorem settleRaces_draws (s t : State) : (settleRaces s t).draws = t.draws := by rw [settleRaces_eq]

/-- Without a race nothing is left to decide. -/
theorem settleRaces_of_nil {s : State} (h : s.raced = []) (t : State) : settleRaces s t = t := by
  unfold settleRaces
  rw [h]

/-! ## Outcomes in sequence -/

@[simp] theorem andThen_next (s : State) (f : State → Result) : andThen (.next s) f = f s := rfl
@[simp] theorem andThen_fault (e : Fault) (f : State → Result) : andThen (.fault e) f = .fault e := rfl
@[simp] theorem andThen_refused (e : Refusal) (f : State → Result) : andThen (.refused e) f = .refused e := rfl

/-- A sequence answers a next state exactly when both of its parts do. -/
theorem andThen_eq_next {r : Result} {f : State → Result} {t : State} :
    andThen r f = .next t ↔ ∃ u, r = .next u ∧ f u = .next t := by
  cases r <;> simp [andThen]

end Sys2Proof.Machine
end

