-- ==== Sys2Proof/Laws/Units.lean ====
section
/-! SUPPORT. What the unit operations and the execution of a recipe do: scratch buffers, the widths of the intermediate
values, and one lemma per shared operation. -/

namespace Sys2Proof.Machine

open Sys2Proof.Safety

/-! ## Scratch buffers -/

/-- A 16 x 16 buffer after a block was written: the block inside, the old entries outside. -/
theorem tileAt_tileWrite (T : Tile) (w h : Nat) (f : Nat → Nat → Byte) {y x : Nat} (hy : y < 16) (hx : x < 16) :
    tileAt (tileWrite T w h f) y x = if x < w ∧ y < h then f y x else tileAt T y x := by
  have h1 : (16 * y + x) % 256 = 16 * y + x := Nat.mod_eq_of_lt (by omega)
  have h2 : (16 * y + x) % 16 = x := by omega
  have h3 : (16 * y + x) / 16 = y := by omega
  unfold tileAt tileWrite
  rw [Vector.getElem_ofFn]
  simp only [h1, h2, h3, Fin.getElem_fin]

/-- `MID` after rows were written: their values in 16 bits, the old entries outside. -/
theorem midAt_midWrite (M : MidBuffer) (w n : Nat) (f : Nat → Nat → Int) {k x : Nat} (hk : k < 21) (hx : x < 16) :
    midAt (midWrite M w n f) k x = if x < w ∧ k < n then (BitVec.ofInt 16 (f k x)).toInt else midAt M k x := by
  have h1 : (16 * k + x) % 336 = 16 * k + x := Nat.mod_eq_of_lt (by omega)
  have h2 : (16 * k + x) % 16 = x := by omega
  have h3 : (16 * k + x) / 16 = k := by omega
  unfold midAt midWrite
  rw [Vector.getElem_ofFn]
  simp only [h1, h2, h3, Fin.getElem_fin]
  split <;> rfl

/-- `tap6` is the product with `KERNEL` (00_scope.md R10; 10_state.md R22). -/
theorem tap6_eq_kernel (p0 p1 p2 p3 p4 p5 : Int) :
    tap6 p0 p1 p2 p3 p4 p5 = (List.zipWith (· * ·) Config.kernel [p0, p1, p2, p3, p4, p5]).sum := by
  simp only [Config.kernel, List.zipWith_cons_cons, List.zipWith_nil_left, List.sum_cons, List.sum_nil, tap6]
  omega

/-! ## Ranges of the intermediate values (41_filter_h.md R79; 43_filter_c.md R92, R93) -/

theorem viewSample_range (m : List Host.Cell) (V : View) (r c : Int) : 0 ≤ viewSample m V r c ∧ viewSample m V r c ≤ 255 := by
  unfold viewSample
  have := (sampleAt m (viewAddr V r c)).isLt
  omega

theorem rowSum_range (m : List Host.Cell) (V : View) (r c : Int) : -2550 ≤ rowSum m V r c ∧ rowSum m V r c ≤ 10710 := by
  unfold rowSum tap6
  have h0 := viewSample_range m V r (c - 2)
  have h1 := viewSample_range m V r (c - 1)
  have h2 := viewSample_range m V r c
  have h3 := viewSample_range m V r (c + 1)
  have h4 := viewSample_range m V r (c + 2)
  have h5 := viewSample_range m V r (c + 3)
  omega

theorem tap6_range {p0 p1 p2 p3 p4 p5 : Int} (h0 : -2550 ≤ p0 ∧ p0 ≤ 10710) (h1 : -2550 ≤ p1 ∧ p1 ≤ 10710)
    (h2 : -2550 ≤ p2 ∧ p2 ≤ 10710) (h3 : -2550 ≤ p3 ∧ p3 ≤ 10710) (h4 : -2550 ≤ p4 ∧ p4 ≤ 10710)
    (h5 : -2550 ≤ p5 ∧ p5 ≤ 10710) : -214200 ≤ tap6 p0 p1 p2 p3 p4 p5 ∧ tap6 p0 p1 p2 p3 p4 p5 ≤ 475320 := by
  unfold tap6
  omega

/-- A value inside the signed range of a width is stored exactly. -/
theorem toInt_ofInt_16 {v : Int} (h : -32768 ≤ v ∧ v < 32768) : (BitVec.ofInt 16 v).toInt = v := by
  rw [BitVec.toInt_ofInt, Int.bmod_eq_of_le] <;> omega

theorem toInt_ofInt_20 {v : Int} (h : -524288 ≤ v ∧ v < 524288) : (BitVec.ofInt 20 v).toInt = v := by
  rw [BitVec.toInt_ofInt, Int.bmod_eq_of_le] <;> omega

/-- FILT_C's stage one is exact in 16 bits. -/
theorem midAt_stageOne (V : View) {w h : Nat} (s : State) {k x : Nat} (hk : k < h + 5) (hx : x < w) (hw : w ≤ 16)
    (hh : h ≤ 16) : midAt (stageOne V w h s).mid k x = rowSum s.mem V ((k : Int) - 2) x := by
  rw [stageOne_mid, midAt_midWrite _ _ _ _ (by omega) (by omega), if_pos ⟨hx, hk⟩]
  have := rowSum_range s.mem V ((k : Int) - 2) x
  exact toInt_ofInt_16 (by omega)

/-- FILT_C through its 16-bit buffer and its 20-bit accumulator gives the exact double sum's result. -/
theorem filtCSample_stageOne (V : View) {w h : Nat} (s : State) {y x : Nat} (hy : y < h) (hx : x < w) (hw : w ≤ 16)
    (hh : h ≤ 16) : filtCSample (stageOne V w h s).mid y x = centreSample s.mem V y x := by
  have m := fun (k : Nat) (hk : k < h + 5) => midAt_stageOne V s hk hx hw hh
  have e : ((stageTwoSum (stageOne V w h s).mid y x)).toInt = doubleSum s.mem V y x := by
    unfold stageTwoSum doubleSum
    rw [m y (by omega), m (y + 1) (by omega), m (y + 2) (by omega), m (y + 3) (by omega), m (y + 4) (by omega),
      m (y + 5) (by omega)]
    have c0 : ((y : Int)) - 2 = y - 2 := rfl
    have c1 : ((y + 1 : Nat) : Int) - 2 = y - 1 := by omega
    have c2 : ((y + 2 : Nat) : Int) - 2 = y := by omega
    have c3 : ((y + 3 : Nat) : Int) - 2 = y + 1 := by omega
    have c4 : ((y + 4 : Nat) : Int) - 2 = y + 2 := by omega
    have c5 : ((y + 5 : Nat) : Int) - 2 = y + 3 := by omega
    rw [c1, c2, c3, c4, c5]
    have := tap6_range (rowSum_range s.mem V (y - 2) x) (rowSum_range s.mem V (y - 1) x) (rowSum_range s.mem V y x)
      (rowSum_range s.mem V (y + 1) x) (rowSum_range s.mem V (y + 2) x) (rowSum_range s.mem V (y + 3) x)
    exact toInt_ofInt_20 (by omega)
  rw [filtCSample, e, centreSample]

/-- A term's block, computed through the state's scratch, is the result the unit rules give. -/
theorem termBlock_eq_termResult (t : Term) {w : Nat} (s : State) {y x : Nat} (hy : y < blockHeight s.x) (hx : x < w)
    (hw : w ≤ 16) (hh : blockHeight s.x ≤ 16) :
    termBlock t w s y x = termResult t s.mem (sourceView s.x) y x := by
  obtain ⟨op, dr, dc⟩ := t
  cases op
  · rfl
  · rfl
  · rfl
  · exact filtCSample_stageOne _ s hy hx hw hh

/-- The averager is exact: nine bits hold the sum, and the result needs no clip (44_avg.md R99). -/
theorem avgSample_eq_averageOf (a b : Byte) : avgSample a b = averageOf a b := by
  unfold avgSample averageOf shiftRight
  have : ((a.toNat : Int) + b.toNat + 1) / (2 ^ 1 : Int) = (((a.toNat + b.toNat + 1) / 2 : Nat) : Int) := by omega
  rw [this, BitVec.ofInt_natCast]

theorem averageOf_toNat (a b : Byte) : (averageOf a b).toNat = (a.toNat + b.toNat + 1) / 2 := by
  unfold averageOf
  rw [BitVec.toNat_ofNat]
  have := a.isLt
  have := b.isLt
  omega

/-! ## What a block write leaves -/

/-- A block written to the destination within contract. -/
theorem writeBlock_dest {w : Nat} {ts : List Term} {s : State} (h : InContract w ts s) (f : Nat → Nat → Byte) :
    DestHolds (writeBlock s.mem (destView s.x) w (blockHeight s.x) f) s.x w f ∧
      KeptOutside s.mem (writeBlock s.mem (destView s.x) w (blockHeight s.x) f) s.x w := by
  have inside : ∀ r c : Nat, r < blockHeight s.x → c < w → 0 ≤ viewAddr (destView s.x) r c := fun r c hr hc =>
    (h.writes _ ⟨r, c, ⟨hr, hc⟩, rfl⟩).1.1
  refine ⟨fun r c hr hc => memFind_writeBlock f (Int.ofNat_le.2 h.operands.dest_stride) inside hr hc, fun a ha => ?_⟩
  refine memFind_writeBlock_other f fun r c hr hc e => ha ⟨r, c, ⟨hr, hc⟩, ?_⟩
  have := inside r c hr hc
  omega

/-! ## Recipes -/

/-- Everything a one-term recipe can do when it answers a next state. -/
theorem runSingle_eq_next {t : Term} {w : Nat} {s s' : State} :
    runSingle t w s = .next s' ↔ InContract w [t] s ∧ s' = termToDest t w s := by
  unfold runSingle
  rw [andThen_eq_next]
  constructor
  · rintro ⟨u, hu, e⟩
    obtain ⟨rfl, hc⟩ := (checkContract_eq_next _ _ _ _).1 hu
    exact ⟨hc, by simpa [eq_comm] using e⟩
  · rintro ⟨hc, rfl⟩
    exact ⟨s, checkContract_of_inContract hc, rfl⟩

/-- Everything an averaging recipe can do when it answers a next state. -/
theorem runAverage_eq_next {a b : Term} {w : Nat} {s s' : State} :
    runAverage a b w s = .next s' ↔ InContract w [a, b] s ∧ s' = averageToDest w (termToB b w (termToA a w s)) := by
  unfold runAverage
  rw [andThen_eq_next]
  constructor
  · rintro ⟨u, hu, e⟩
    obtain ⟨rfl, hc⟩ := (checkContract_eq_next _ _ _ _).1 hu
    exact ⟨hc, by simpa [eq_comm] using e⟩
  · rintro ⟨hc, rfl⟩
    exact ⟨s, checkContract_of_inContract hc, rfl⟩

/-- DestHolds depends on the block's samples only inside the block. -/
theorem destHolds_congr {m : List Host.Cell} {x : Operands} {w : Nat} {f g : Nat → Nat → Byte} (h : DestHolds m x w f)
    (e : ∀ r c, r < blockHeight x → c < w → f r c = g r c) : DestHolds m x w g := fun r c hr hc => by
  rw [← e r c hr hc]; exact h r c hr hc

end Sys2Proof.Machine
end

