-- ==== Sys2Proof/Laws/Recipes.lean ====
section
/-! SUPPORT. What a recipe does: within contract it answers a next state with the results of its terms, and whenever it
answers a next state it keeps the engine's registers, the valid locations and the memory's canonical form. -/

namespace Sys2Proof.Machine

open Sys2Proof.Safety

/-! ## Frames -/

theorem engineFrame_refl (s : State) : EngineFrame s s := ⟨rfl, rfl, rfl, rfl, rfl, rfl, rfl, rfl⟩

theorem engineFrame_trans {s t u : State} (h : EngineFrame s t) (k : EngineFrame t u) : EngineFrame s u :=
  ⟨k.1.trans h.1, k.2.trans h.2, k.3.trans h.3, k.4.trans h.4, k.5.trans h.5, k.6.trans h.6, k.7.trans h.7,
    k.8.trans h.8⟩

theorem termToDest_frame (t : Term) (w : Nat) (s : State) : EngineFrame s (termToDest t w s) :=
  ⟨by simp, by simp, by simp, by simp, by simp, by simp, by simp, by simp⟩

theorem termToA_frame (t : Term) (w : Nat) (s : State) : EngineFrame s (termToA t w s) :=
  ⟨by simp, by simp, by simp, by simp, by simp, by simp, by simp, by simp⟩

theorem termToB_frame (t : Term) (w : Nat) (s : State) : EngineFrame s (termToB t w s) :=
  ⟨by simp, by simp, by simp, by simp, by simp, by simp, by simp, by simp⟩

theorem averageToDest_frame (w : Nat) (s : State) : EngineFrame s (averageToDest w s) :=
  ⟨rfl, rfl, rfl, rfl, rfl, rfl, rfl, rfl⟩

/-- A term other than FILT_C needs no scratch. -/
theorem termState_eq_self {t : Term} (h : t.op ≠ .filtC) (w : Nat) (s : State) : termState t w s = s := by
  obtain ⟨op, dr, dc⟩ := t
  cases op
  · rfl
  · rfl
  · rfl
  · exact absurd rfl h

/-! ## The terms' blocks in the state they are evaluated in -/

theorem termBlock_of_frame (t : Term) {w : Nat} {s s' : State} (hx : s'.x = s.x) (hm : s'.mem = s.mem) {y x : Nat}
    (hy : y < blockHeight s.x) (hc : x < w) (hw : w ≤ 16) (hh : blockHeight s.x ≤ 16) :
    termBlock t w s' y x = termResult t s.mem (sourceView s.x) y x := by
  rw [termBlock_eq_termResult t s' (by rw [hx]; exact hy) hc hw (by rw [hx]; exact hh), hx, hm]

/-! ## Results -/

/-- Within contract a one-term recipe writes its term's results to the destination and touches nothing else but its
scratch. -/
theorem runSingle_produces {t : Term} {w : Nat} {s : State} (h : InContract w [t] s) (hw : w ≤ 16) :
    Produces (runSingle t w s) s w [t] (termResult t s.mem (sourceView s.x)) := by
  obtain ⟨dest, kept⟩ := writeBlock_dest h (termBlock t w s)
  refine ⟨termToDest t w s, runSingle_eq_next.2 ⟨h, rfl⟩, ?_, kept, termToDest_frame t w s, ⟨fun _ => ?_, fun hc => ?_⟩⟩
  · exact destHolds_congr dest fun r c hr hc => termBlock_eq_termResult t s hr hc hw h.operands.height_max
  · exact ⟨by simp, by simp⟩
  · have e := termState_eq_self (hc t List.mem_cons_self) w s
    exact ⟨by simp [e], by simp [e], by simp [e]⟩

/-- What the two buffers hold once both terms of an average are evaluated. -/
theorem tmpA_of_average (a b : Term) (w : Nat) (s : State) {y x : Nat} (hy : y < 16) (hx : x < 16) (hw : w ≤ 16)
    (hh : blockHeight s.x ≤ 16) : tileAt (termToB b w (termToA a w s)).tmpA y x =
      if y < blockHeight s.x ∧ x < w then termResult a s.mem (sourceView s.x) y x else tileAt s.tmpA y x := by
  rw [termToB_tmpA, termToA_tmpA, tileAt_tileWrite _ _ _ _ hy hx]
  by_cases hb : y < blockHeight s.x ∧ x < w
  · rw [if_pos hb, if_pos hb.symm, termBlock_eq_termResult a s hb.1 hb.2 hw hh]
  · rw [if_neg hb, if_neg fun k => hb k.symm]

theorem tmpB_of_average (a b : Term) (w : Nat) (s : State) {y x : Nat} (hy : y < 16) (hx : x < 16) (hw : w ≤ 16)
    (hh : blockHeight s.x ≤ 16) : tileAt (termToB b w (termToA a w s)).tmpB y x =
      if y < blockHeight s.x ∧ x < w then termResult b s.mem (sourceView s.x) y x else tileAt s.tmpB y x := by
  rw [termToB_tmpB, tileAt_tileWrite _ _ _ _ hy hx, termToA_x, termToA_tmpB]
  by_cases hb : y < blockHeight s.x ∧ x < w
  · rw [if_pos hb, if_pos hb.symm]
    exact termBlock_of_frame b (termToA_x a w s) (termToA_mem a w s) hb.1 hb.2 hw hh
  · rw [if_neg hb, if_neg fun k => hb k.symm]

/-- Within contract a recipe of two terms writes the averages of their results to the destination and touches nothing else
but its scratch. -/
theorem runAverage_produces {a b : Term} {w : Nat} {s : State} (h : InContract w [a, b] s) (hw : w ≤ 16) :
    Produces (runAverage a b w s) s w [a, b] fun y x =>
      averageOf (termResult a s.mem (sourceView s.x) y x) (termResult b s.mem (sourceView s.x) y x) := by
  have hh := h.operands.height_max
  have hx : (termToB b w (termToA a w s)).x = s.x := by simp
  have hm : (termToB b w (termToA a w s)).mem = s.mem := by simp
  obtain ⟨dest, kept⟩ := writeBlock_dest h fun y x =>
    avgSample (tileAt (termToB b w (termToA a w s)).tmpA y x) (tileAt (termToB b w (termToA a w s)).tmpB y x)
  refine ⟨_, runAverage_eq_next.2 ⟨h, rfl⟩, ?_, ?_, ?_, ⟨fun hl => absurd hl (by simp), fun hc => ?_⟩⟩
  · rw [averageToDest_mem, hx, hm]
    refine destHolds_congr dest fun r c hr hc => ?_
    rw [tmpA_of_average a b w s (by omega) (by omega) hw hh, tmpB_of_average a b w s (by omega) (by omega) hw hh,
      if_pos ⟨hr, hc⟩, if_pos ⟨hr, hc⟩, avgSample_eq_averageOf]
  · rw [averageToDest_mem, hx, hm]
    exact kept
  · exact engineFrame_trans (engineFrame_trans (termToA_frame a w s) (termToB_frame b w _)) (averageToDest_frame w _)
  · have ea := termState_eq_self (hc a (by simp)) w s
    have eb := termState_eq_self (hc b (by simp)) w (termToA a w s)
    exact ⟨by simp [ea, eb], by simp [ea, eb], by simp [ea, eb]⟩

/-- No word of a phase ROM is the reserved encoding (30_encoding.md R65). -/
theorem romWord_wellFormed (rom : PhaseRom) (p : BitVec 4) : (decodeRecipe (romWord rom.words p)).wellFormed = true :=
  List.all_eq_true.1 rom.wellFormed _ (by unfold romWord; simp)

/-- Within contract a well-formed recipe word writes its result to the destination. -/
theorem runRecipe_produces {r : BitVec 9} {w : Nat} {s : State} (hr : (decodeRecipe r).wellFormed = true)
    (h : InContract w (recipeTerms r) s) (hw : w ≤ 16) :
    Produces (runRecipe r w s) s w (recipeTerms r) (recipeResult r s.mem (sourceView s.x)) := by
  unfold runRecipe recipeTerms at *
  rw [if_neg (by simp [hr])]
  cases ha : (decodeRecipe r).avg
  · have e : recipeResult r s.mem (sourceView s.x) = termResult (decodeRecipe r).a s.mem (sourceView s.x) := by
      funext y x
      simp [recipeResult, ha]
    simp only [ha, Bool.false_eq_true, if_false] at h ⊢
    rw [e]
    exact runSingle_produces h hw
  · have e : recipeResult r s.mem (sourceView s.x) = fun y x =>
        averageOf (termResult (decodeRecipe r).a s.mem (sourceView s.x) y x)
          (termResult (decodeRecipe r).b s.mem (sourceView s.x) y x) := by
      funext y x
      simp [recipeResult, ha]
    simp only [ha, if_true] at h ⊢
    rw [e]
    exact runAverage_produces h hw

/-! ## Whenever a recipe answers a next state -/

/-- Everything the execution of a recipe word can do when it answers a next state. -/
theorem runRecipe_eq_next {r : BitVec 9} {w : Nat} {s t : State} (h : runRecipe r w s = .next t) :
    (decodeRecipe r).wellFormed = true ∧ InContract w (recipeTerms r) s ∧
      t = if (decodeRecipe r).avg then
          averageToDest w (termToB (decodeRecipe r).b w (termToA (decodeRecipe r).a w s))
        else termToDest (decodeRecipe r).a w s := by
  unfold runRecipe at h
  unfold recipeTerms
  cases hw : (decodeRecipe r).wellFormed
  · simp [hw] at h
  · cases ha : (decodeRecipe r).avg
    · simp only [hw, ha, Bool.true_eq_false, Bool.false_eq_true, if_false] at h ⊢
      exact ⟨trivial, runSingle_eq_next.1 h⟩
    · simp only [hw, ha, Bool.true_eq_false, if_true, if_false] at h ⊢
      exact ⟨trivial, runAverage_eq_next.1 h⟩

/-- A recipe that answers a next state keeps the engine's registers. -/
theorem runRecipe_frame {r : BitVec 9} {w : Nat} {s t : State} (h : runRecipe r w s = .next t) : EngineFrame s t := by
  obtain ⟨-, -, rfl⟩ := runRecipe_eq_next h
  split
  · exact engineFrame_trans (engineFrame_trans (termToA_frame _ w s) (termToB_frame _ w _)) (averageToDest_frame w _)
  · exact termToDest_frame _ w s

/-- A recipe that answers a next state has written one block to the destination. -/
theorem runRecipe_mem {r : BitVec 9} {w : Nat} {s t : State} (h : runRecipe r w s = .next t) :
    ∃ f, t.mem = writeBlock s.mem (destView s.x) w (blockHeight s.x) f := by
  obtain ⟨-, -, rfl⟩ := runRecipe_eq_next h
  split
  · have e := averageToDest_mem w (termToB (decodeRecipe r).b w (termToA (decodeRecipe r).a w s))
    simp only [termToB_x, termToA_x, termToB_mem, termToA_mem] at e
    exact ⟨_, e⟩
  · exact ⟨_, termToDest_mem _ w s⟩

/-- Writing valid locations keeps the set of valid locations. -/
theorem writeBlock_isSome {w : Nat} {ts : List Term} {s : State} (h : InContract w ts s) (f : Nat → Nat → Byte) (a : Nat) :
    (memFind (writeBlock s.mem (destView s.x) w (blockHeight s.x) f) a).isSome = (memFind s.mem a).isSome := by
  obtain ⟨dest, kept⟩ := writeBlock_dest h f
  by_cases ha : Writes s.x w a
  · have valid := (h.writes a ha).2
    obtain ⟨r, c, ⟨hr, hc⟩, e⟩ := ha
    have d := dest r c hr hc
    rw [← e, Int.toNat_natCast] at d
    rw [Int.toNat_natCast] at valid
    rw [d, valid]
    rfl
  · rw [kept a ha]

/-- Writing the destination within contract keeps the canonical form. -/
theorem writeBlock_dest_wellFormed {w : Nat} {ts : List Term} {s : State} (h : InContract w ts s) (f : Nat → Nat → Byte)
    (hm : memWellFormed s.mem) : memWellFormed (writeBlock s.mem (destView s.x) w (blockHeight s.x) f) := by
  refine writeBlock_wellFormed f hm fun r c hr hc => ?_
  have v := (h.writes _ ⟨r, c, ⟨hr, hc⟩, rfl⟩).1
  omega

/-! ## Unit rows take their width from `WIDTH` -/

theorem withBlockWidth_legal {s : State} {f : Nat → Result} (h : widthLegal s.x.width = true) :
    withBlockWidth s f = f s.x.width.toNat := by
  unfold withBlockWidth
  rw [if_pos h]

theorem withBlockWidth_eq_next {s t : State} {f : Nat → Result} (h : withBlockWidth s f = .next t) :
    widthLegal s.x.width = true ∧ f s.x.width.toNat = .next t := by
  unfold withBlockWidth at h
  split at h
  · next hw => exact ⟨hw, h⟩
  · cases h

/-- A legal width is 4, 8 or 16. -/
theorem widthLegal_cases {w : Word} (h : widthLegal w = true) : w.toNat = 4 ∨ w.toNat = 8 ∨ w.toNat = 16 := by
  simp only [widthLegal, Bool.or_eq_true, beq_iff_eq] at h
  rcases h with (h | h) | h <;> subst h <;> simp

theorem widthLegal_le {w : Word} (h : widthLegal w = true) : w.toNat ≤ 16 := by
  have := widthLegal_cases h
  omega

/-! ## A reset that abandons a command -/

/-- The abandoned destination keeps the canonical form. -/
theorem abandonedMem_wellFormed {m final : List Host.Cell} {D : View} {w h : Nat} (n : Nat) (hm : memWellFormed m)
    (range : ∀ r c : Nat, r < h → c < w → (viewAddr D r c).toNat < Config.addressEnd) :
    memWellFormed (abandonedMem n m final D w h) := by
  have key : ∀ (l : List (Nat × Nat)), (∀ p ∈ l, p.1 < h ∧ p.2 < w) → ∀ m : List Host.Cell, memWellFormed m →
      memWellFormed (l.foldl (fun m p => if Config.landed n (16 * p.1 + p.2) then
        memSet m (viewAddr D p.1 p.2).toNat (sampleAt final (viewAddr D p.1 p.2)) else m) m) := by
    intro l
    induction l with
    | nil => intro _ m hm; exact hm
    | cons p l ih =>
      intro hl m hm
      rw [List.foldl_cons]
      refine ih (fun q hq => hl q (List.mem_cons_of_mem p hq)) _ ?_
      have hp := hl p List.mem_cons_self
      split
      · exact memSet_wellFormed hm (range p.1 p.2 hp.1 hp.2) _
      · exact hm
  exact key _ (fun p hp => (mem_blockGrid h w p.1 p.2).1 hp) m hm

end Sys2Proof.Machine
end

