-- ==== Sys2Proof/Laws/Turns.lean ====
section
/-! SUPPORT. Whose turn a step takes, and what the rows have in common: every row but PREDICT_LUMA runs a recipe, and a key's
row is the case of its low four bits at the width of its high two. -/

namespace Sys2Proof.Machine

open Sys2Proof.Safety

/-! ## Turns -/

/-- With nothing on the agenda the engine has the turn. -/
theorem step_of_nil {s : State} (h : s.agenda = []) : step s = engineTurn s := by
  unfold step takeTurn
  rw [h]

/-- A transaction that must wait leaves the turn to the engine. -/
theorem step_of_waiting {s : State} {e : Event} {rest : List Event} (h : s.agenda = e :: rest)
    (w : mustWait e s.seq = true) : step s = engineTurn s := by
  unfold step takeTurn
  rw [h]
  simp only [w, if_true]

/-- A turn that need not wait is taken off the agenda. -/
theorem step_of_taken {s : State} {e : Event} {rest : List Event} (h : s.agenda = e :: rest)
    (w : mustWait e s.seq = false) : step s = takeEvent e { s with agenda := rest } := by
  unfold step takeTurn
  rw [h]
  simp only [w, Bool.false_eq_true, if_false]

/-- While the engine is idle nothing waits. -/
theorem mustWait_idle (e : Event) : mustWait e .idle = false := by
  cases e <;> rfl

/-- A running engine runs its command, and then the races are decided. -/
theorem engineTurn_run {s : State} (h : s.seq = .run) :
    engineTurn s = andThen (runTurn s) fun t => .next (settleRaces s t) := by
  unfold engineTurn
  rw [h]

/-- A running engine without a race runs its command. -/
theorem engineTurn_of_nil {s : State} (h : s.seq = .run) (n : s.raced = []) : engineTurn s = runTurn s := by
  rw [engineTurn_run h]
  simp only [settleRaces_of_nil n]
  cases runTurn s <;> rfl

/-- An idle engine does nothing. -/
theorem engineTurn_idle {s : State} (h : s.seq = .idle) : engineTurn s = .next s := by
  unfold engineTurn
  rw [h]

/-! ## Footprints of the command in progress -/

theorem mem_runningReads {s : State} {w : Nat} {ts : List Term} (h : s.seq = .run) (c : runningCommand s = some (w, ts))
    (a : Int) : a ∈ runningReads s ↔ Reads s.x w ts a := by
  unfold runningReads
  rw [h, c]
  exact mem_readFootprint s.x w ts a

theorem mem_runningWrites {s : State} {w : Nat} {ts : List Term} (h : s.seq = .run) (c : runningCommand s = some (w, ts))
    (a : Int) : a ∈ runningWrites s ↔ Writes s.x w a := by
  unfold runningWrites
  rw [h, c]
  exact mem_writeFootprint s.x w a

theorem runningReads_idle {s : State} (h : s.seq = .idle) : runningReads s = [] := by
  unfold runningReads
  rw [h]

theorem runningWrites_idle {s : State} (h : s.seq = .idle) : runningWrites s = [] := by
  unfold runningWrites
  rw [h]

/-! ## Rows -/

/-- The row of a term is the one-term recipe at the width in `WIDTH`. -/
theorem exec_termInstr (t : Term) (s : State) : exec t.instr s = withBlockWidth s fun w => runSingle t w s := by
  obtain ⟨op, dr, dc⟩ := t
  cases op <;> rfl

/-- The row of a well-formed recipe word is the recipe at the width in `WIDTH`. -/
theorem exec_recipeInstr {r : BitVec 9} {i : Instr} (h : decodeRecipeWord r = .ok i) (s : State) :
    exec i s = withBlockWidth s fun w => runRecipe r w s := by
  unfold decodeRecipeWord at h
  unfold runRecipe
  split at h
  · next hw =>
    cases h
    simp only [hw, Bool.true_eq_false, if_false]
    cases (decodeRecipe r).avg
    · exact exec_termInstr _ s
    · rfl
  · cases h

theorem runCase_congr {w w' : Nat} {p p' : BitVec 4} (hw : w = w') (hp : p = p') (s : State) :
    runCase w p s = runCase w' p' s := by
  rw [hw, hp]

/-- The key of a case is the code the table gives it. -/
theorem encode_of_decodeKey {k : BitVec 6} {i : Instr} (h : decodeKey k = .ok i) : encode i = .k6 k := by
  have table : ∀ k : BitVec 6, ∀ i ∈ (casesW4 ++ casesW8 ++ casesW16)[k.toNat]?, encode i = .k6 k := by decide +kernel
  unfold decodeKey at h
  split at h
  · next e => cases h; exact table k i e
  · cases h

/-- The row of a key is the case of its low four bits at the width of its high two. -/
theorem exec_keyInstr {k : BitVec 6} {i : Instr} (h : decodeKey k = .ok i) (s : State) :
    exec i s = runCase (selectedWidth (k.extractLsb' 4 2)) (k.extractLsb' 0 4) s := by
  have e := encode_of_decodeKey h
  cases i <;> cases e
  all_goals exact runCase_congr (by decide) (by decide) s

/-- The width select of a legal width selects that width. -/
theorem widthSelect_of_legal {x : Word} (h : widthLegal x = true) :
    ∃ k, widthSelect x = some k ∧ selectedWidth k = x.toNat := by
  simp only [widthLegal, Bool.or_eq_true, beq_iff_eq] at h
  rcases h with (h | h) | h <;> subst h
  · exact ⟨0, by decide, by decide⟩
  · exact ⟨1, by decide, by decide⟩
  · exact ⟨2, by decide, by decide⟩

/-- `PREDICT_LUMA` with a legal width is the recipe of its phases in the issued state, then completion. -/
theorem exec_predictLuma {d : Operands} (h : widthLegal d.width = true) (s : State) : exec (.predictLuma d) s =
    andThen (runRecipe (romWord s.rom.words (phaseIndex d)) d.width.toNat (issueCommand d s)) fun t =>
      .next (completeCommand t) := by
  obtain ⟨k, h1, h2⟩ := widthSelect_of_legal h
  simp only [exec, execPredictLuma, h1, runCase, h2]
  rfl

end Sys2Proof.Machine
end

