-- ==== Sys2Proof/Laws/Races.lean ====
section
/-! SUPPORT. The host's racing accesses, and what deciding the races of a command leaves: locations outside its write
footprint are untouched, and each destination location holds the host's sample, a free value, or the command's sample. -/

namespace Sys2Proof.Machine

open Sys2Proof.Safety

/-- The contract of a command depends on the memory only through the set of valid locations. -/
theorem inContract_withMem {w : Nat} {ts : List Term} {s : State} (h : InContract w ts s) {m : List Host.Cell}
    (valid : ∀ a : Nat, (memFind m a).isSome = (memFind s.mem a).isSome) : InContract w ts { s with mem := m } :=
  ⟨h.operands, h.bases, fun a ha => ⟨(h.reads a ha).1, (valid _).trans (h.reads a ha).2⟩,
    fun a ha => ⟨(h.writes a ha).1, (valid _).trans (h.writes a ha).2⟩, h.disjoint⟩

/-- What one sample reads lies in the command's read footprint. -/
theorem reads_of_readsFor {x : Operands} {w : Nat} {ts : List Term} {r c : Nat} (hr : r < blockHeight x) (hc : c < w) {a : Int}
    (h : ReadsFor x ts r c a) : Reads x w ts a := by
  obtain ⟨t, ht, i, j, hij, rfl⟩ := h
  refine ⟨t, ht, r + i, c + j, ?_, rfl⟩
  obtain ⟨op, dr, dc⟩ := t
  cases op <;> simp only [InReadRange] at * <;> omega

/-- The addresses `sourceRaced` looks at are those one sample reads. -/
theorem mem_readFootprint_one (x : Operands) (ts : List Term) (r c : Nat) (a : Int) :
    a ∈ readFootprint (viewShift (sourceView x) r c) 1 1 ts ↔ ReadsFor x ts r c a := by
  have e : ∀ (t : Term) (i j : Int), viewAddr (termView (viewShift (sourceView x) r c) t) i j =
      viewAddr (termView (sourceView x) t) (r + i) (c + j) := by
    intro t i j
    simp only [viewAddr, termView, viewShift]
    ring
  simp only [readFootprint, List.mem_flatMap, mem_termReads, ReadsFor, e]

/-- Within contract a source race of a sample is a host write of a location the sample reads. -/
theorem sourceRaced_iff {w : Nat} {ts : List Term} {s : State} (h : InContract w ts s) {r c : Nat}
    (hr : r < blockHeight s.x) (hc : c < w) : sourceRaced s ts r c = true ↔ ∃ b ∈ s.raced, ReadsFor s.x ts r c b := by
  simp only [sourceRaced, List.any_eq_true, decide_eq_true_eq, mem_readFootprint_one]
  constructor
  · rintro ⟨a, ha, hm⟩
    have := (h.reads a (reads_of_readsFor hr hc ha)).1.1
    exact ⟨a.toNat, hm, by rwa [Int.toNat_of_nonneg this]⟩
  · rintro ⟨b, hb, h'⟩
    exact ⟨b, h', by simpa using hb⟩

/-- The memory after the races of the command running in `s` are decided, in the next state `t` of its run. -/
theorem settleRaces_mem {s t : State} {w : Nat} {ts : List Term} (c : runningCommand s = some (w, ts)) (n : s.raced ≠ []) :
    (settleRaces s t).mem = writeBlock t.mem (destView s.x) w (blockHeight s.x) (settledSample s ts t.mem) := by
  unfold settleRaces
  cases h : s.raced with
  | nil => exact absurd h n
  | cons a l => rw [c]

/-- Everything deciding the races can do to the memory, within contract. -/
theorem settleRaces_find {s t : State} {w : Nat} {ts : List Term} (run : runningCommand s = some (w, ts))
    (h : InContract w ts s) (valid : ∀ a : Nat, (memFind t.mem a).isSome = (memFind s.mem a).isSome) :
    (∀ a : Nat, ¬ Writes s.x w a → memFind (settleRaces s t).mem a = memFind t.mem a) ∧
    (∀ r c : Nat, r < blockHeight s.x → c < w → memFind (settleRaces s t).mem (viewAddr (destView s.x) r c).toNat =
      some (settledSample s ts t.mem r c)) := by
  by_cases n : s.raced = []
  · rw [settleRaces_of_nil n]
    refine ⟨fun a _ => rfl, fun r c hr hc => ?_⟩
    have v := (h.writes _ ⟨r, c, ⟨hr, hc⟩, rfl⟩).2
    rw [← valid] at v
    obtain ⟨b, hb⟩ := Option.isSome_iff_exists.1 v
    have ns : ¬ sourceRaced s ts r c = true := fun k => by
      obtain ⟨_, hm, -⟩ := (sourceRaced_iff h hr hc).1 k
      rw [n] at hm
      cases hm
    simp [settledSample, finalSample, ns, n, sampleAt, hb]
  · rw [settleRaces_mem run n]
    obtain ⟨dest, kept⟩ := writeBlock_dest (inContract_withMem h valid) (settledSample s ts t.mem)
    exact ⟨kept, dest⟩

/-- Deciding the races keeps the set of valid locations. -/
theorem settleRaces_isSome {s t : State} {w : Nat} {ts : List Term} (run : runningCommand s = some (w, ts))
    (h : InContract w ts s) (valid : ∀ a : Nat, (memFind t.mem a).isSome = (memFind s.mem a).isSome) (a : Nat) :
    (memFind (settleRaces s t).mem a).isSome = (memFind t.mem a).isSome := by
  by_cases n : s.raced = []
  · rw [settleRaces_of_nil n]
  · rw [settleRaces_mem run n]
    exact writeBlock_isSome (inContract_withMem h valid) _ a

/-- Deciding the races keeps the canonical form. -/
theorem settleRaces_wellFormed {s t : State} {w : Nat} {ts : List Term} (run : runningCommand s = some (w, ts))
    (h : InContract w ts s) (valid : ∀ a : Nat, (memFind t.mem a).isSome = (memFind s.mem a).isSome)
    (hm : memWellFormed t.mem) : memWellFormed (settleRaces s t).mem := by
  by_cases n : s.raced = []
  · rw [settleRaces_of_nil n]
    exact hm
  · rw [settleRaces_mem run n]
    exact writeBlock_dest_wellFormed (inContract_withMem h valid) _ hm

/-- A command that touches no memory (an unsupported width, a reserved key) has no race to decide. -/
theorem settleRaces_of_none {s : State} (h : runningCommand s = none) (t : State) : settleRaces s t = t := by
  unfold settleRaces
  rw [h]
  split <;> simp_all

/-! ## The host's accesses -/

/-- Everything a host write can do when it answers a next state: the sample is written, and a location in a footprint of the
running command is noted. -/
theorem hostWrite_eq_next {a : Nat} {v : Byte} {s t : State} (h : hostWrite a v s = .next t) :
    t = { s with mem := memSet s.mem a v } ∨
      (((a : Int) ∈ runningReads s ∨ (a : Int) ∈ runningWrites s) ∧
        t = { s with mem := memSet s.mem a v, raced := s.raced.insert a }) := by
  unfold hostWrite at h
  split at h
  · next hm =>
    obtain ⟨u, -, e⟩ := andThen_eq_next.1 h
    cases e
    exact .inr ⟨hm, rfl⟩
  · cases h
    exact .inl rfl

/-- Everything a host read can do when it answers a next state: it is answered, at most one free value is drawn, and nothing
else changes. -/
theorem hostRead_eq_next {a : Nat} {v : Byte} {s t : State} (h : hostRead a v s = .next t) :
    ∃ b n, t = answer { s with draws := n } (.sample a b) := by
  unfold hostRead at h
  split at h
  · obtain ⟨u, -, e⟩ := andThen_eq_next.1 h
    cases e
    exact ⟨_, _, rfl⟩
  · cases h
    exact ⟨v, s.draws, rfl⟩

end Sys2Proof.Machine
end

