-- ==== Sys2Proof/Tests/Slice0.lean ====
section
/-! SUPPORT. Tests: well-formedness refuses, hand-written words decode, the spec's vectors (95_test_vectors.md), one-step
behaviour, and for every obligation with hypotheses a witness that meets them. Expected values are the spec's. -/

namespace Sys2Proof.Tests

open Sys2Proof.Machine Sys2Proof.Safety

/-! ## Well-formedness refuses -/

/-- V8's operands with a given width. -/
def withWidth (w : Nat) : Operands :=
  { srcPtr := 0, srcStride := 0, dstPtr := 0, dstStride := 0, mvX := 0, mvY := 0, width := BitVec.ofNat 32 w, height := 0 }

/-- 95_test_vectors.md V8: the unsupported widths. -/
theorem test_illformed_width : [0, 1, 2, 3, 5, 7, 9, 12, 15, 17, 20, 32, 64, 4294967295].all
    (fun w => !(Instr.predictLuma (withWidth w)).wellFormed) = true := by decide

/-- 95_test_vectors.md V8: the legal widths. -/
theorem test_wellformed_width :
    [4, 8, 16].all (fun w => (Instr.predictLuma (withWidth w)).wellFormed) = true := by decide

/-- 30_encoding.md R65: `avg = 0` with `B` not 0000 is reserved. -/
theorem test_illformed_recipe :
    Recipe.wellFormed { avg := false, a := plain .copy, b := nextCol .copy } = false := by decide

/-- 93_implementation_defined.md U12: a ROM with a reserved word is ill formed; both printed tables are well formed. -/
theorem test_illformed_rom : romWellFormed (Vector.replicate 16 0x001) = false ∧ romWellFormed Config.romDoc = true ∧
    romWellFormed Config.romAlt = true := by decide +kernel

/-- U12: a machine with one reserved word in its ROM is refused at construction; `ROM_ALT` (G1) builds one. -/
theorem test_buildMachine : buildMachine (Config.romDoc.set 5 0x001) = .refused .illFormedRom ∧
    (nextState? (buildMachine Config.romAlt)).map (fun t => t.rom.words) = some Config.romAlt := by
  refine ⟨dif_neg (by decide), by decide⟩

/-! ## Hand-written words decode (30_encoding.md R54 to R63; 95_test_vectors.md V7) -/

theorem test_decode_keys_w4 :
    decode (.k6 0b000000) = .ok .mcV0H0W4 ∧
    decode (.k6 0b000001) = .ok .mcV0H1W4 ∧
    decode (.k6 0b000010) = .ok .mcV0H2W4 ∧
    decode (.k6 0b000011) = .ok .mcV0H3W4 ∧
    decode (.k6 0b000100) = .ok .mcV1H0W4 ∧
    decode (.k6 0b000101) = .ok .mcV1H1W4 ∧
    decode (.k6 0b000110) = .ok .mcV1H2W4 ∧
    decode (.k6 0b000111) = .ok .mcV1H3W4 ∧
    decode (.k6 0b001000) = .ok .mcV2H0W4 ∧
    decode (.k6 0b001001) = .ok .mcV2H1W4 ∧
    decode (.k6 0b001010) = .ok .mcV2H2W4 ∧
    decode (.k6 0b001011) = .ok .mcV2H3W4 ∧
    decode (.k6 0b001100) = .ok .mcV3H0W4 ∧
    decode (.k6 0b001101) = .ok .mcV3H1W4 ∧
    decode (.k6 0b001110) = .ok .mcV3H2W4 ∧
    decode (.k6 0b001111) = .ok .mcV3H3W4 := by decide

theorem test_decode_keys_w8 :
    decode (.k6 0b010000) = .ok .mcV0H0W8 ∧
    decode (.k6 0b010001) = .ok .mcV0H1W8 ∧
    decode (.k6 0b010010) = .ok .mcV0H2W8 ∧
    decode (.k6 0b010011) = .ok .mcV0H3W8 ∧
    decode (.k6 0b010100) = .ok .mcV1H0W8 ∧
    decode (.k6 0b010101) = .ok .mcV1H1W8 ∧
    decode (.k6 0b010110) = .ok .mcV1H2W8 ∧
    decode (.k6 0b010111) = .ok .mcV1H3W8 ∧
    decode (.k6 0b011000) = .ok .mcV2H0W8 ∧
    decode (.k6 0b011001) = .ok .mcV2H1W8 ∧
    decode (.k6 0b011010) = .ok .mcV2H2W8 ∧
    decode (.k6 0b011011) = .ok .mcV2H3W8 ∧
    decode (.k6 0b011100) = .ok .mcV3H0W8 ∧
    decode (.k6 0b011101) = .ok .mcV3H1W8 ∧
    decode (.k6 0b011110) = .ok .mcV3H2W8 ∧
    decode (.k6 0b011111) = .ok .mcV3H3W8 := by decide

theorem test_decode_keys_w16 :
    decode (.k6 0b100000) = .ok .mcV0H0W16 ∧
    decode (.k6 0b100001) = .ok .mcV0H1W16 ∧
    decode (.k6 0b100010) = .ok .mcV0H2W16 ∧
    decode (.k6 0b100011) = .ok .mcV0H3W16 ∧
    decode (.k6 0b100100) = .ok .mcV1H0W16 ∧
    decode (.k6 0b100101) = .ok .mcV1H1W16 ∧
    decode (.k6 0b100110) = .ok .mcV1H2W16 ∧
    decode (.k6 0b100111) = .ok .mcV1H3W16 ∧
    decode (.k6 0b101000) = .ok .mcV2H0W16 ∧
    decode (.k6 0b101001) = .ok .mcV2H1W16 ∧
    decode (.k6 0b101010) = .ok .mcV2H2W16 ∧
    decode (.k6 0b101011) = .ok .mcV2H3W16 ∧
    decode (.k6 0b101100) = .ok .mcV3H0W16 ∧
    decode (.k6 0b101101) = .ok .mcV3H1W16 ∧
    decode (.k6 0b101110) = .ok .mcV3H2W16 ∧
    decode (.k6 0b101111) = .ok .mcV3H3W16 := by decide

/-- `wsel = 11` is no key (R56). -/
theorem test_decode_key_reserved : decode (.k6 0b110000) = .error .reservedKey := by decide

theorem test_decode_copy : decode (.s4 0b0000) = .ok (.copy false false) ∧ decode (.s4 0b0001) = .ok (.copy false true) ∧
    decode (.s4 0b0010) = .ok (.copy true false) ∧ decode (.s4 0b0011) = .ok (.copy true true) := by decide

theorem test_decode_filtH : decode (.s4 0b0100) = .ok (.filtH false false) ∧
    decode (.s4 0b0101) = .ok (.filtH false true) ∧ decode (.s4 0b0110) = .ok (.filtH true false) ∧
    decode (.s4 0b0111) = .ok (.filtH true true) := by decide

theorem test_decode_filtV : decode (.s4 0b1000) = .ok (.filtV false false) ∧
    decode (.s4 0b1001) = .ok (.filtV false true) ∧ decode (.s4 0b1010) = .ok (.filtV true false) ∧
    decode (.s4 0b1011) = .ok (.filtV true true) := by decide

theorem test_decode_filtC : decode (.s4 0b1100) = .ok (.filtC false false) ∧
    decode (.s4 0b1101) = .ok (.filtC false true) ∧ decode (.s4 0b1110) = .ok (.filtC true false) ∧
    decode (.s4 0b1111) = .ok (.filtC true true) := by decide

/-- V7, the averaging recipe words of both tables. -/
theorem test_decode_avg : decode (.r9 0x104) = .ok (.avg (plain .copy) (plain .filtH)) ∧
    decode (.r9 0x108) = .ok (.avg (plain .copy) (plain .filtV)) ∧
    decode (.r9 0x114) = .ok (.avg (nextCol .copy) (plain .filtH)) ∧
    decode (.r9 0x128) = .ok (.avg (nextRow .copy) (plain .filtV)) ∧
    decode (.r9 0x184) = .ok (.avg (plain .filtV) (plain .filtH)) ∧
    decode (.r9 0x185) = .ok (.avg (plain .filtV) (nextCol .filtH)) ∧
    decode (.r9 0x186) = .ok (.avg (plain .filtV) (nextRow .filtH)) ∧
    decode (.r9 0x194) = .ok (.avg (nextCol .filtV) (plain .filtH)) ∧
    decode (.r9 0x196) = .ok (.avg (nextCol .filtV) (nextRow .filtH)) ∧
    decode (.r9 0x1A7) = .ok (.avg (nextRow .filtV) (nextRowCol .filtH)) ∧
    decode (.r9 0x1C4) = .ok (.avg (plain .filtC) (plain .filtH)) ∧
    decode (.r9 0x1C6) = .ok (.avg (plain .filtC) (nextRow .filtH)) ∧
    decode (.r9 0x1C8) = .ok (.avg (plain .filtC) (plain .filtV)) ∧
    decode (.r9 0x1C9) = .ok (.avg (plain .filtC) (nextCol .filtV)) ∧
    decode (.r9 0x1CA) = .ok (.avg (plain .filtC) (nextRow .filtV)) := by decide

/-- V7, the single-term recipe words; 0x001 is the reserved encoding. -/
theorem test_decode_single : decode (.r9 0x000) = .ok (.copy false false) ∧
    decode (.r9 0x040) = .ok (.filtH false false) ∧ decode (.r9 0x080) = .ok (.filtV false false) ∧
    decode (.r9 0x0C0) = .ok (.filtC false false) ∧ decode (.r9 0x001) = .error .reservedRecipe := by decide

/-- The operands of V7's descriptor, which is program P1's command. -/
def p1Operands : Operands :=
  { srcPtr := 4195, srcStride := 24, dstPtr := 8192, dstStride := 4, mvX := BitVec.ofInt 32 (-4),
    mvY := BitVec.ofInt 32 (-8), width := 4, height := 4 }

theorem test_decode_predictLuma : decode (.d8 [0x00001063, 0x00000018, 0x00002000, 0x00000004, 0xFFFFFFFC, 0xFFFFFFF8,
    0x00000004, 0x00000004]) = .ok (.predictLuma p1Operands) := by decide

/-- A table word of each width: a K6 in a byte, an S4 in four bits, an R9 and an S4 in sixteen bits, a D8. -/
theorem test_decodeTableWord : decodeTableWord 8 0x2F = some .mcV3H3W16 ∧ decodeTableWord 8 0x30 = none ∧
    decodeTableWord 4 0xE = some (.filtC true false) ∧
    decodeTableWord 16 0x1A7 = some (.avg (nextRow .filtV) (nextRowCol .filtH)) ∧
    decodeTableWord 16 0x8 = some (.filtV false false) ∧
    decodeTableWord 256 0x0000000400000004FFFFFFF8FFFFFFFC00000004000020000000001800001063 =
      some (.predictLuma p1Operands) := by decide +kernel

/-- V7, the dispatch keys of the printed motion vectors. -/
theorem test_dispatchKey : ([((4 : Nat), (0 : Int), (0 : Int)), (4, 6, 10), (8, 1, 0), (8, 1, 1), (16, 2, 2), (16, -1, -1),
      (4, -4, -8), (8, 3, -3), (16, 7, 5), (4, -6, 2)].map fun q =>
    dispatchKey { withWidth q.1 with mvX := BitVec.ofInt 32 q.2.1, mvY := BitVec.ofInt 32 q.2.2 }) =
    [some 0x00, some 0x0A, some 0x11, some 0x15, some 0x2A, some 0x2F, some 0x00, some 0x17, some 0x27, some 0x0A] := by
  decide +kernel

/-! ## Arithmetic vectors -/

/-- V6. -/
theorem test_motionVector : ([2147483647, -2147483648, -9, -8, -6, -5, -4, -3, -2, -1, 7, 10].map fun v : Int =>
      (mvInteger (BitVec.ofInt 32 v), (mvPhase (BitVec.ofInt 32 v)).toNat)) =
    [(536870911, 3), (-536870912, 0), (-3, 3), (-2, 0), (-2, 2), (-2, 3), (-1, 0), (-1, 1), (-1, 2), (-1, 3), (1, 3),
      (2, 2)] := by decide +kernel

/-- V1: sum, unclipped quotient and output. -/
theorem test_oneDimensional : ([(tap6 1 2 3 4 5 6), (tap6 100 50 25 75 200 150), (tap6 255 0 255 255 0 255),
      (tap6 0 255 0 0 255 0), (tap6 15 0 0 0 0 0), (tap6 16 0 0 0 0 0), (tap6 4 4 0 0 0 0), (tap6 3 4 0 0 0 0),
      (tap6 0 0 204 204 0 15), (tap6 0 0 204 204 0 16)].map fun s : Int =>
    (s, shiftRight (s + 16) 5, (roundOne s).toNat)) =
    [(112, 4, 4), (1000, 31, 31), (10710, 335, 255), (-2550, -80, 0), (15, 0, 0), (16, 1, 1), (-16, 0, 0), (-17, -1, 0),
      (8175, 255, 255), (8176, 256, 255)] := by decide +kernel

/-- V3.3: quotient and output. -/
theorem test_twoDimensional : ([0, 511, 512, 1535, 1536, -1, -512, -513, -1536, -1537, 260607, 260608, 261119, 261120, 261631,
      261632, 475320, -214200].map fun s : Int => (shiftRight (s + 512) 10, (roundTwo s).toNat)) =
    [(0, 0), (0, 0), (1, 1), (1, 1), (2, 2), (0, 0), (0, 0), (-1, 0), (-1, 0), (-2, 0), (254, 254), (255, 255), (255, 255),
      (255, 255), (255, 255), (256, 255), (464, 255), (-209, 0)] := by decide +kernel

/-- V4. -/
theorem test_average : ([((0 : Byte), (0 : Byte)), (0, 1), (1, 0), (1, 1), (1, 2), (100, 101), (100, 102), (30, 35), (200, 200),
      (0, 255), (254, 255), (255, 255), (255, 0)].map fun q => (avgSample q.1 q.2).toNat) =
    [0, 1, 1, 1, 2, 101, 101, 33, 200, 128, 255, 255, 128] := by decide +kernel

/-! ## The plane of V5, and blocks on it -/

/-- V5: the sample of row `r`, column `c` of the plane `G`. -/
def planeSample (r c : Nat) : Byte := BitVec.ofNat 8 (37 * r + 59 * c + 11 * r * c + 13)

/-- The first rows and columns of the plane `G`, base 4096, stride 24. -/
def plane (rows cols : Nat) : List Host.Cell :=
  (List.range rows).flatMap fun r => (List.range cols).map fun c => (4096 + 24 * r + c, planeSample r c)

/-- A destination at 8192, pre-filled with 170. -/
def destination (n : Nat) : List Host.Cell := (List.range n).map fun k => (8192 + k, 170)

/-- The block of V5 (origin row 2, column 2) at width `w` and height `h`, motion vector (0, 0). -/
def planeOperands (w h : Nat) : Operands :=
  { srcPtr := 4146, srcStride := 24, dstPtr := 8192, dstStride := BitVec.ofNat 32 w, mvX := 0, mvY := 0,
    width := BitVec.ofNat 32 w, height := BitVec.ofNat 32 h }

/-- The state of V5 at width `w` and height `h`, with as much of the plane as a case can read. -/
def planeState (w h : Nat) : State :=
  { State.reset with x := planeOperands w h, mem := plane (h + 6) (w + 6) ++ destination (w * h) }

/-- The first `n` samples at 8192 of a next state. -/
def block (r : Result) (n : Nat) : Option (List Nat) :=
  (nextState? r).map fun t => (List.range n).map fun k => ((memFind t.mem (8192 + k)).getD 0).toNat

/-- V5, `copy+1col`. -/
theorem test_exec_copy : block (exec (.copy false true) (planeState 4 4)) 16 =
    some [74, 155, 236, 61, 144, 236, 72, 164, 214, 61, 164, 11, 28, 142, 0, 114] := by decide +kernel

/-- V5, `H+1row+1col`. -/
theorem test_exec_filtH : block (exec (.filtH true true) (planeState 4 4)) 16 =
    some [230, 146, 118, 90, 130, 113, 96, 23, 85, 79, 17, 211, 161, 158, 155, 152] := by decide +kernel

/-- V5, `V+1row`. -/
theorem test_exec_filtV : block (exec (.filtV true false) (planeState 4 4)) 16 =
    some [50, 211, 149, 118, 141, 121, 62, 90, 232, 31, 223, 6, 131, 133, 136, 178] := by decide +kernel

/-- V5 and V3.4, `C`: no rounding between the stages. -/
theorem test_exec_filtC : block (exec (.filtC false false) (planeState 4 4)) 16 =
    some [98, 180, 211, 121, 130, 205, 121, 119, 162, 79, 83, 36, 124, 131, 118, 80] := by decide +kernel

/-- V5, the recipe of `MC_V3H3`, `avg(V+1row, H+1row+1col)`. -/
theorem test_exec_avg : block (exec (.avg (nextRow .filtV) (nextRowCol .filtH)) (planeState 4 4)) 16 =
    some [140, 179, 134, 104, 136, 117, 79, 57, 159, 55, 120, 109, 146, 146, 146, 165] := by decide +kernel

/-- V10 at width 8, case (1,1). -/
theorem test_exec_mcV1H1W8 : block (exec .mcV1H1W8 (planeState 8 1)) 8 =
    some [157, 92, 236, 148, 88, 151, 147, 83] := by decide +kernel

/-- V10 at width 16, case (1,1). -/
theorem test_exec_mcV1H1W16 : block (exec .mcV1H1W16 (planeState 16 1)) 16 =
    some [157, 92, 236, 148, 88, 151, 147, 83, 123, 162, 78, 118, 154, 73, 137, 133] := by decide +kernel

/-- The first row of each of the sixteen cases on the plane of V5, as recipe results. -/
def caseRow (p : BitVec 4) : List Nat :=
  (List.range 4).map fun x => (recipeResult (romWord Config.romDoc p) (planeState 4 4).mem
    (sourceView (planeOperands 4 4)) 0 x).toNat

/-- V5, the cases with vertical phase 0. -/
theorem test_cases_v0 : [caseRow 0, caseRow 1, caseRow 2, caseRow 3] =
    [[249, 74, 155, 236], [206, 75, 196, 193], [162, 75, 236, 149], [118, 115, 236, 105]] := by decide +kernel

/-- V5, the cases with vertical phase 1. -/
theorem test_cases_v1 : [caseRow 4, caseRow 5, caseRow 6, caseRow 7] =
    [[200, 92, 196, 191], [157, 92, 236, 148], [125, 145, 224, 134], [113, 173, 193, 104]] := by decide +kernel

/-- V5, the cases with vertical phase 2. -/
theorem test_cases_v2 : [caseRow 8, caseRow 9, caseRow 10, caseRow 11] =
    [[151, 109, 236, 146], [104, 208, 179, 117], [98, 180, 211, 121], [104, 208, 179, 117]] := by decide +kernel

/-- V5, the cases with vertical phase 3. -/
theorem test_cases_v3 : [caseRow 12, caseRow 13, caseRow 14, caseRow 15] =
    [[102, 127, 236, 109], [105, 170, 191, 132], [74, 196, 180, 120], [140, 179, 134, 104]] := by decide +kernel

/-- P1: a copy with a negative motion vector, from the descriptor to `STATUS`. -/
theorem test_exec_predictLuma_copy : block (exec (.predictLuma p1Operands) (planeState 4 4)) 16 =
      some [249, 74, 155, 236, 52, 144, 236, 72, 111, 214, 61, 164, 170, 28, 142, 0] ∧
    (nextState? (exec (.predictLuma p1Operands) (planeState 4 4))).map (fun t => (t.status, t.seq, t.x)) =
      some (0x02, .idle, p1Operands) := by decide +kernel

/-- S8 and P5: width 5 reports the error and writes nothing. -/
theorem test_exec_predictLuma_error :
    (nextState? (exec (.predictLuma (planeOperands 5 4)) (planeState 4 4))).map
      (fun t => (t.status, t.seq, decide (t.mem = (planeState 4 4).mem))) = some (0x16, .idle, true) := by decide +kernel

/-! ## Single steps -/

/-- The table word of `MC_V2H2.W4` runs as the first instruction after reset. -/
theorem test_step_key : (nextState? (step (State.reset.withFetchWord 8 0x0A))).map (fun t => (t.status, t.seq)) =
    some (0x02, .idle) := by decide +kernel

/-- The table word of `FILT_V` runs as the first instruction after reset. -/
theorem test_step_term : (nextState? (step (State.reset.withFetchWord 4 0x8))).map (fun t => (t.status, t.seq)) =
    some (0x02, .idle) := by decide +kernel

/-- A descriptor of zeros has width 0: the error entry (R141). -/
theorem test_step_descriptor : (nextState? (step (State.reset.withFetchWord 0 0))).map (fun t => (t.status, t.seq)) =
    some (0x16, .idle) := by decide +kernel

/-- The state of V5 with P1's command running and the given turns to come. -/
def running (agenda : List Event) (raced : List Nat) : State :=
  { planeState 4 4 with x := p1Operands, seq := .run, status := 0x01, agenda := agenda, raced := raced }

/-- U8: the host's write into the destination of a running command is performed, and the command runs on. -/
theorem test_step_raced_write : (nextState? (step (running [.host (.writeSample 8192 7)] []))).map
    (fun t => (t.seq, t.raced, memFind t.mem 8192)) = some (.run, [8192], some 7) := by decide +kernel

/-- U8: with 8192 raced, the other destination samples of P1 are the command's, and it completes. -/
theorem test_step_raced_completion : (nextState? (step (running [] [8192]))).map
    (fun t => (t.seq, t.status, t.raced, memFind t.mem 8193, memFind t.mem 8207)) =
      some (.idle, 0x02, [], some 74, some 0) := by decide +kernel

/-- An idle machine with nothing to do stays as it is. -/
theorem test_step_reset : step State.reset = .next State.reset := rfl

/-! ## The demo state: planes as large as any case of height 4 needs -/

/-- A block of width `w` and height 4 at row 4, column 8 of a plane at 0, with the phases of `p`; destination 512. -/
def demoOperands (w : Nat) (p : BitVec 4) : Operands :=
  { srcPtr := 136, srcStride := 32, dstPtr := 512, dstStride := 16, mvX := (p.extractLsb' 0 2).setWidth 32,
    mvY := (p.extractLsb' 2 2).setWidth 32, width := BitVec.ofNat 32 w, height := 4 }

/-- Every location below 1024 is valid. (Irreducible, so that no proof unfolds the list.) -/
@[irreducible] def demoMem (f : Nat → Byte) : List Host.Cell := (List.range 1024).map fun a => (a, f a)

/-- The demo command, issued. -/
def demo (f : Nat → Byte) (w : Nat) (p : BitVec 4) : State :=
  { State.reset with x := demoOperands w p, mem := demoMem f, seq := .run, status := 0x01 }

theorem demo_source (w : Nat) (p : BitVec 4) : sourceView (demoOperands w p) = { base := 136, stride := 32 } := by
  have x : ∀ p : BitVec 4, mvInteger ((p.extractLsb' 0 2).setWidth 32) = 0 := by decide
  have y : ∀ p : BitVec 4, mvInteger ((p.extractLsb' 2 2).setWidth 32) = 0 := by decide
  unfold sourceView demoOperands
  simp only [x, y]
  rfl

theorem demo_valid {m : List Host.Cell} {f : Nat → Byte} (h : m = demoMem f) {a : Int} (h0 : 0 ≤ a) (h1 : a < 1024) :
    Valid m a := by
  refine ⟨⟨h0, by unfold Config.addressEnd; omega⟩, ?_⟩
  rw [h]
  unfold demoMem
  rw [memFind_range, if_pos (by omega)]
  rfl

theorem demo_read {t : Term} {w : Nat} (hw : w = 4 ∨ w = 8 ∨ w = 16) {r c : Int} (h : InReadRange t.op w 4 r c) :
    ∃ k : Int, viewAddr (termView { base := 136, stride := 32 } t) r c = k ∧ 0 ≤ k ∧ k < 512 := by
  refine ⟨_, rfl, ?_⟩
  obtain ⟨op, dr, dc⟩ := t
  cases op <;> cases dr <;> cases dc <;>
    simp only [InReadRange, viewAddr, termView, viewShift, shiftOf, if_true, Bool.false_eq_true, if_false] at h ⊢ <;> omega

theorem demo_write {w : Nat} (hw : w = 4 ∨ w = 8 ∨ w = 16) {a : Int} {p : BitVec 4} (h : Writes (demoOperands w p) w a) :
    512 ≤ a ∧ a < 1024 := by
  obtain ⟨r, c, ⟨hr, hc⟩, rfl⟩ := h
  have hr : r < 4 := hr
  have e : viewAddr (destView (demoOperands w p)) r c = 512 + r * 16 + c := rfl
  omega

theorem demo_inContract {s : State} {f : Nat → Byte} {w : Nat} {p : BitVec 4} (hw : w = 4 ∨ w = 8 ∨ w = 16)
    (hx : s.x = demoOperands w p) (hm : s.mem = demoMem f) (ts : List Term) : InContract w ts s := by
  have reads : ∀ a, Reads s.x w ts a → 0 ≤ a ∧ a < 512 := by
    rintro a ⟨t, -, r, c, h, rfl⟩
    rw [hx] at h ⊢
    rw [demo_source]
    obtain ⟨k, e, hk⟩ := demo_read hw (t := t) (r := r) (c := c) h
    rw [e]
    exact hk
  refine ⟨?_, fun a ha => ?_, fun a ha => ?_, fun a ha => ?_, fun a ha hb => ?_⟩
  · rw [hx]
    refine ⟨by show 1 ≤ 4; omega, by show 4 ≤ 16; omega, fun _ => (by show 4 % 4 = 0; rfl), ?_, ?_⟩
    · show w ≤ 32; omega
    · show w ≤ 16; omega
  · rw [hx] at ha
    unfold commandBases at ha
    rw [demo_source] at ha
    simp only [List.mem_cons, List.mem_map] at ha
    rcases ha with rfl | rfl | ⟨t, -, rfl⟩
    · decide
    · exact ⟨by show (0 : Int) ≤ 512; omega, by show (512 : Int) < 4294967296; omega⟩
    · obtain ⟨op, dr, dc⟩ := t
      unfold Config.addressEnd
      cases dr <;> cases dc <;>
        simp only [termView, viewShift, shiftOf, if_true, Bool.false_eq_true, if_false] <;> omega
  · have := reads a ha
    exact demo_valid hm this.1 (by omega)
  · rw [hx] at ha
    have := demo_write hw ha
    exact demo_valid hm (by omega) this.2
  · have h1 := reads a ha
    rw [hx] at hb
    have := demo_write hw hb
    omega
theorem demo_width (f : Nat → Byte) {w : Nat} (hw : w = 4 ∨ w = 8 ∨ w = 16) (p : BitVec 4) :
    (demo f w p).x.width.toNat = w ∧ widthLegal (demo f w p).x.width = true := by
  rcases hw with rfl | rfl | rfl <;> exact ⟨rfl, rfl⟩

theorem demoMem_wellFormed (f : Nat → Byte) : memWellFormed (demoMem f) := by
  unfold demoMem
  refine ⟨List.pairwise_map.2 (List.pairwise_lt_range (n := 1024)), fun c hc => ?_⟩
  obtain ⟨a, ha, rfl⟩ := List.mem_map.1 hc
  have := List.mem_range.1 ha
  show a < 4294967296
  omega

/-- The demo state meets the invariant, at any width. -/
theorem demo_inv (f : Nat → Byte) (w : Nat) (p : BitVec 4) : EngineInv (demo f w p) :=
  ⟨fun _ => rfl, fun h => (by cases h), trivial, fun _ h => (by cases h), phaseRom.wellFormed, demoMem_wellFormed f⟩

theorem demo_issued {f : Nat → Byte} {w : Nat} (hw : w = 4 ∨ w = 8 ∨ w = 16) (p : BitVec 4) (ts : List Term) (s : State)
    (hm : s.mem = demoMem f) : InContract w ts (issueCommand (demoOperands w p) s) :=
  demo_inContract (s := issueCommand (demoOperands w p) s) hw rfl hm ts

/-- All samples zero. -/
abbrev zeros : Nat → Byte := fun _ => 0

/-- Running the demo command answers a next state, whatever is raced. -/
theorem demo_run (w : Nat) (hw : w = 4 ∨ w = 8 ∨ w = 16) (p : BitVec 4) (agenda : List Event) (raced : List Nat) :
    ∃ t, runTurn { demo zeros w p with agenda := agenda, raced := raced } = .next t := by
  obtain ⟨h1, h2⟩ := demo_width zeros hw p
  obtain ⟨t, e, -⟩ := runRecipe_produces (romWord_wellFormed phaseRom (phaseIndex (demoOperands w p)))
    (demo_issued hw p (recipeTerms (romWord Config.romDoc (phaseIndex (demoOperands w p))))
      { demo zeros w p with agenda := agenda, raced := raced } rfl) (by omega)
  refine ⟨completeCommand t, ?_⟩
  have run : runTurn { demo zeros w p with agenda := agenda, raced := raced } =
      exec (.predictLuma (demoOperands w p)) { demo zeros w p with agenda := agenda, raced := raced } := rfl
  rw [run, exec_predictLuma (d := demoOperands w p) h2]
  have hw' : (demoOperands w p).width.toNat = w := h1
  rw [hw']
  exact (congrArg (fun r => andThen r fun t => .next (completeCommand t)) e).trans rfl

/-- The engine's turn on the demo command answers a next state. -/
theorem demo_runs (w : Nat) (hw : w = 4 ∨ w = 8 ∨ w = 16) (p : BitVec 4) (agenda : List Event) :
    ∃ t, engineTurn { demo zeros w p with agenda := agenda } = .next t := by
  obtain ⟨t, e⟩ := demo_run w hw p agenda []
  exact ⟨t, (engineTurn_of_nil rfl rfl).trans e⟩

/-! ## Witnesses: for every obligation with hypotheses, a state and operands that meet them all -/

theorem witness_EncodeInvertsDecode :
    (decode (.r9 0x185) = .ok (.avg (plain .filtV) (nextCol .filtH)) ∧
      ∀ r, Code.r9 0x185 = .r9 r → (decodeRecipe r).avg = true) ∧
    (decode (.k6 0b101111) = .ok .mcV3H3W16 ∧ ∀ r, Code.k6 0b101111 = .r9 r → (decodeRecipe r).avg = true) :=
  ⟨⟨by decide, fun r h => by cases h; decide⟩, ⟨by decide, fun r h => by cases h⟩⟩

/-- Both ends of the reserved keys, the least and greatest reserved recipe words, a ROM whose last word alone is reserved and
one without a reserved word. -/
theorem witness_ReservedCodesRejected :
    (48 ≤ (48 : BitVec 6).toNat ∧ 48 ≤ (63 : BitVec 6).toNat) ∧
    ((0x001 : BitVec 9).getLsbD 8 = false ∧ (0x001 : BitVec 9).extractLsb' 0 4 ≠ 0) ∧
    ((0x0FF : BitVec 9).getLsbD 8 = false ∧ (0x0FF : BitVec 9).extractLsb' 0 4 ≠ 0) ∧
    (∃ r ∈ (Config.romDoc.set 15 0x001).toList, r.getLsbD 8 = false ∧ r.extractLsb' 0 4 ≠ 0) ∧
    (∀ r ∈ Config.romAlt.toList, r.getLsbD 8 = false → r.extractLsb' 0 4 = 0) := by decide

theorem witness_DispatchKeyIsWidthAndPhases :
    (0 < 3 ∧ (withWidth 4).width = BitVec.ofNat 32 (4 * 2 ^ 0)) ∧ (1 < 3 ∧ (withWidth 8).width = BitVec.ofNat 32 (4 * 2 ^ 1)) ∧
    (2 < 3 ∧ (withWidth 16).width = BitVec.ofNat 32 (4 * 2 ^ 2)) ∧
    ((withWidth 32).width ≠ 4 ∧ (withWidth 32).width ≠ 8 ∧ (withWidth 32).width ≠ 16) ∧
    ((withWidth 0).width ≠ 4 ∧ (withWidth 0).width ≠ 8 ∧ (withWidth 0).width ≠ 16) := by decide

/-- Each clause at the values where the clauses meet. -/
theorem witness_OneDimensionalThresholds : ((-17 : Int) ≤ -17) ∧ ((8176 : Int) ≥ 8176) ∧
    ((-17 : Int) < -16 ∧ (-16 : Int) < 8176) ∧ ((-17 : Int) < 8175 ∧ (8175 : Int) < 8176) := by decide

/-- Each clause at the values where the clauses meet. -/
theorem witness_TwoDimensionalThresholds :
    ((-214200 : Int) ≤ -214200 ∧ (-214200 : Int) ≤ 475320) ∧ ((-214200 : Int) ≤ 475320 ∧ (475320 : Int) ≤ 475320) ∧
    ((-513 : Int) ≤ -513) ∧ ((261632 : Int) ≥ 261632) ∧
    ((-513 : Int) < -512 ∧ (-512 : Int) < 261632) ∧ ((-513 : Int) < 261631 ∧ (261631 : Int) < 261632) := by decide

/-- The sample of the demo memory at row `r - 2`, column `c - 2` of the view at 66 with stride 32. -/
theorem demo_sample (g : Nat → Nat → Byte) {r c : Int} (hr : -2 ≤ r ∧ r < 30) (hc : -2 ≤ c ∧ c < 30) :
    viewSample (demoMem fun a => g (a / 32) (a % 32)) { base := 66, stride := 32 } r c =
      (g (r + 2).toNat (c + 2).toNat).toNat := by
  have row : (viewAddr { base := 66, stride := 32 } r c).toNat / 32 = (r + 2).toNat := by
    simp only [viewAddr]
    omega
  have col : (viewAddr { base := 66, stride := 32 } r c).toNat % 32 = (c + 2).toNat := by
    simp only [viewAddr]
    omega
  have inside : (viewAddr { base := 66, stride := 32 } r c).toNat < 1024 := by
    simp only [viewAddr]
    omega
  unfold viewSample sampleAt demoMem
  rw [memFind_range, if_pos inside, Option.getD_some, row, col]

/-- Blocks of 1 and of 16: a plane and its transpose, and a plane symmetric under transpose. -/
theorem witness_TranspositionLaw : ∀ n : Nat, n = 1 ∨ n = 16 →
    (∀ r c : Int, InReadRange .filtV n n r c →
      viewSample (demoMem fun a => (fun i j => BitVec.ofNat 8 (3 * j + i)) (a / 32) (a % 32)) { base := 66, stride := 32 } r c =
      viewSample (demoMem fun a => (fun i j => BitVec.ofNat 8 (3 * i + j)) (a / 32) (a % 32)) { base := 66, stride := 32 } c r) ∧
    (∀ r c : Int, InReadRange .filtV n n r c →
      viewSample (demoMem fun a => (fun i j => BitVec.ofNat 8 (i * j)) (a / 32) (a % 32)) { base := 66, stride := 32 } r c =
      viewSample (demoMem fun a => (fun i j => BitVec.ofNat 8 (i * j)) (a / 32) (a % 32)) { base := 66, stride := 32 } c r) ∧
    0 < n := by
  intro n hn
  have bound : ∀ r c : Int, InReadRange .filtV n n r c → (-2 ≤ r ∧ r < 30) ∧ (-2 ≤ c ∧ c < 30) := by
    intro r c h
    unfold InReadRange at h
    omega
  refine ⟨fun r c h => ?_, fun r c h => ?_, by omega⟩
  · obtain ⟨hr, hc⟩ := bound r c h
    rw [demo_sample (fun i j => BitVec.ofNat 8 (3 * j + i)) hr hc, demo_sample (fun i j => BitVec.ofNat 8 (3 * i + j)) hc hr]
  · obtain ⟨hr, hc⟩ := bound r c h
    rw [demo_sample (fun i j => BitVec.ofNat 8 (i * j)) hr hc, demo_sample (fun i j => BitVec.ofNat 8 (i * j)) hc hr,
      Nat.mul_comm]

/-- The operands of the right half of the demo block of width `w`: half as wide, `w / 2` columns further right. -/
def rightHalf (w : Nat) : Operands := { demoOperands (w / 2) 0 with srcPtr := BitVec.ofNat 32 (136 + w / 2) }

/-- The last row, the first and the last column of each half, on states that differ in `STATUS`. -/
theorem witness_WidthsSideBySide : ∀ w : Nat, w = 8 ∨ w = 16 →
    let s := demo zeros w 0
    let left := ({ demo zeros (w / 2) 0 with status := 0x16 } : State)
    let right := ({ s with x := rightHalf w, status := 0x16 } : State)
    (blockHeight s.x ≤ 16 ∧ 3 < blockHeight s.x) ∧
    (left.mem = s.mem ∧ left.x.height = s.x.height ∧ (0 < w / 2 ∧ w / 2 - 1 < w / 2) ∧ sourceView left.x = sourceView s.x) ∧
    (right.mem = s.mem ∧ right.x.height = s.x.height ∧ (w / 2 ≤ w / 2 ∧ w / 2 < w) ∧ (w / 2 ≤ w - 1 ∧ w - 1 < w) ∧
      sourceView right.x = viewShift (sourceView s.x) 0 ((w / 2 : Nat) : Int)) := by
  intro w hw s left right
  have h4 : blockHeight s.x = 4 := rfl
  refine ⟨by omega, ⟨rfl, rfl, by omega, ?_⟩, rfl, rfl, by omega, by omega, ?_⟩
  · exact (demo_source _ 0).trans (demo_source w 0).symm
  · rcases hw with rfl | rfl <;> decide

/-- Every width, every shift and every list of terms: the demo state meets the hypotheses of the unit rows. -/
theorem demo_unit (ts : List Term) {w : Nat} (hw : w = 4 ∨ w = 8 ∨ w = 16) :
    widthLegal (demo zeros w 0).x.width = true ∧ InContract (demo zeros w 0).x.width.toNat ts (demo zeros w 0) := by
  obtain ⟨h1, h2⟩ := demo_width zeros hw 0
  rw [h1]
  exact ⟨h2, demo_inContract hw rfl rfl ts⟩

theorem witness_CopyCompletes (dr dc : Bool) : ∀ w : Nat, w = 4 ∨ w = 8 ∨ w = 16 →
    widthLegal (demo zeros w 0).x.width = true ∧
    InContract (demo zeros w 0).x.width.toNat [{ op := .copy, dr := dr, dc := dc }] (demo zeros w 0) := fun _ => demo_unit _

theorem witness_FiltHCompletes (dr dc : Bool) : ∀ w : Nat, w = 4 ∨ w = 8 ∨ w = 16 →
    widthLegal (demo zeros w 0).x.width = true ∧
    InContract (demo zeros w 0).x.width.toNat [{ op := .filtH, dr := dr, dc := dc }] (demo zeros w 0) := fun _ => demo_unit _

theorem witness_FiltVCompletes (dr dc : Bool) : ∀ w : Nat, w = 4 ∨ w = 8 ∨ w = 16 →
    widthLegal (demo zeros w 0).x.width = true ∧
    InContract (demo zeros w 0).x.width.toNat [{ op := .filtV, dr := dr, dc := dc }] (demo zeros w 0) := fun _ => demo_unit _

theorem witness_FiltCCompletes (dr dc : Bool) : ∀ w : Nat, w = 4 ∨ w = 8 ∨ w = 16 →
    widthLegal (demo zeros w 0).x.width = true ∧
    InContract (demo zeros w 0).x.width.toNat [{ op := .filtC, dr := dr, dc := dc }] (demo zeros w 0) := fun _ => demo_unit _

theorem witness_AvgCompletes (a b : Term) : ∀ w : Nat, w = 4 ∨ w = 8 ∨ w = 16 →
    widthLegal (demo zeros w 0).x.width = true ∧
    InContract (demo zeros w 0).x.width.toNat [a, b] (demo zeros w 0) := fun _ => demo_unit _

/-- Widths around the legal ones. -/
theorem witness_UnitRowsNeedDispatchedWidth : ∀ w ∈ [0, 3, 5, 7, 9, 15, 17, 32],
    widthLegal (demo zeros w 0).x.width = false := by
  intro w hw
  simp only [List.mem_cons, List.not_mem_nil, or_false] at hw
  rcases hw with rfl | rfl | rfl | rfl | rfl | rfl | rfl | rfl <;> rfl

/-- The demo state at each width meets the hypotheses of a case with the terms `ts`. -/
theorem demo_case (ts : List Term) : ∀ w : Nat, w = 4 ∨ w = 8 ∨ w = 16 →
    (demo zeros w 0).rom.words = Config.romDoc ∧ InContract w ts (demo zeros w 0) :=
  fun _ hw => ⟨rfl, demo_inContract hw rfl rfl ts⟩

theorem witness_CaseV0H0Copy : ∀ w : Nat, w = 4 ∨ w = 8 ∨ w = 16 →
    (demo zeros w 0).rom.words = Config.romDoc ∧ InContract w [plain .copy] (demo zeros w 0) := demo_case _

theorem witness_CaseV0H1AverageCopyH : ∀ w : Nat, w = 4 ∨ w = 8 ∨ w = 16 →
    (demo zeros w 0).rom.words = Config.romDoc ∧ InContract w [plain .copy, plain .filtH] (demo zeros w 0) := demo_case _

theorem witness_CaseV0H2H : ∀ w : Nat, w = 4 ∨ w = 8 ∨ w = 16 →
    (demo zeros w 0).rom.words = Config.romDoc ∧ InContract w [plain .filtH] (demo zeros w 0) := demo_case _

theorem witness_CaseV0H3AverageCopyNextColH : ∀ w : Nat, w = 4 ∨ w = 8 ∨ w = 16 →
    (demo zeros w 0).rom.words = Config.romDoc ∧ InContract w [nextCol .copy, plain .filtH] (demo zeros w 0) := demo_case _

theorem witness_CaseV1H0AverageCopyV : ∀ w : Nat, w = 4 ∨ w = 8 ∨ w = 16 →
    (demo zeros w 0).rom.words = Config.romDoc ∧ InContract w [plain .copy, plain .filtV] (demo zeros w 0) := demo_case _

theorem witness_CaseV1H1AverageVH : ∀ w : Nat, w = 4 ∨ w = 8 ∨ w = 16 →
    (demo zeros w 0).rom.words = Config.romDoc ∧ InContract w [plain .filtV, plain .filtH] (demo zeros w 0) := demo_case _

theorem witness_CaseV1H2AverageCV : ∀ w : Nat, w = 4 ∨ w = 8 ∨ w = 16 →
    (demo zeros w 0).rom.words = Config.romDoc ∧ InContract w [plain .filtC, plain .filtV] (demo zeros w 0) := demo_case _

theorem witness_CaseV1H3AverageVHNextCol : ∀ w : Nat, w = 4 ∨ w = 8 ∨ w = 16 →
    (demo zeros w 0).rom.words = Config.romDoc ∧ InContract w [plain .filtV, nextCol .filtH] (demo zeros w 0) := demo_case _

theorem witness_CaseV2H0V : ∀ w : Nat, w = 4 ∨ w = 8 ∨ w = 16 →
    (demo zeros w 0).rom.words = Config.romDoc ∧ InContract w [plain .filtV] (demo zeros w 0) := demo_case _

theorem witness_CaseV2H1AverageCVNextCol : ∀ w : Nat, w = 4 ∨ w = 8 ∨ w = 16 →
    (demo zeros w 0).rom.words = Config.romDoc ∧ InContract w [plain .filtC, nextCol .filtV] (demo zeros w 0) := demo_case _

theorem witness_CaseV2H2C : ∀ w : Nat, w = 4 ∨ w = 8 ∨ w = 16 →
    (demo zeros w 0).rom.words = Config.romDoc ∧ InContract w [plain .filtC] (demo zeros w 0) := demo_case _

theorem witness_CaseV2H3AverageCVNextCol : ∀ w : Nat, w = 4 ∨ w = 8 ∨ w = 16 →
    (demo zeros w 0).rom.words = Config.romDoc ∧ InContract w [plain .filtC, nextCol .filtV] (demo zeros w 0) := demo_case _

theorem witness_CaseV3H0AverageCopyNextRowV : ∀ w : Nat, w = 4 ∨ w = 8 ∨ w = 16 →
    (demo zeros w 0).rom.words = Config.romDoc ∧ InContract w [nextRow .copy, plain .filtV] (demo zeros w 0) := demo_case _

theorem witness_CaseV3H1AverageVHNextRow : ∀ w : Nat, w = 4 ∨ w = 8 ∨ w = 16 →
    (demo zeros w 0).rom.words = Config.romDoc ∧ InContract w [plain .filtV, nextRow .filtH] (demo zeros w 0) := demo_case _

theorem witness_CaseV3H2AverageCVNextRow : ∀ w : Nat, w = 4 ∨ w = 8 ∨ w = 16 →
    (demo zeros w 0).rom.words = Config.romDoc ∧ InContract w [plain .filtC, nextRow .filtV] (demo zeros w 0) := demo_case _

theorem witness_CaseV3H3AverageVNextRowHNextRowCol : ∀ w : Nat, w = 4 ∨ w = 8 ∨ w = 16 →
    (demo zeros w 0).rom.words = Config.romDoc ∧ InContract w [nextRow .filtV, nextRowCol .filtH] (demo zeros w 0) := demo_case _

/-- Every width and every pair of phases. -/
theorem witness_PredictLumaWritesPrediction (p : BitVec 4) : ∀ w : Nat, w = 4 ∨ w = 8 ∨ w = 16 →
    widthLegal (demoOperands w p).width = true ∧
    InContract (demoOperands w p).width.toNat
      (recipeTerms (romWord (demo zeros w p).rom.words (phaseIndex (demoOperands w p))))
      (issueCommand (demoOperands w p) (demo zeros w p)) := by
  intro w hw
  obtain ⟨h1, h2⟩ := demo_width zeros hw p
  refine ⟨h2, ?_⟩
  rw [show (demoOperands w p).width.toNat = w from h1]
  exact demo_issued hw p _ _ rfl

theorem witness_UnsupportedWidthRaises : ∀ w ∈ [0, 3, 5, 7, 9, 15, 17, 20, 4294967295],
    (withWidth w).width ≠ 4 ∧ (withWidth w).width ≠ 8 ∧ (withWidth w).width ≠ 16 := by decide

/-- The first and the last key. -/
theorem witness_PredictRunsItsDispatchKey :
    (dispatchKey (demoOperands 4 0) = some 0b000000 ∧ decode (.k6 0b000000) = .ok .mcV0H0W4) ∧
    (dispatchKey (demoOperands 16 15) = some 0b101111 ∧ decode (.k6 0b101111) = .ok .mcV3H3W16) := by decide

/-- The first and the last key; the least word of the ROM is a single term, the last an average. -/
theorem witness_CaseRunsItsRecipeWord :
    (decode (.k6 0b101111) = .ok .mcV3H3W16 ∧
      (demo zeros 16 15).x.width.toNat = selectedWidth ((0b101111 : BitVec 6).extractLsb' 4 2)) ∧
    (decode (.k6 0b000000) = .ok .mcV0H0W4 ∧
      (demo zeros 4 0).x.width.toNat = selectedWidth ((0b000000 : BitVec 6).extractLsb' 4 2)) :=
  ⟨⟨by decide, by decide⟩, ⟨by decide, by decide⟩⟩

/-! ### The clauses of OutOfContractStops, all at phase (0,0), whose recipe is copy -/

/-- The demo operands at width 4 with another height. -/
def withHeight (h : Nat) : Operands := { demoOperands 4 0 with height := BitVec.ofNat 32 h }

/-- The demo operands at width 4 with another destination. -/
def withDest (a : Nat) : Operands := { demoOperands 4 0 with dstPtr := BitVec.ofNat 32 a }

theorem witness_OutOfContractStops_shared : ∀ d ∈ [withHeight 0, withDest 0, withHeight 17],
    widthLegal d.width = true ∧ recipeTerms (romWord (demo zeros 4 0).rom.words (phaseIndex d)) = [plain .copy] := by
  intro d hd
  simp only [List.mem_cons, List.not_mem_nil, or_false] at hd
  rcases hd with rfl | rfl | rfl <;> decide

/-- Heights 0 and 17, and a height that width 4 does not allow. -/
theorem witness_OutOfContractStops_height : ∀ h ∈ [0, 17, 6],
    ¬ (1 ≤ blockHeight (withHeight h) ∧ blockHeight (withHeight h) ≤ 16 ∧
      (4 = 4 → blockHeight (withHeight h) % 4 = 0)) := by decide

/-- A stride one below the width. -/
theorem witness_OutOfContractStops_stride :
    (1 ≤ blockHeight (demoOperands 4 0) ∧ blockHeight (demoOperands 4 0) ≤ 16 ∧
      (4 = 4 → blockHeight (demoOperands 4 0) % 4 = 0)) ∧
    ¬ (4 ≤ ({ demoOperands 4 0 with dstStride := 3 } : Operands).srcStride.toNat ∧
      4 ≤ ({ demoOperands 4 0 with dstStride := 3 } : Operands).dstStride.toNat) := by decide

/-- A destination whose second sample is the first integer that is no address; height and strides legal. -/
theorem witness_OutOfContractStops_range :
    (1 ≤ blockHeight (withDest 4294967295) ∧ blockHeight (withDest 4294967295) ≤ 16 ∧
      (4 = 4 → blockHeight (withDest 4294967295) % 4 = 0)) ∧
    (4 ≤ (withDest 4294967295).srcStride.toNat ∧ 4 ≤ (withDest 4294967295).dstStride.toNat) ∧
    ¬ ∀ a, (a ∈ commandBases (withDest 4294967295) [plain .copy] ∨ Reads (withDest 4294967295) 4 [plain .copy] a ∨
      Writes (withDest 4294967295) 4 a) → 0 ≤ a ∧ a < Config.addressEnd := by
  refine ⟨by decide, by decide, fun h => ?_⟩
  have w : Writes (withDest 4294967295) 4 4294967296 := ⟨0, 1, ⟨by decide, by omega⟩, by decide⟩
  have := (h 4294967296 (.inr (.inr w))).2
  exact absurd this (by decide)

/-- The demo command's addresses are in range; in an empty memory none is valid. -/
theorem witness_OutOfContractStops_valid :
    (∀ a, (a ∈ commandBases (demoOperands 4 0) [plain .copy] ∨ Reads (demoOperands 4 0) 4 [plain .copy] a ∨
      Writes (demoOperands 4 0) 4 a) → 0 ≤ a ∧ a < Config.addressEnd) ∧
    ¬ ∀ a, (Reads (demoOperands 4 0) 4 [plain .copy] a ∨ Writes (demoOperands 4 0) 4 a) → Valid State.reset.mem a := by
  have c := demo_inContract (s := demo zeros 4 0) (.inl rfl) rfl rfl [plain .copy]
  refine ⟨?_, fun h => ?_⟩
  · rintro a (ha | ha | ha)
    · exact c.bases a ha
    · exact (c.reads a ha).1
    · exact (c.writes a ha).1
  · have w : Writes (demoOperands 4 0) 4 512 := ⟨0, 0, ⟨by decide, by omega⟩, by decide⟩
    exact absurd (h 512 (.inr w)).2 (by decide)

/-- A destination on top of the source: everything in range and valid, and the footprints meet. -/
theorem witness_OutOfContractStops_overlap :
    (1 ≤ blockHeight (withDest 136) ∧ blockHeight (withDest 136) ≤ 16 ∧ (4 = 4 → blockHeight (withDest 136) % 4 = 0)) ∧
    (4 ≤ (withDest 136).srcStride.toNat ∧ 4 ≤ (withDest 136).dstStride.toNat) ∧
    (∀ a, (a ∈ commandBases (withDest 136) [plain .copy] ∨ Reads (withDest 136) 4 [plain .copy] a ∨
      Writes (withDest 136) 4 a) → 0 ≤ a ∧ a < Config.addressEnd) ∧
    (∀ a, (Reads (withDest 136) 4 [plain .copy] a ∨ Writes (withDest 136) 4 a) → Valid (demo zeros 4 0).mem a) ∧
    (∃ a, Reads (withDest 136) 4 [plain .copy] a ∧ Writes (withDest 136) 4 a) := by
  have c := demo_inContract (s := demo zeros 4 0) (.inl rfl) rfl rfl [plain .copy]
  have reads : ∀ a, Reads (withDest 136) 4 [plain .copy] a → Valid (demo zeros 4 0).mem a := c.reads
  have writes : ∀ a, Writes (withDest 136) 4 a → Valid (demo zeros 4 0).mem a := by
    rintro a ⟨r, k, ⟨hr, hk⟩, rfl⟩
    have hr : r < 4 := hr
    have e : viewAddr (destView (withDest 136)) r k = 136 + r * 16 + k := rfl
    rw [e]
    exact demo_valid (f := zeros) rfl (by omega) (by omega)
  refine ⟨by decide, by decide, ?_, ?_, 136, ?_, ?_⟩
  · rintro a (ha | ha | ha)
    · have e : commandBases (withDest 136) [plain .copy] = [136, 136, 136] := by decide
      rw [e] at ha
      simp only [List.mem_cons, List.not_mem_nil, or_false, or_self] at ha
      subst ha
      decide
    · exact (reads a ha).1
    · exact (writes a ha).1
  · rintro a (ha | ha)
    · exact reads a ha
    · exact writes a ha
  · exact ⟨plain .copy, by simp, 0, 0, ⟨⟨by decide, by decide⟩, ⟨by decide, by decide⟩⟩, by decide⟩
  · exact ⟨0, 0, ⟨by decide, by omega⟩, by decide⟩

/-- The samples of the demo memory. -/
theorem demo_sampleAt (f : Nat → Byte) {a : Int} (h0 : 0 ≤ a) (h1 : a < 1024) : sampleAt (demoMem f) a = f a.toNat := by
  unfold sampleAt demoMem
  rw [memFind_range, if_pos (by omega), Option.getD_some]

theorem demo_reads_range {w : Nat} (hw : w = 4 ∨ w = 8 ∨ w = 16) {p : BitVec 4} {ts : List Term} {a : Int}
    (h : Reads (demoOperands w p) w ts a) : 0 ≤ a ∧ a < 512 := by
  obtain ⟨t, -, r, c, h, rfl⟩ := h
  rw [demo_source]
  obtain ⟨k, e, hk⟩ := demo_read hw (t := t) (r := r) (c := c) h
  rw [e]
  exact hk

/-- Two memories that differ at the destination and behind it, and two states that differ in STATUS. -/
theorem witness_OnlyReadFootprintMatters (p : BitVec 4) : ∀ w : Nat, w = 4 ∨ w = 8 ∨ w = 16 →
    let d := demoOperands w p
    let s := demo zeros w p
    let s' := ({ demo (fun a => if a < 512 then 0 else 255) w p with status := 0x16 } : State)
    let ts := recipeTerms (romWord s.rom.words (phaseIndex d))
    s.rom = s'.rom ∧ widthLegal d.width = true ∧
    InContract d.width.toNat ts (issueCommand d s) ∧ InContract d.width.toNat ts (issueCommand d s') ∧
    (∀ a, Reads d d.width.toNat ts a → sampleAt s.mem a = sampleAt s'.mem a) ∧
    memFind s.mem 1023 ≠ memFind s'.mem 1023 := by
  intro w hw d s s' ts
  obtain ⟨h1, h2⟩ := demo_width zeros hw p
  have e : d.width.toNat = w := h1
  rw [e]
  refine ⟨rfl, h2, demo_issued hw p _ _ rfl, demo_issued hw p _ _ rfl, fun a ha => ?_, ?_⟩
  · have := demo_reads_range hw ha
    show sampleAt (demoMem _) a = sampleAt (demoMem _) a
    rw [demo_sampleAt _ this.1 (by omega), demo_sampleAt _ this.1 (by omega), if_pos (by omega)]
  · show memFind (demoMem _) 1023 ≠ memFind (demoMem _) 1023
    unfold demoMem
    rw [memFind_range, memFind_range]
    decide

theorem witness_ConstantInputGivesConstantOutput (c : Byte) (p : BitVec 4) : ∀ w : Nat, w = 4 ∨ w = 8 ∨ w = 16 →
    let d := demoOperands w p
    let s := demo (fun _ => c) w p
    let ts := recipeTerms (romWord s.rom.words (phaseIndex d))
    widthLegal d.width = true ∧
    InContract d.width.toNat ts (issueCommand d s) ∧ ∀ a, Reads d d.width.toNat ts a → sampleAt s.mem a = c := by
  intro w hw d s ts
  obtain ⟨h1, h2⟩ := demo_width zeros hw p
  have e : d.width.toNat = w := h1
  rw [e]
  refine ⟨h2, demo_issued hw p _ _ rfl, fun a ha => ?_⟩
  have := demo_reads_range hw ha
  exact demo_sampleAt _ this.1 (by omega)

/-- A unit row and the command each answer a next state on the demo. -/
theorem witness_RowsKeepEngineState :
    (∃ t, exec (.copy true true) (demo zeros 16 0) = .next t) ∧
    (∃ t, exec (.predictLuma (demoOperands 4 6)) (demo zeros 4 6) = .next t) := by
  refine ⟨?_, demo_run 4 (.inl rfl) 6 [] []⟩
  obtain ⟨h1, h2⟩ := demo_unit [nextRowCol .copy] (w := 16) (.inr (.inr rfl))
  obtain ⟨t, e, -⟩ := runSingle_produces h2 (by decide)
  refine ⟨t, ?_⟩
  simp only [exec, execCopy]
  rw [withBlockWidth_legal h1]
  exact e

/-- The same runs, from a memory in canonical form. -/
theorem witness_ExecKeepsValidLocations :
    (∃ t, exec (.copy true true) (demo zeros 16 0) = .next t) ∧ memWellFormed (demo zeros 16 0).mem :=
  ⟨witness_RowsKeepEngineState.1, demoMem_wellFormed zeros⟩

/-- Each level of the sequencer, with an empty agenda and with the engine's turn at its head. -/
theorem witness_StepRunsFetchedInstruction :
    ((demo zeros 4 0).seq = .run ∧ (demo zeros 4 0).agenda = [] ∧
      decode (fetchCode (demo zeros 4 0)) = .ok (.predictLuma (demoOperands 4 0))) ∧
    (let s := ({ demo zeros 4 0 with slot := .key 0, agenda := [.run, .decode] } : State);
      s.seq = .run ∧ (∃ rest, s.agenda = .run :: rest) ∧ decode (fetchCode s) = .ok .mcV0H0W4) ∧
    (let s := ({ demo zeros 4 0 with slot := .recipe 0x185 } : State);
      decode (fetchCode s) = .ok (.avg (plain .filtV) (nextCol .filtH))) ∧
    (let s := ({ demo zeros 4 0 with slot := .term 0xF } : State);
      decode (fetchCode s) = .ok (.filtC true true)) :=
  ⟨⟨rfl, rfl, rfl⟩, ⟨rfl, ⟨_, rfl⟩, rfl⟩, rfl, rfl⟩

/-- A legal width decodes one level further and keeps running; width 5 ends the command. -/
theorem witness_DecodingFurtherKeepsOutcome :
    (EngineInv (demo zeros 4 0) ∧ (demo zeros 4 0).seq = .run ∧ ∃ t, decodeTurn (demo zeros 4 0) = .next t ∧ t.seq = .run) ∧
    (EngineInv (demo zeros 5 0) ∧ (demo zeros 5 0).seq = .run ∧ ∃ t, decodeTurn (demo zeros 5 0) = .next t ∧ t.seq = .idle) :=
  ⟨⟨demo_inv _ _ _, rfl, _, rfl, rfl⟩, ⟨demo_inv _ _ _, rfl, _, rfl, rfl⟩⟩

theorem witness_IssueStartsCommand :
    let s := ({ State.reset with agenda := [.host (.issue (withWidth 5)), .run] } : State)
    s.seq = .idle ∧ s.agenda = .host (.issue (withWidth 5)) :: [.run] := ⟨rfl, rfl⟩

/-- An issue and a read of the last operand register wait while the demo command runs, and the engine completes it. -/
theorem witness_BusyTransactionsWait :
    (let s := ({ demo zeros 8 9 with agenda := [.host (.issue (withWidth 4))] } : State);
      s.seq = .run ∧ s.agenda = .host (.issue (withWidth 4)) :: [] ∧ ∃ t, step s = .next t) ∧
    (let s := ({ demo zeros 8 9 with agenda := [.host (.readOperand 7)] } : State);
      s.seq = .run ∧ s.agenda = .host (.readOperand 7) :: [] ∧ ∃ t, step s = .next t) :=
  ⟨⟨rfl, rfl, demo_runs 8 (.inr (.inl rfl)) 9 _⟩, ⟨rfl, rfl, demo_runs 8 (.inr (.inl rfl)) 9 _⟩⟩

/-- A status read while running, and reads of the first and the last operand register while idle. -/
theorem witness_HostReadsAreAnswered :
    ({ demo zeros 4 0 with agenda := [.host .readStatus] } : State).agenda = .host .readStatus :: [] ∧
    (∀ i : Fin 8, ({ State.reset with agenda := [.host (.readOperand i)] } : State).seq = .idle ∧
      ({ State.reset with agenda := [.host (.readOperand i)] } : State).agenda = .host (.readOperand i) :: []) :=
  ⟨rfl, fun _ => ⟨rfl, rfl⟩⟩

/-- A write at the last address, a read of a valid location, a read of an empty memory, a write at the first integer that
is no address. -/
theorem witness_HostSampleAccesses :
    (let s := ({ State.reset with agenda := [.host (.writeSample 4294967295 7)] } : State);
      s.seq = .idle ∧ 4294967295 < Config.addressEnd ∧ s.agenda = .host (.writeSample 4294967295 7) :: []) ∧
    (let s := ({ State.reset with mem := [(5, 9)], agenda := [.host (.readSample 5)] } : State);
      s.seq = .idle ∧ memFind s.mem 5 = some 9 ∧ s.agenda = .host (.readSample 5) :: []) ∧
    (let s := ({ State.reset with agenda := [.host (.readSample 0)] } : State);
      s.seq = .idle ∧ memFind s.mem 0 = none ∧ s.agenda = .host (.readSample 0) :: []) ∧
    (let s := ({ State.reset with agenda := [.host (.writeSample 4294967296 7)] } : State);
      s.seq = .idle ∧ Config.addressEnd ≤ 4294967296 ∧ s.agenda = .host (.writeSample 4294967296 7) :: []) :=
  ⟨⟨rfl, by decide, rfl⟩, ⟨rfl, rfl, rfl⟩, ⟨rfl, rfl, rfl⟩, ⟨rfl, by decide, rfl⟩⟩

/-- The demo copy reads 136 and writes 512; 600 lies in neither footprint; the engine's turn answers a next state before each
access, and with 512 and 136 raced; then the sample at row 0, column 1 reads no raced location, nor does the one at row 0,
column 0 when 512 alone is raced. -/
theorem witness_HostRacesAreFreeChoices :
    ((demo zeros 4 0).seq = .run ∧ runningCommand (demo zeros 4 0) = some (4, [plain .copy])) ∧
    (136 < Config.addressEnd ∧ Reads (demo zeros 4 0).x 4 [plain .copy] (136 : Nat)) ∧
    (512 < Config.addressEnd ∧ Writes (demo zeros 4 0).x 4 (512 : Nat) ∧ memFind (demo zeros 4 0).mem 512 = some 0) ∧
    (600 < Config.addressEnd ∧ ¬ Reads (demo zeros 4 0).x 4 [plain .copy] (600 : Nat) ∧
      ¬ Writes (demo zeros 4 0).x 4 (600 : Nat) ∧ memFind (demo zeros 4 0).mem 600 = some 0) ∧
    (∃ u, engineTurn { demo zeros 4 0 with agenda := [] } = .next u) ∧
    (∀ raced, ∃ u, runTurn { demo zeros 4 0 with agenda := [], raced := raced } = .next u) ∧
    (∀ b ∈ [512, 136], ¬ ReadsFor (demo zeros 4 0).x [plain .copy] 0 1 (b : Nat)) ∧
    (∀ b ∈ [512], ¬ ReadsFor (demo zeros 4 0).x [plain .copy] 0 0 (b : Nat)) := by
  have far : ¬ Reads (demoOperands 4 0) 4 [plain .copy] (600 : Nat) := fun k => by
    have := demo_reads_range (.inl rfl) k
    omega
  have find : ∀ a < 1024, memFind (demo zeros 4 0).mem a = some 0 := fun a h => by
    show memFind (demoMem zeros) a = some 0
    unfold demoMem
    rw [memFind_range, if_pos h]
  have one : ∀ (c : Nat) (a : Int), ReadsFor (demo zeros 4 0).x [plain .copy] 0 c a → a = 136 + c := by
    rintro c a ⟨t, ht, i, j, h, rfl⟩
    obtain rfl := List.mem_singleton.1 ht
    have h : (0 ≤ i ∧ i < 1) ∧ (0 ≤ j ∧ j < 1) := h
    have e : sourceView (demo zeros 4 0).x = { base := 136, stride := 32 } := demo_source 4 0
    rw [e]
    simp only [viewAddr, termView, viewShift, shiftOf, Bool.false_eq_true, if_false]
    omega
  refine ⟨⟨rfl, by decide⟩, ⟨by decide, ?_⟩, ⟨by decide, ?_, find 512 (by decide)⟩,
    ⟨by decide, far, ?_, find 600 (by decide)⟩, demo_runs 4 (.inl rfl) 0 [], demo_run 4 (.inl rfl) 0 [], ?_, ?_⟩
  · exact ⟨plain .copy, by simp, 0, 0, ⟨⟨by decide, by decide⟩, ⟨by decide, by decide⟩⟩, by decide⟩
  · exact ⟨0, 0, ⟨by decide, by omega⟩, by decide⟩
  · rintro ⟨r, c, ⟨hr, hc⟩, e⟩
    have hr : r < 4 := hr
    have e' : viewAddr (destView (demo zeros 4 0).x) r c = 512 + r * 16 + c := rfl
    omega
  · intro b hb k
    have := one _ _ k
    simp only [List.mem_cons, List.not_mem_nil, or_false] at hb
    omega
  · intro b hb k
    have := one _ _ k
    simp only [List.mem_cons, List.not_mem_nil, or_false] at hb
    omega

theorem witness_ResetOfIdleEngine :
    let s := ({ State.reset with agenda := [.host .reset] } : State)
    s.seq = .idle ∧ s.agenda = .host .reset :: [] := ⟨rfl, rfl⟩

theorem witness_ResetAbandonsRunningCommand :
    let s := ({ demo zeros 16 15 with agenda := [.host .reset, .decode] } : State)
    s.seq = .run ∧ s.agenda = .host .reset :: [.decode] ∧ ∃ u, engineTurn { s with agenda := [.decode] } = .next u :=
  ⟨rfl, rfl, demo_runs 16 (.inr (.inr rfl)) 15 [.decode]⟩

/-- A running command's step, and an idle machine's. -/
theorem witness_EveryStepKeepsInvariant :
    (EngineInv (demo zeros 4 10) ∧ ∃ t, step (demo zeros 4 10) = .next t) ∧
    (EngineInv State.reset ∧ ∃ t, step State.reset = .next t) := by
  refine ⟨⟨demo_inv _ _ _, demo_runs 4 (.inl rfl) 10 []⟩, ⟨⟨fun h => (by cases h), fun _ => ⟨.inl rfl, rfl⟩, trivial,
    fun _ h => (by cases h), phaseRom.wellFormed, reset_mem_wellFormed⟩, _, rfl⟩⟩

theorem witness_RomNeverChanges : ∃ t, step (demo zeros 4 10) = .next t := demo_runs 4 (.inl rfl) 10 []

/-- The smallest block, and the greatest; a read of each kind of case. -/
theorem witness_PaddingWindowSuffices : (1 ≤ 1 ∧ 1 ≤ 16) ∧
    ((0 : BitVec 4) ≠ 7 ∧ (0 : BitVec 4) ≠ 14 ∧ (0 : BitVec 4) ≠ 15 ∧
      plain .copy ∈ recipeTerms (romWord Config.romDoc 0) ∧ InReadRange .copy 1 1 0 0) ∧
    ((10 : BitVec 4) ≠ 7 ∧ (10 : BitVec 4) ≠ 14 ∧ (10 : BitVec 4) ≠ 15 ∧
      plain .filtC ∈ recipeTerms (romWord Config.romDoc 10) ∧ InReadRange .filtC 16 16 18 (-2)) ∧
    ((7 : BitVec 4) = 7 ∨ (7 : BitVec 4) = 15) ∧ ((14 : BitVec 4) = 14 ∨ (14 : BitVec 4) = 15) := by
  refine ⟨by decide, ⟨by decide, by decide, by decide, by decide, ?_⟩, ⟨by decide, by decide, by decide, by decide, ?_⟩,
    by decide, by decide⟩
  · unfold InReadRange; decide
  · unfold InReadRange; decide

end Sys2Proof.Tests
end

section
/-! SUPPORT. The proofs of the scope family (00_scope.md): `encode` and `decode` are inverse form by form (30_encoding.md
R54 to R65), and `clip_u8` saturates (R9). -/

namespace Sys2Proof.Proofs

open Sys2Proof.Machine

/-! ## Terms, format S4 -/

@[simp] theorem decodeTerm_encodeTerm (t : Term) : decodeTerm (encodeTerm t) = t := by
  obtain ⟨op, dr, dc⟩ := t
  cases op <;> cases dr <;> cases dc <;> rfl

@[simp] theorem encodeTerm_decodeTerm (t : BitVec 4) : encodeTerm (decodeTerm t) = t := by
  revert t
  decide

@[simp] theorem encode_termInstr (t : Term) : encode t.instr = .s4 (encodeTerm t) := by
  obtain ⟨op, dr, dc⟩ := t
  cases op <;> rfl

theorem decode_encodeTerm (t : Term) : decode (.s4 (encodeTerm t)) = .ok t.instr := by
  simp only [decode, decodeTerm_encodeTerm]

/-! ## Recipes, format R9 -/

/-- The three fields of a recipe word, laid out as R58 says, are read back one by one. -/
@[simp] theorem decodeRecipe_encodeRecipe (r : Recipe) : decodeRecipe (encodeRecipe r) = r := by
  have avg : (encodeRecipe r).getLsbD 8 = r.avg := by
    rw [encodeRecipe, BitVec.getLsbD_append]
    simp
  have a : (encodeRecipe r).extractLsb' 4 4 = encodeTerm r.a := by
    rw [encodeRecipe, BitVec.extractLsb'_append_eq_of_add_le (by decide), BitVec.extractLsb'_append_eq_left]
  have b : (encodeRecipe r).extractLsb' 0 4 = encodeTerm r.b := by
    rw [encodeRecipe, BitVec.extractLsb'_append_eq_of_add_le (by decide), BitVec.extractLsb'_append_eq_right]
  simp only [decodeRecipe, avg, a, b, decodeTerm_encodeTerm]

/-- The three fields of a recipe word are the whole word. -/
@[simp] theorem encodeRecipe_decodeRecipe (r : BitVec 9) : encodeRecipe (decodeRecipe r) = r := by
  have avg : BitVec.ofBool (r.getLsbD 8) = r.extractLsb' 8 1 := by
    ext i hi
    obtain rfl : i = 0 := by omega
    simp
  simp only [encodeRecipe, decodeRecipe, encodeTerm_decodeTerm]
  calc BitVec.ofBool (r.getLsbD 8) ++ (r.extractLsb' 4 4 ++ r.extractLsb' 0 4)
    _ = r.extractLsb' 8 1 ++ r.extractLsb' 0 8 :=
      congrArg₂ _ avg (BitVec.extractLsb'_append_extractLsb'_eq_extractLsb' rfl)
    _ = r.extractLsb' 0 9 := BitVec.extractLsb'_append_extractLsb'_eq_extractLsb' rfl
    _ = r := BitVec.extractLsb'_eq_self

/-- An averaging recipe word is the row `AVG` with its two terms: no such word is reserved (R65). -/
theorem decodeRecipeWord_of_avg {r : BitVec 9} (h : (decodeRecipe r).avg = true) :
    decodeRecipeWord r = .ok (.avg (decodeRecipe r).a (decodeRecipe r).b) := by
  simp only [decodeRecipeWord, Recipe.wellFormed, h, Bool.true_or, if_true]

theorem decodeRecipeWord_encodeRecipe (a b : Term) :
    decodeRecipeWord (encodeRecipe { avg := true, a := a, b := b }) = .ok (.avg a b) := by
  rw [decodeRecipeWord_of_avg (by rw [decodeRecipe_encodeRecipe]), decodeRecipe_encodeRecipe]

/-- The code of the row `AVG` with the terms of an averaging word is that word. -/
theorem encode_avg_of_avg {r : BitVec 9} (h : (decodeRecipe r).avg = true) :
    encode (.avg (decodeRecipe r).a (decodeRecipe r).b) = .r9 r := by
  have e : ({ avg := true, a := (decodeRecipe r).a, b := (decodeRecipe r).b } : Recipe) = decodeRecipe r := by rw [← h]
  rw [encode, e, encodeRecipe_decodeRecipe]

/-! ## Descriptors, format D8 -/

theorem encode_of_decodeDescriptor {ws : List Word} {i : Instr} (h : decodeDescriptor ws = .ok i) :
    encode i = .d8 ws := by
  unfold decodeDescriptor at h
  split at h <;> cases h
  rfl

/-! ## The two round trips -/

/-- Settles O1: a term row goes through S4, `AVG` through R9, and the command and the 48 dispatch keys are read off their
constant layouts. -/
theorem decodeInvertsEncode : Obligations.DecodeInvertsEncode := by
  intro i
  cases i with
  | predictLuma d => rfl
  | copy dr dc => exact decode_encodeTerm { op := .copy, dr := dr, dc := dc }
  | filtH dr dc => exact decode_encodeTerm { op := .filtH, dr := dr, dc := dc }
  | filtV dr dc => exact decode_encodeTerm { op := .filtV, dr := dr, dc := dc }
  | filtC dr dc => exact decode_encodeTerm { op := .filtC, dr := dr, dc := dc }
  | avg a b => exact decodeRecipeWord_encodeRecipe a b
  | _ => rfl

/-- Settles O2, form by form; the dispatch keys by `encode_of_decodeKey`. -/
theorem encodeInvertsDecode : Obligations.EncodeInvertsDecode := by
  intro c i h avg
  cases c with
  | d8 ws => exact encode_of_decodeDescriptor h
  | k6 k => exact encode_of_decodeKey h
  | s4 t =>
    cases h
    rw [encode_termInstr, encodeTerm_decodeTerm]
  | r9 r =>
    have one : (decodeRecipe r).avg = true := avg r rfl
    cases (decodeRecipeWord_of_avg one).symm.trans h
    exact encode_avg_of_avg one

/-! ## Clipping -/

theorem clipU8_of_neg {v : Int} (h : v < 0) : clipU8 v = 0 := if_pos h

theorem clipU8_of_gt {v : Int} (h : v > 255) : clipU8 v = 255 := by
  have nonneg : ¬ v < 0 := by omega
  simp only [clipU8, nonneg, h, if_false, if_true]

/-- Between the bounds the value fits a byte: it is its own residue modulo 256. -/
theorem clipU8_toNat_of_fits {v : Int} (low : ¬ v < 0) (high : ¬ v > 255) : ((clipU8 v).toNat : Int) = v := by
  have residue : v % 256 = v := Int.emod_eq_of_lt (by omega) (by omega)
  simp only [clipU8, low, high, if_false]
  rw [BitVec.toNat_ofInt]
  omega

/-- Settles O7, one lemma for each of the three ranges. -/
theorem clipSaturates : Obligations.ClipSaturates := by
  intro v
  split
  · next neg => rw [clipU8_of_neg neg]; rfl
  · next low =>
    split
    · next big => rw [clipU8_of_gt big]; rfl
    · next high => exact clipU8_toNat_of_fits low high

end Sys2Proof.Proofs
end

section
/-! SUPPORT. What rows, turns and transactions can do when they answer a next state: one inversion lemma for each, from
which the state family below and later families derive what a step keeps. -/

namespace Sys2Proof.Proofs

open Sys2Proof.Machine Sys2Proof.Safety

/-! ## The values written to `STATUS` (10_state.md R20; 60_exceptions.md R141) -/

theorem statusIssued_eq : statusIssued = 0x01 := by decide

theorem statusCompleted_statusIssued : statusCompleted statusIssued = 0x02 := by decide

theorem statusFailed_eq : statusFailed = 0x16 := by decide

/-! ## Rows: a row other than `PREDICT_LUMA` runs one recipe -/

/-- `t` is what a recipe with the terms `ts` at width `w` leaves of `s`: within contract, one block written to the
destination, the engine's registers kept (20_memory.md R44; 10_state.md R16, R20, R21). -/
structure RecipeRan (w : Nat) (ts : List Term) (s t : State) : Prop where
  contract : InContract w ts s
  frame : EngineFrame s t
  mem : ∃ f, t.mem = writeBlock s.mem (destView s.x) w (blockHeight s.x) f

theorem recipeRan_of_runSingle {a : Term} {w : Nat} {s t : State} (h : runSingle a w s = .next t) :
    RecipeRan w [a] s t := by
  obtain ⟨contract, rfl⟩ := runSingle_eq_next.1 h
  exact ⟨contract, termToDest_frame a w s, _, termToDest_mem a w s⟩

theorem recipeRan_of_runRecipe {r : BitVec 9} {w : Nat} {s t : State} (h : runRecipe r w s = .next t) :
    RecipeRan w (recipeTerms r) s t := by
  obtain ⟨-, contract, -⟩ := runRecipe_eq_next h
  exact ⟨contract, runRecipe_frame h, runRecipe_mem h⟩

/-- A dispatch key's row runs the recipe word of its phases at the width it selects (30_encoding.md R56). -/
theorem exec_of_decodeKey {k : BitVec 6} {i : Instr} {s t : State} (d : decodeKey k = .ok i) (h : exec i s = .next t) :
    RecipeRan (selectedWidth (k.extractLsb' 4 2)) (recipeTerms (romWord s.rom.words (k.extractLsb' 0 4))) s t := by
  rw [exec_keyInstr d] at h
  exact recipeRan_of_runRecipe h

/-- A recipe word's row runs that recipe at the width in `WIDTH`. -/
theorem exec_of_decodeRecipeWord {r : BitVec 9} {i : Instr} {s t : State} (d : decodeRecipeWord r = .ok i)
    (h : exec i s = .next t) : widthLegal s.x.width = true ∧ RecipeRan s.x.width.toNat (recipeTerms r) s t := by
  rw [exec_recipeInstr d] at h
  obtain ⟨legal, h⟩ := withBlockWidth_eq_next h
  exact ⟨legal, recipeRan_of_runRecipe h⟩

/-- A term's row runs the recipe of that one term at the width in `WIDTH`. -/
theorem exec_of_term {a : Term} {s t : State} (h : exec a.instr s = .next t) :
    widthLegal s.x.width = true ∧ RecipeRan s.x.width.toNat [a] s t := by
  rw [exec_termInstr] at h
  obtain ⟨legal, h⟩ := withBlockWidth_eq_next h
  exact ⟨legal, recipeRan_of_runSingle h⟩

theorem predictLuma_of_decodeDescriptor {ws : List Word} {i : Instr} (h : decodeDescriptor ws = .ok i) :
    ∃ d, i = .predictLuma d := by
  unfold decodeDescriptor at h
  split at h <;> cases h
  exact ⟨_, rfl⟩

/-- Whatever row but `PREDICT_LUMA` answers a next state has run some recipe; which row it is, its code says. -/
theorem recipeRan_of_exec {i : Instr} (other : ∀ d, i ≠ .predictLuma d) {s t : State} (h : exec i s = .next t) :
    ∃ w ts, RecipeRan w ts s t := by
  have code : decode (encode i) = .ok i := decodeInvertsEncode i
  cases c : encode i with rw [c] at code
  | d8 ws =>
    obtain ⟨d, rfl⟩ := predictLuma_of_decodeDescriptor code
    exact absurd rfl (other d)
  | k6 k => exact ⟨_, _, exec_of_decodeKey code h⟩
  | s4 a =>
    cases code
    exact ⟨_, _, (exec_of_term h).2⟩
  | r9 r => exact ⟨_, _, (exec_of_decodeRecipeWord code h).2⟩

/-! ## `PREDICT_LUMA`: the one error, or its recipe and completion -/

theorem widthSelect_of_illegal {x : Word} (h : widthLegal x = false) : widthSelect x = none := by
  simp only [widthLegal, Bool.or_eq_false_iff, beq_eq_false_iff_ne] at h
  obtain ⟨⟨h4, h8⟩, h16⟩ := h
  simp only [widthSelect, h4, h8, h16, if_false]

theorem exec_predictLuma_illegal {d : Operands} (h : widthLegal d.width = false) (s : State) :
    exec (.predictLuma d) s = .next (raiseUnsupportedWidth (issueCommand d s)) := by
  simp only [exec, execPredictLuma, widthSelect_of_illegal h]

/-- Everything `PREDICT_LUMA` can do when it answers a next state (46_dispatcher.md R125, R128). -/
theorem exec_predictLuma_eq_next {d : Operands} {s t : State} (h : exec (.predictLuma d) s = .next t) :
    (widthLegal d.width = false ∧ t = raiseUnsupportedWidth (issueCommand d s)) ∨
    (widthLegal d.width = true ∧ ∃ u,
      RecipeRan d.width.toNat (recipeTerms (romWord s.rom.words (phaseIndex d))) (issueCommand d s) u ∧
        t = completeCommand u) := by
  cases legal : widthLegal d.width
  · rw [exec_predictLuma_illegal legal] at h
    cases h
    exact .inl ⟨rfl, rfl⟩
  · rw [exec_predictLuma legal] at h
    obtain ⟨u, run, e⟩ := andThen_eq_next.1 h
    cases e
    exact .inr ⟨rfl, u, recipeRan_of_runRecipe run, rfl⟩

/-! ## The end of a command -/

/-- `m` is a memory the running command of `s` can leave: untouched where it touches none, else with one block written
to its destination, within contract. -/
def MemEnds (s : State) (m : List Host.Cell) : Prop :=
  match runningCommand s with
  | none => m = s.mem
  | some (w, ts) => InContract w ts s ∧ ∃ f, m = writeBlock s.mem (destView s.x) w (blockHeight s.x) f

theorem memEnds_of_none {s : State} (run : runningCommand s = none) : MemEnds s s.mem := by
  simp only [MemEnds, run]

theorem memEnds_of_recipeRan {s u : State} {w : Nat} {ts : List Term} (run : runningCommand s = some (w, ts))
    (h : RecipeRan w ts s u) : MemEnds s u.mem := by
  simp only [MemEnds, run]
  exact ⟨h.contract, h.mem⟩

/-- `t` is a state in which the running command of `s` has ended, races aside: the engine is idle with nothing decoded
and nothing raced, and has said so in `STATUS` (10_state.md R20; 60_exceptions.md R141). -/
structure CommandEnded (s t : State) : Prop where
  seq : t.seq = .idle
  slot : t.slot = .command
  raced : t.raced = []
  status : s.status = 0x01 → t.status = 0x02 ∨ t.status = 0x16
  rom : t.rom = s.rom
  agenda : t.agenda = s.agenda
  mem : MemEnds s t.mem

/-- A recipe followed by the completion ends the command whose recipe it is. -/
theorem commandEnded_of_recipeRan {s u : State} {w : Nat} {ts : List Term} (run : runningCommand s = some (w, ts))
    (h : RecipeRan w ts s u) : CommandEnded s (completeCommand u) where
  seq := rfl
  slot := rfl
  raced := rfl
  status busy := by
    rw [completeCommand_status, h.frame.status, busy, ← statusIssued_eq]
    exact .inl statusCompleted_statusIssued
  rom := h.frame.rom
  agenda := h.frame.agenda
  mem := memEnds_of_recipeRan (u := u) run h

/-- The contract of a command is over its operands and the memory: issuing the operands again changes nothing of it. -/
theorem memEnds_of_issued {s u : State} {w : Nat} {ts : List Term} (run : runningCommand s = some (w, ts))
    (h : RecipeRan w ts (issueCommand s.x s) u) : MemEnds s u.mem := by
  simp only [MemEnds, run]
  obtain ⟨operands, bases, reads, writes, disjoint⟩ := h.contract
  exact ⟨⟨operands, bases, reads, writes, disjoint⟩, h.mem⟩

/-- `PREDICT_LUMA` on the operands it is running with ends the undecoded command. -/
theorem commandEnded_of_predictLuma {s t : State} (slot : s.slot = .command) (h : exec (.predictLuma s.x) s = .next t) :
    CommandEnded s t := by
  obtain ⟨illegal, rfl⟩ | ⟨legal, u, ran, rfl⟩ := exec_predictLuma_eq_next h
  · have run : runningCommand s = none := by simp [runningCommand, slot, illegal]
    exact ⟨rfl, rfl, rfl, fun _ => .inr statusFailed_eq, rfl, rfl, memEnds_of_none run⟩
  · have run : runningCommand s = some (s.x.width.toNat, recipeTerms (romWord s.rom.words (phaseIndex s.x))) := by
      simp [runningCommand, slot, legal]
    refine ⟨rfl, rfl, rfl, fun _ => .inl ?_, ran.frame.rom, ran.frame.agenda, memEnds_of_issued (u := u) run ran⟩
    rw [completeCommand_status, ran.frame.status]
    exact statusCompleted_statusIssued

/-- Everything the run of the fetched instruction can do when it answers a next state: it ends the command, at every level
the sequencer can have decoded it to. -/
theorem commandEnded_of_runTurn {s t : State} (h : runTurn s = .next t) : CommandEnded s t := by
  unfold runTurn at h
  split at h
  · cases h
  · next i d =>
    cases slot : s.slot with simp only [slot, fetchCode, decode, reduceCtorEq, if_true, if_false] at h d
    | command =>
      cases d
      exact commandEnded_of_predictLuma slot h
    | key k =>
      obtain ⟨u, e, ht⟩ := andThen_eq_next.1 h
      cases ht
      have run : runningCommand s = some (selectedWidth (k.extractLsb' 4 2),
          recipeTerms (romWord s.rom.words (k.extractLsb' 0 4))) := by simp [runningCommand, slot, d]
      exact commandEnded_of_recipeRan run (exec_of_decodeKey d e)
    | recipe r =>
      obtain ⟨u, e, ht⟩ := andThen_eq_next.1 h
      cases ht
      obtain ⟨legal, ran⟩ := exec_of_decodeRecipeWord d e
      have run : runningCommand s = some (s.x.width.toNat, recipeTerms r) := by simp [runningCommand, slot, legal]
      exact commandEnded_of_recipeRan run ran
    | term a =>
      cases d
      obtain ⟨u, e, ht⟩ := andThen_eq_next.1 h
      cases ht
      obtain ⟨legal, ran⟩ := exec_of_term e
      have run : runningCommand s = some (s.x.width.toNat, [decodeTerm a]) := by simp [runningCommand, slot, legal]
      exact commandEnded_of_recipeRan run ran

/-! ## The engine's turn -/

/-- Everything a running engine's turn can do when it answers a next state. -/
theorem engineTurn_eq_next {s t : State} (run : s.seq = .run) (h : engineTurn s = .next t) :
    ∃ u, CommandEnded s u ∧ t = settleRaces s u := by
  rw [engineTurn_run run] at h
  obtain ⟨u, e, ht⟩ := andThen_eq_next.1 h
  cases ht
  exact ⟨u, commandEnded_of_runTurn e, rfl⟩

/-- The end of a command, its races decided, keeps the memory's canonical form. -/
theorem settleRaces_ended_wellFormed {s u : State} (h : CommandEnded s u) (hm : memWellFormed s.mem) :
    memWellFormed (settleRaces s u).mem := by
  have ends := h.mem
  cases run : runningCommand s with simp only [MemEnds, run] at ends
  | none =>
    rw [settleRaces_of_none run, ends]
    exact hm
  | some c =>
    obtain ⟨contract, f, e⟩ := ends
    refine settleRaces_wellFormed run contract (fun a => ?_) ?_
    · rw [e]
      exact writeBlock_isSome contract f a
    · rw [e]
      exact writeBlock_dest_wellFormed contract f hm

/-! ## Decoding one level further -/

theorem dispatchKey_eq_some {x : Operands} {k : BitVec 6} (h : dispatchKey x = some k) :
    ∃ wsel, widthSelect x.width = some wsel ∧ k = wsel ++ phaseIndex x := by
  cases select : widthSelect x.width with simp only [dispatchKey, select, Option.some.injEq, reduceCtorEq] at h
  | some wsel => exact ⟨wsel, rfl, h.symm⟩

/-- A descriptor has a key only with a legal width, and its key gives that width and its phases back. -/
theorem fields_of_dispatchKey {x : Operands} {k : BitVec 6} (h : dispatchKey x = some k) :
    widthLegal x.width = true ∧ selectedWidth (k.extractLsb' 4 2) = x.width.toNat ∧ k.extractLsb' 0 4 = phaseIndex x := by
  obtain ⟨wsel, select, rfl⟩ := dispatchKey_eq_some h
  rw [BitVec.extractLsb'_append_eq_left, BitVec.extractLsb'_append_eq_right]
  cases legal : widthLegal x.width
  · cases (widthSelect_of_illegal legal).symm.trans select
  · obtain ⟨wsel', select', width⟩ := widthSelect_of_legal legal
    cases select'.symm.trans select
    exact ⟨rfl, width, rfl⟩

theorem widthLegal_of_dispatchKey {x : Operands} (h : (dispatchKey x).isSome = true) : widthLegal x.width = true := by
  obtain ⟨k, key⟩ := Option.isSome_iff_exists.1 h
  exact (fields_of_dispatchKey key).1

theorem widthSelect_lt {w : Word} {wsel : BitVec 2} (h : widthSelect w = some wsel) : wsel.toNat < 3 := by
  unfold widthSelect at h
  split_ifs at h <;> cases h <;> decide

/-- The key of a descriptor is never the reserved one, `wsel = 11` (30_encoding.md R56). -/
theorem decodeKey_of_dispatchKey {x : Operands} {k : BitVec 6} (h : dispatchKey x = some k) : ∃ i, decodeKey k = .ok i := by
  obtain ⟨wsel, select, rfl⟩ := dispatchKey_eq_some h
  have bound : (wsel ++ phaseIndex x).toNat < (casesW4 ++ casesW8 ++ casesW16).length := by
    have high := widthSelect_lt select
    have low := (phaseIndex x).isLt
    rw [BitVec.toNat_append, ← Nat.shiftLeft_add_eq_or_of_lt low, Nat.shiftLeft_eq]
    show _ < 48
    omega
  unfold decodeKey
  rw [List.getElem?_eq_getElem bound]
  exact ⟨_, rfl⟩

/-- A decoded form that fits the operands is that of the undecoded command: same width, same terms. -/
theorem runningCommand_of_fits {s : State} (fits : SlotFits s) :
    runningCommand s = runningCommand { s with slot := .command } := by
  unfold SlotFits at fits
  cases slot : s.slot with simp only [slot] at fits
  | command => simp only [runningCommand, slot]
  | key k =>
    obtain ⟨legal, width, phase⟩ := fields_of_dispatchKey fits
    obtain ⟨i, d⟩ := decodeKey_of_dispatchKey fits
    simp only [runningCommand, slot, d, legal, width, phase, if_true]
  | recipe r =>
    obtain ⟨key, rfl⟩ := fits
    simp only [runningCommand, slot, widthLegal_of_dispatchKey key, if_true]
  | term a =>
    obtain ⟨key, single, rfl⟩ := fits
    have one : recipeTerms (romWord s.rom.words (phaseIndex s.x)) =
        [decodeTerm ((romWord s.rom.words (phaseIndex s.x)).extractLsb' 4 4)] := by
      rw [recipeTerms, single]
      rfl
    simp only [runningCommand, slot, widthLegal_of_dispatchKey key, if_true, one]

/-- Everything a decode turn can do when it answers a next state: it takes the one error, or it changes the slot alone,
from a decoded form that fits the operands to another that does. -/
theorem decodeTurn_eq_next {s t : State} (h : decodeTurn s = .next t) :
    t = raiseUnsupportedWidth s ∨ ∃ slot, t = { s with slot := slot } ∧ (SlotFits s → SlotFits t) := by
  unfold decodeTurn at h
  cases slot : s.slot with simp only [slot] at h
  | command =>
    cases key : dispatchKey s.x with simp only [key] at h
    | none =>
      cases h
      exact .inl rfl
    | some k =>
      cases h
      exact .inr ⟨_, rfl, fun _ => key⟩
  | key k =>
    split at h <;> cases h
    refine .inr ⟨_, rfl, fun fits => ?_⟩
    simp only [SlotFits, slot] at fits ⊢
    obtain ⟨-, -, phase⟩ := fields_of_dispatchKey fits
    rw [fits, phase]
    exact ⟨rfl, rfl⟩
  | recipe r =>
    split at h
    · split at h <;> cases h
      · exact .inr ⟨_, rfl, id⟩
      · next single =>
        refine .inr ⟨_, rfl, fun fits => ?_⟩
        simp only [SlotFits, slot] at fits ⊢
        obtain ⟨key, rfl⟩ := fits
        exact ⟨key, by simpa using single, rfl⟩
    · cases h
  | term a =>
    cases h
    exact .inr ⟨_, rfl, id⟩

/-! ## The host's transactions -/

/-- A reset of a running command abandons it: everything but the memory is as after any reset, and the memory keeps its
canonical form (70_reset_and_hazards.md R152). -/
theorem abandonCommand_eq_next {s t : State} (run : s.seq = .run) (h : abandonCommand s = .next t) :
    ∃ m, t = resetEngine { s with mem := m } ∧ (memWellFormed s.mem → memWellFormed m) := by
  obtain ⟨v, turn, e⟩ := andThen_eq_next.1 h
  obtain ⟨u, ended, -⟩ := engineTurn_eq_next run turn
  have ends := ended.mem
  cases c : runningCommand s with simp only [c, MemEnds] at e ends
  | none =>
    cases e
    exact ⟨s.mem, rfl, id⟩
  | some c =>
    cases e
    obtain ⟨contract, -⟩ := ends
    refine ⟨_, rfl, fun hm => abandonedMem_wellFormed _ hm fun r c hr hc => ?_⟩
    obtain ⟨range, -⟩ := contract.writes _ ⟨r, c, ⟨hr, hc⟩, rfl⟩
    omega

/-- Everything a transaction can do when it answers a next state: issue a command; answer the host; reset the engine; write
a sample at an address, noting at most a location in a footprint of the running command. -/
theorem hostTurn_eq_next {op : HostOp} {s t : State} (h : hostTurn op s = .next t) :
    (∃ d, op = .issue d ∧ t = issueCommand d s) ∨
    (∃ n r, t = answer { s with draws := n } r) ∨
    (∃ m, t = resetEngine { s with mem := m } ∧ (memWellFormed s.mem → memWellFormed m)) ∨
    (∃ a v raced, t = { s with mem := memSet s.mem a v, raced := raced } ∧ a < Config.addressEnd ∧
      ∀ b ∈ raced, b ∈ s.raced ∨ (b : Int) ∈ runningReads s ∨ (b : Int) ∈ runningWrites s) := by
  cases op with simp only [hostTurn] at h
  | issue d =>
    cases h
    exact .inl ⟨d, rfl, rfl⟩
  | readStatus =>
    cases h
    exact .inr (.inl ⟨_, _, rfl⟩)
  | readOperand i =>
    cases h
    exact .inr (.inl ⟨_, _, rfl⟩)
  | reset =>
    refine .inr (.inr (.inl ?_))
    cases q : s.seq with simp only [q] at h
    | idle =>
      cases h
      exact ⟨s.mem, rfl, id⟩
    | run => exact abandonCommand_eq_next q h
  | writeSample a v =>
    refine .inr (.inr (.inr ?_))
    split at h
    · next range =>
      have range : a < Config.addressEnd := by
        have := (addressInRange_iff a).1 range
        omega
      obtain rfl | ⟨inside, rfl⟩ := hostWrite_eq_next h
      · exact ⟨a, v, _, rfl, range, fun b hb => .inl hb⟩
      · refine ⟨a, v, _, rfl, range, fun b hb => ?_⟩
        obtain rfl | old := List.mem_insert_iff.1 hb
        · exact .inr inside
        · exact .inl old
    · cases h
  | readSample a =>
    split at h
    · obtain ⟨b, n, e⟩ := hostRead_eq_next h
      exact .inr (.inl ⟨n, _, e⟩)
    · cases h

/-! ## Steps -/

/-- Whose turn a step takes: the engine's, or the turn at the head of the agenda, taken off it. -/
theorem step_eq_next {s t : State} (h : step s = .next t) :
    engineTurn s = .next t ∨
    ∃ e rest, s.agenda = e :: rest ∧ mustWait e s.seq = false ∧ takeEvent e { s with agenda := rest } = .next t := by
  cases agenda : s.agenda with
  | nil =>
    rw [step_of_nil agenda] at h
    exact .inl h
  | cons e rest =>
    cases wait : mustWait e s.seq
    · rw [step_of_taken agenda wait] at h
      exact .inr ⟨e, rest, rfl, wait, h⟩
    · rw [step_of_waiting agenda wait] at h
      exact .inl h

/-- An issue is taken off the agenda only while the engine is idle (10_state.md R31). -/
theorem idle_of_issue_taken {d : Operands} {q : Seq} (h : mustWait (.host (.issue d)) q = false) : q = .idle := by
  cases q with
  | idle => rfl
  | run => cases h

end Sys2Proof.Proofs
end

section
/-! SUPPORT. The proofs of the state family (10_state.md): every step keeps the invariant (R18 to R20), no step writes the
phase ROM (R21), what rows leave of the engine's registers, and what the host's transactions do (R29 to R32). -/

namespace Sys2Proof.Proofs

open Sys2Proof.Machine Sys2Proof.Safety

/-! ## The invariant, operation by operation -/

/-- An idle engine with nothing decoded and nothing raced meets the invariant by its status and its memory alone. -/
theorem engineInv_of_idle {t : State} (seq : t.seq = .idle) (status : t.status = 0x00 ∨ t.status = 0x02 ∨ t.status = 0x16)
    (slot : t.slot = .command) (raced : t.raced = []) (mem : memWellFormed t.mem) : EngineInv t where
  running run := by rw [seq] at run; cases run
  resting _ := ⟨status, slot⟩
  fits := by simp only [SlotFits, slot]
  races a ha := by rw [raced] at ha; cases ha
  rom := t.rom.wellFormed
  mem := mem

/-- An idle engine has no race open. -/
theorem raced_of_idle {s : State} (inv : EngineInv s) (idle : s.seq = .idle) : s.raced = [] := by
  refine List.eq_nil_iff_forall_not_mem.2 fun a ha => ?_
  have inside := inv.races a ha
  rw [runningReads_idle idle, runningWrites_idle idle] at inside
  cases inside <;> contradiction

/-- The agenda is the host's: the invariant does not read it. -/
theorem engineInv_withAgenda {s : State} (inv : EngineInv s) (agenda : List Event) : EngineInv { s with agenda := agenda } :=
  ⟨inv.running, inv.resting, inv.fits, inv.races, inv.rom, inv.mem⟩

/-- Nor does it read the replies and the count of draws. -/
theorem engineInv_answer {s : State} (inv : EngineInv s) (n : Nat) (r : Reply) :
    EngineInv (answer { s with draws := n } r) :=
  ⟨inv.running, inv.resting, inv.fits, inv.races, inv.rom, inv.mem⟩

theorem engineInv_resetEngine {s : State} (mem : memWellFormed s.mem) : EngineInv (resetEngine s) :=
  engineInv_of_idle rfl (.inl rfl) rfl rfl mem

theorem engineInv_raiseUnsupportedWidth {s : State} (mem : memWellFormed s.mem) : EngineInv (raiseUnsupportedWidth s) :=
  engineInv_of_idle rfl (.inr (.inr statusFailed_eq)) rfl rfl mem

/-- Issue starts a command with no race open, since none is open while the engine is idle. -/
theorem engineInv_issueCommand {s : State} (inv : EngineInv s) (idle : s.seq = .idle) (d : Operands) :
    EngineInv (issueCommand d s) where
  running _ := statusIssued_eq
  resting h := by cases h
  fits := trivial
  races a ha := by
    rw [issueCommand_raced, raced_of_idle inv idle] at ha
    cases ha
  rom := inv.rom
  mem := inv.mem

/-- A host write moves no footprint, so a location noted inside a footprint stays inside. -/
theorem engineInv_hostWrite {s : State} (inv : EngineInv s) {a : Nat} (range : a < Config.addressEnd) (v : Byte)
    {raced : List Nat} (noted : ∀ b ∈ raced, b ∈ s.raced ∨ (b : Int) ∈ runningReads s ∨ (b : Int) ∈ runningWrites s) :
    EngineInv { s with mem := memSet s.mem a v, raced := raced } where
  running := inv.running
  resting := inv.resting
  fits := inv.fits
  races b hb := (noted b hb).elim (inv.races b) id
  rom := inv.rom
  mem := memSet_wellFormed inv.mem range v

/-- Another decoded form that fits keeps the footprints, and so the races inside them. -/
theorem engineInv_withSlot {s : State} (inv : EngineInv s) (run : s.seq = .run) {slot : Slot}
    (fits : SlotFits { s with slot := slot }) : EngineInv { s with slot := slot } where
  running := inv.running
  resting idle := by cases run.symm.trans idle
  fits := fits
  races a ha := by
    have command : runningCommand { s with slot := slot } = runningCommand s :=
      (runningCommand_of_fits fits).trans (runningCommand_of_fits inv.fits).symm
    have inside := inv.races a ha
    simp only [runningReads, runningWrites, command] at inside ⊢
    exact inside
  rom := inv.rom
  mem := inv.mem

/-! ## The invariant, turn by turn -/

theorem engineTurn_keeps_inv {s t : State} (inv : EngineInv s) (h : engineTurn s = .next t) : EngineInv t := by
  cases q : s.seq with
  | idle =>
    rw [engineTurn_idle q] at h
    cases h
    exact inv
  | run =>
    obtain ⟨u, ended, rfl⟩ := engineTurn_eq_next q h
    refine engineInv_of_idle ?_ (.inr ?_) ?_ ?_ (settleRaces_ended_wellFormed ended inv.mem)
    · rw [settleRaces_seq, ended.seq]
    · rw [settleRaces_status]
      exact ended.status (inv.running q)
    · rw [settleRaces_slot, ended.slot]
    · rw [settleRaces_raced, ended.raced]

theorem decodeTurn_keeps_inv {s t : State} (inv : EngineInv s) (run : s.seq = .run) (h : decodeTurn s = .next t) :
    EngineInv t := by
  obtain rfl | ⟨slot, rfl, fits⟩ := decodeTurn_eq_next h
  · exact engineInv_raiseUnsupportedWidth inv.mem
  · exact engineInv_withSlot inv run (fits inv.fits)

theorem hostTurn_keeps_inv {op : HostOp} {s t : State} (inv : EngineInv s) (taken : mustWait (.host op) s.seq = false)
    (h : hostTurn op s = .next t) : EngineInv t := by
  obtain ⟨d, rfl, rfl⟩ | ⟨n, r, rfl⟩ | ⟨m, rfl, keeps⟩ | ⟨a, v, raced, rfl, range, noted⟩ := hostTurn_eq_next h
  · exact engineInv_issueCommand inv (idle_of_issue_taken taken) d
  · exact engineInv_answer inv n r
  · exact engineInv_resetEngine (keeps inv.mem)
  · exact engineInv_hostWrite inv range v noted

theorem takeEvent_keeps_inv {e : Event} {s t : State} (inv : EngineInv s) (taken : mustWait e s.seq = false)
    (h : takeEvent e s = .next t) : EngineInv t := by
  cases e with simp only [takeEvent] at h
  | host op => exact hostTurn_keeps_inv inv taken h
  | run => exact engineTurn_keeps_inv inv h
  | decode =>
    cases q : s.seq with simp only [q] at h
    | idle =>
      cases h
      exact inv
    | run => exact decodeTurn_keeps_inv inv q h

/-- Settles O56: the step takes one turn, and each kind of turn keeps the invariant. -/
theorem everyStepKeepsInvariant : Obligations.EveryStepKeepsInvariant := by
  intro s t inv h
  obtain turn | ⟨e, rest, -, taken, turn⟩ := step_eq_next h
  · exact engineTurn_keeps_inv inv turn
  · exact takeEvent_keeps_inv (engineInv_withAgenda inv rest) taken turn

/-! ## What rows leave of the engine's registers -/

/-- Settles O45: a row other than `PREDICT_LUMA` has run a recipe, whose frame this is; `PREDICT_LUMA` ends in the error entry
or in the completion of a recipe run on the issued state. -/
theorem rowsKeepEngineState : Obligations.RowsKeepEngineState := by
  intro i s t h
  refine ⟨fun other => ?_, fun d hd => ?_⟩
  · obtain ⟨w, ts, ran⟩ := recipeRan_of_exec other h
    exact ran.frame
  · subst hd
    obtain ⟨-, rfl⟩ | ⟨-, u, ran, rfl⟩ := exec_predictLuma_eq_next h
    · exact ⟨rfl, rfl, .inr statusFailed_eq, rfl, rfl, rfl, rfl⟩
    · refine ⟨ran.frame.operands, rfl, .inl ?_, ran.frame.rom, ran.frame.agenda, ran.frame.replies, rfl⟩
      rw [completeCommand_status, ran.frame.status]
      exact statusCompleted_statusIssued

/-! ## The phase ROM -/

theorem engineTurn_rom {s t : State} (h : engineTurn s = .next t) : t.rom = s.rom := by
  cases q : s.seq with
  | idle =>
    rw [engineTurn_idle q] at h
    cases h
    rfl
  | run =>
    obtain ⟨u, ended, rfl⟩ := engineTurn_eq_next q h
    rw [settleRaces_rom, ended.rom]

theorem takeEvent_rom {e : Event} {s t : State} (h : takeEvent e s = .next t) : t.rom = s.rom := by
  cases e with simp only [takeEvent] at h
  | host op =>
    obtain ⟨d, -, rfl⟩ | ⟨n, r, rfl⟩ | ⟨m, rfl, -⟩ | ⟨a, v, raced, rfl, -⟩ := hostTurn_eq_next h <;> rfl
  | run => exact engineTurn_rom h
  | decode =>
    cases q : s.seq with simp only [q] at h
    | idle =>
      cases h
      rfl
    | run => obtain rfl | ⟨slot, rfl, -⟩ := decodeTurn_eq_next h <;> rfl

/-- Settles O59, turn by turn. -/
theorem romNeverChanges : Obligations.RomNeverChanges := by
  intro s t h
  obtain turn | ⟨e, rest, -, -, turn⟩ := step_eq_next h
  · exact engineTurn_rom turn
  · rw [takeEvent_rom turn]

/-! ## The host's transactions -/

/-- An idle engine lets every turn at the head of the agenda be taken. -/
theorem step_of_idle {s : State} {e : Event} {rest : List Event} (idle : s.seq = .idle) (agenda : s.agenda = e :: rest) :
    step s = takeEvent e { s with agenda := rest } :=
  step_of_taken agenda (by rw [idle]; exact mustWait_idle e)

/-- Settles O49: the turn is taken, since the engine is idle, and issue is this update of the state. -/
theorem issueStartsCommand : Obligations.IssueStartsCommand := by
  intro s d rest idle agenda
  rw [step_of_idle idle agenda, ← statusIssued_eq]
  rfl

theorem mustWait_of_issue_or_readOperand {op : HostOp} (h : (∃ d, op = .issue d) ∨ ∃ i, op = .readOperand i) :
    mustWait (.host op) .run = true := by
  obtain ⟨d, rfl⟩ | ⟨i, rfl⟩ := h <;> rfl

/-- Settles O50: both transactions wait in RUN, and the engine's turn they wait for ends the command. -/
theorem busyTransactionsWait : Obligations.BusyTransactionsWait := by
  intro s op rest run agenda waits
  have turn : step s = engineTurn s :=
    step_of_waiting agenda (by rw [run]; exact mustWait_of_issue_or_readOperand waits)
  refine ⟨turn, fun t h => ?_⟩
  rw [turn] at h
  obtain ⟨u, ended, rfl⟩ := engineTurn_eq_next run h
  rw [settleRaces_seq, settleRaces_agenda]
  exact ⟨ended.seq, ended.agenda⟩

/-- The operand registers are read in the order of the descriptor's words (10_state.md R15; 30_encoding.md R54). -/
theorem operandAt_eq_word (x : Operands) (i : Fin 8) : operandAt x i = (encodeDescriptor x).getD i.val 0 := by
  fin_cases i <;> rfl

/-- Settles O51: a status read never waits, an operand read does not wait in IDLE, and each answers its register. -/
theorem hostReadsAreAnswered : Obligations.HostReadsAreAnswered := by
  intro s rest
  refine ⟨fun agenda => ?_, fun i idle agenda => ?_⟩
  · have taken : mustWait (.host .readStatus) s.seq = false := by cases s.seq <;> rfl
    rw [step_of_taken agenda taken]
    rfl
  · rw [step_of_idle idle agenda, ← operandAt_eq_word]
    rfl

theorem hostWrite_idle {s : State} (idle : s.seq = .idle) (a : Nat) (v : Byte) :
    hostWrite a v s = .next { s with mem := memSet s.mem a v } := by
  simp only [hostWrite, runningReads_idle idle, runningWrites_idle idle, List.not_mem_nil, or_self, if_false]

theorem hostRead_idle {s : State} (idle : s.seq = .idle) (a : Nat) (v : Byte) :
    hostRead a v s = .next (answer s (.sample a v)) := by
  simp only [hostRead, runningWrites_idle idle, List.not_mem_nil, if_false]

/-- Settles O52: in IDLE no footprint is open, so a write is `memSet` and a read answers what `memFind` finds. -/
theorem hostSampleAccesses : Obligations.HostSampleAccesses := by
  intro s a rest idle
  refine ⟨fun v range agenda => ?_, fun v found agenda => ?_, fun missing agenda => ?_, fun v outside agenda => ?_⟩
  · have inRange : addressInRange a = true := (addressInRange_iff a).2 (by omega)
    refine ⟨{ s with agenda := rest, mem := memSet s.mem a v }, ?_, memFind_memSet_same s.mem a v,
      fun b hb => memFind_memSet_other s.mem v hb, rfl⟩
    rw [step_of_idle idle agenda]
    simp only [takeEvent, hostTurn, inRange, if_true]
    exact hostWrite_idle (s := { s with agenda := rest }) idle a v
  · rw [step_of_idle idle agenda]
    simp only [takeEvent, hostTurn, found]
    exact hostRead_idle (s := { s with agenda := rest }) idle a v
  · rw [step_of_idle idle agenda]
    simp only [takeEvent, hostTurn, missing]
  · have notInRange : addressInRange a = false := by
      rw [← Bool.not_eq_true, addressInRange_iff]
      omega
    rw [step_of_idle idle agenda]
    simp only [takeEvent, hostTurn, notInRange, Bool.false_eq_true, if_false]

/-! ## Reset -/

/-- Settles O57: reset leaves the engine idle, with an empty memory. -/
theorem resetMeetsInvariant : Obligations.ResetMeetsInvariant :=
  engineInv_of_idle rfl (.inl rfl) rfl rfl reset_mem_wellFormed

/-- Settles O58: the fields of a status of 0, and the words of `ROM_DOC`. -/
theorem resetValues : Obligations.ResetValues := by
  refine ⟨rfl, ?_, ?_, ?_, ?_, ?_, rfl⟩ <;> decide

end Sys2Proof.Proofs
end

section
/-! SUPPORT. The proofs of the memory family (20_memory.md): the set of valid locations and the memory's canonical form
(R34, R44; log 5). -/

namespace Sys2Proof.Proofs

open Sys2Proof.Machine Sys2Proof.Safety

/-! ## What a recipe's one block leaves of the memory's shape -/

theorem recipeRan_isSome {w : Nat} {ts : List Term} {s t : State} (ran : RecipeRan w ts s t) (a : Nat) :
    (memFind t.mem a).isSome = (memFind s.mem a).isSome := by
  obtain ⟨f, e⟩ := ran.mem
  rw [e]
  exact writeBlock_isSome ran.contract f a

theorem recipeRan_wellFormed {w : Nat} {ts : List Term} {s t : State} (ran : RecipeRan w ts s t)
    (hm : memWellFormed s.mem) : memWellFormed t.mem := by
  obtain ⟨f, e⟩ := ran.mem
  rw [e]
  exact writeBlock_dest_wellFormed ran.contract f hm

/-! ## Every row -/

/-- Settles O46: a row other than `PREDICT_LUMA` has run a recipe within contract, whose one block lies on valid locations;
`PREDICT_LUMA` either runs such a recipe on the issued state, which has the same memory, or errs and touches no memory. -/
theorem execKeepsValidLocations : Obligations.ExecKeepsValidLocations := by
  intro i s t h
  by_cases command : ∃ d, i = .predictLuma d
  · obtain ⟨d, rfl⟩ := command
    obtain ⟨-, rfl⟩ | ⟨-, u, ran, rfl⟩ := exec_predictLuma_eq_next h
    · rw [raiseUnsupportedWidth_mem, issueCommand_mem]
      exact ⟨fun _ => rfl, id⟩
    · rw [completeCommand_mem, ← issueCommand_mem d s]
      exact ⟨recipeRan_isSome ran, recipeRan_wellFormed ran⟩
  · obtain ⟨w, ts, ran⟩ := recipeRan_of_exec (fun d e => command ⟨d, e⟩) h
    exact ⟨recipeRan_isSome ran, recipeRan_wellFormed ran⟩

end Sys2Proof.Proofs
end

section
/-! SUPPORT. The proofs of the encoding family (30_encoding.md): the motion vector's split and the dispatch key (R55, R56, R61),
the reserved codes (R56, R65; U12), and the levels of the sequencer (R53): what the engine's turn runs, and that the level a
command has been decoded to is not seen in its outcome. -/

namespace Sys2Proof.Proofs

open Sys2Proof.Machine Sys2Proof.Safety

/-! ## Motion vectors (R61) and the dispatch key (R55, R56) -/

/-- The phase is the non-negative residue of the signed component. -/
theorem mvPhase_toNat (v : Word) : ((mvPhase v).toNat : Int) = v.toInt % 4 := by
  rw [mvPhase, BitVec.extractLsb'_toNat, Nat.shiftRight_zero, BitVec.toInt_eq_toNat_cond]
  split <;> omega

/-- Settles O6: integer part and phase are quotient and residue by 4. -/
theorem motionVectorSplits : Obligations.MotionVectorSplits := by
  refine ⟨fun v => ⟨?_, ?_⟩, by decide⟩
  · rw [mvPhase_toNat]
    exact (Int.mul_ediv_add_emod v.toInt 4).symm
  · have := (mvPhase v).isLt
    omega

/-- Fields laid side by side, as one number. -/
theorem toNat_append_eq_add {m n : Nat} (high : BitVec m) (low : BitVec n) :
    (high ++ low).toNat = high.toNat * 2 ^ n + low.toNat := by
  rw [BitVec.toNat_append, ← Nat.shiftLeft_add_eq_or_of_lt low.isLt, Nat.shiftLeft_eq]

theorem dispatchKey_of_widthSelect {d : Operands} {wsel : BitVec 2} (h : widthSelect d.width = some wsel) :
    dispatchKey d = some (wsel ++ phaseIndex d) := by
  simp only [dispatchKey, h]

theorem dispatchKey_of_illegal {d : Operands} (h : widthLegal d.width = false) : dispatchKey d = none := by
  simp only [dispatchKey, widthSelect_of_illegal h]

/-- The width select counts the legal widths 4, 8, 16 from 0. -/
theorem widthSelect_four_mul_two_pow : ∀ n < 3, widthSelect (BitVec.ofNat 32 (4 * 2 ^ n)) = some (BitVec.ofNat 2 n) := by
  decide

/-- Settles O5: a key is the width select and the two phases laid side by side. -/
theorem dispatchKeyIsWidthAndPhases : Obligations.DispatchKeyIsWidthAndPhases := by
  intro d
  refine ⟨fun n bound width => ⟨_, dispatchKey_of_widthSelect (width ▸ widthSelect_four_mul_two_pow n bound), ?_⟩,
    fun h4 h8 h16 => dispatchKey_of_illegal ?_⟩
  · rw [toNat_append_eq_add, phaseIndex, toNat_append_eq_add, BitVec.toNat_ofNat, ← mvPhase_toNat, ← mvPhase_toNat]
    omega
  · simp only [widthLegal, beq_false_of_ne h4, beq_false_of_ne h8, beq_false_of_ne h16, Bool.or_false]

/-! ## Words of the tables, and reserved codes (R56, R63, R65; U12) -/

/-- Settles O3: the decoder evaluated on each word. -/
theorem tableWordsDecode : Obligations.TableWordsDecode := by
  unfold Obligations.TableWordsDecode
  decide

/-- There are 48 cases, so a key from 48 up names none. -/
theorem decodeKey_reserved {k : BitVec 6} (h : 48 ≤ k.toNat) : decodeKey k = .error .reservedKey := by
  unfold decodeKey
  rw [List.getElem?_eq_none (show (casesW4 ++ casesW8 ++ casesW16).length ≤ k.toNat from h)]

theorem decodeTerm_eq_zero_iff (t : BitVec 4) : decodeTerm t = Term.zero ↔ t = 0 := by
  constructor
  · intro h
    rw [← encodeTerm_decodeTerm t, h]
    rfl
  · rintro rfl
    rfl

/-- The reserved recipe encoding in the bits of the word. -/
theorem decodeRecipe_wellFormed_iff (r : BitVec 9) :
    (decodeRecipe r).wellFormed = true ↔ (r.getLsbD 8 = false → r.extractLsb' 0 4 = 0) := by
  simp only [Recipe.wellFormed, decodeRecipe, Bool.or_eq_true, beq_iff_eq, decodeTerm_eq_zero_iff]
  cases r.getLsbD 8 <;> simp

theorem romWellFormed_iff (rom : Config.Rom) :
    romWellFormed rom = true ↔ ∀ r ∈ rom.toList, r.getLsbD 8 = false → r.extractLsb' 0 4 = 0 := by
  simp only [romWellFormed, List.all_eq_true, decodeRecipe_wellFormed_iff]

theorem decodeRecipeWord_reserved {r : BitVec 9} (avg : r.getLsbD 8 = false) (b : r.extractLsb' 0 4 ≠ 0) :
    decodeRecipeWord r = .error .reservedRecipe := by
  have reserved : ¬ (decodeRecipe r).wellFormed = true := fun h => b ((decodeRecipe_wellFormed_iff r).1 h avg)
  rw [decodeRecipeWord, if_neg reserved]

/-- Settles O4: the decoder by the two lemmas on reserved codes; construction by what a well-formed ROM is, word by word. -/
theorem reservedCodesRejected : Obligations.ReservedCodesRejected := by
  refine ⟨fun k => decodeKey_reserved, fun r => decodeRecipeWord_reserved, fun rom => ⟨?_, fun legal => ?_⟩⟩
  · rintro ⟨r, mem, avg, b⟩
    have illFormed : ¬ romWellFormed rom = true := fun h => b ((romWellFormed_iff rom).1 h r mem avg)
    rw [buildMachine, dif_neg illFormed]
  · rw [buildMachine, dif_pos ((romWellFormed_iff rom).2 legal)]
    exact ⟨_, rfl, rfl, rfl⟩

/-! ## What the engine's turn runs (R53; logs 9, 10, 14) -/

theorem runTurn_of_decode {s : State} {i : Instr} (d : decode (fetchCode s) = .ok i) :
    runTurn s = if s.slot = .command then exec i s else andThen (exec i s) fun t => .next (completeCommand t) := by
  unfold runTurn
  rw [d]

/-- An undecoded command is run as `PREDICT_LUMA` on the operand registers. -/
theorem runTurn_of_slot_command {s : State} (slot : s.slot = .command) : runTurn s = exec (.predictLuma s.x) s := by
  have d : decode (fetchCode s) = .ok (.predictLuma s.x) := by
    rw [fetchCode, slot]
    rfl
  rw [runTurn_of_decode d, if_pos slot]

/-- A command decoded further is run as the row it has been decoded to, then completion. -/
theorem runTurn_of_decoded {s : State} {c : Code} {i : Instr} (decoded : s.slot ≠ .command) (fetched : fetchCode s = c)
    (d : decode c = .ok i) : runTurn s = andThen (exec i s) fun t => .next (completeCommand t) := by
  rw [← fetched] at d
  rw [runTurn_of_decode d, if_neg decoded]

/-- With an empty agenda, or with the engine's turn at its head, a step is the engine's turn with that turn taken off. -/
theorem step_of_engineTurn {s : State} (h : s.agenda = [] ∨ ∃ rest, s.agenda = .run :: rest) :
    step s = engineTurn { s with agenda := s.agenda.tail } := by
  obtain empty | ⟨rest, head⟩ := h
  · have same : { s with agenda := s.agenda.tail } = s := by rw [empty, List.tail_nil, ← empty]
    rw [same, step_of_nil empty]
  · rw [step_of_taken head rfl, head]
    rfl

/-- Settles O47: the step is the engine's turn, which runs the fetched instruction, then decides the races. -/
theorem stepRunsFetchedInstruction : Obligations.StepRunsFetchedInstruction := by
  intro s i run turn d u ran
  have runs : runTurn u = ran := runTurn_of_decode (s := u) d
  rw [step_of_engineTurn turn, ← runs]
  exact ⟨engineTurn_run run, engineTurn_of_nil (s := u) run⟩

/-! ## A recipe does not look at the slot -/

theorem checkContract_withSlot (w : Nat) (ts : List Term) (s : State) (slot : Slot) :
    checkContract w ts { s with slot := slot } = andThen (checkContract w ts s) fun t => .next { t with slot := slot } := by
  unfold checkContract
  dsimp only
  split_ifs <;> rfl

theorem termState_withSlot (t : Term) (w : Nat) (s : State) (slot : Slot) :
    termState t w { s with slot := slot } = { termState t w s with slot := slot } := by
  obtain ⟨op, dr, dc⟩ := t
  cases op <;> rfl

theorem termBlock_withSlot (t : Term) (w : Nat) (s : State) (slot : Slot) :
    termBlock t w { s with slot := slot } = termBlock t w s := by
  obtain ⟨op, dr, dc⟩ := t
  cases op <;> rfl

theorem runSingle_withSlot (t : Term) (w : Nat) (s : State) (slot : Slot) :
    runSingle t w { s with slot := slot } = andThen (runSingle t w s) fun u => .next { u with slot := slot } := by
  unfold runSingle
  rw [checkContract_withSlot]
  cases checkContract w [t] s with
  | next u => simp only [andThen_next, termToDest, termState_withSlot, termBlock_withSlot]
  | fault e => rfl
  | refused e => rfl

theorem runAverage_withSlot (a b : Term) (w : Nat) (s : State) (slot : Slot) :
    runAverage a b w { s with slot := slot } = andThen (runAverage a b w s) fun u => .next { u with slot := slot } := by
  have toA (u : State) : termToA a w { u with slot := slot } = { termToA a w u with slot := slot } := by
    simp only [termToA, termState_withSlot, termBlock_withSlot]
  have toB (u : State) : termToB b w { u with slot := slot } = { termToB b w u with slot := slot } := by
    simp only [termToB, termState_withSlot, termBlock_withSlot]
  unfold runAverage
  rw [checkContract_withSlot]
  cases checkContract w [a, b] s with
  | next u =>
    simp only [andThen_next, toA, toB]
    rfl
  | fault e => rfl
  | refused e => rfl

theorem runRecipe_withSlot (r : BitVec 9) (w : Nat) (s : State) (slot : Slot) :
    runRecipe r w { s with slot := slot } = andThen (runRecipe r w s) fun u => .next { u with slot := slot } := by
  unfold runRecipe
  split_ifs
  · rfl
  · exact runAverage_withSlot _ _ w s slot
  · exact runSingle_withSlot _ w s slot

/-! ## A decoded form that fits runs the recipe of its command -/

/-- The rest of the running command of `s`: the recipe of its phases at its width, then completion (46_dispatcher.md R125
steps 5 to 7). -/
def finishCommand (s : State) : Result :=
  andThen (runRecipe (romWord s.rom.words (phaseIndex s.x)) s.x.width.toNat s) fun t => .next (completeCommand t)

/-- The completion clears the slot, and nothing before it looks at it. -/
theorem finishCommand_withSlot (s : State) (slot : Slot) : finishCommand { s with slot := slot } = finishCommand s := by
  unfold finishCommand
  rw [runRecipe_withSlot]
  cases runRecipe (romWord s.rom.words (phaseIndex s.x)) s.x.width.toNat s <;> rfl

/-- A running command that has not been decoded is as issued. -/
theorem issueCommand_self {s : State} (inv : EngineInv s) (run : s.seq = .run) (slot : s.slot = .command) :
    issueCommand s.x s = s := by
  rw [issueCommand, statusIssued_eq, ← inv.running run, ← run, ← slot]

theorem decodeRecipeWord_of_wellFormed {r : BitVec 9} (h : (decodeRecipe r).wellFormed = true) :
    ∃ i, decodeRecipeWord r = .ok i := by
  rw [decodeRecipeWord, if_pos h]
  exact ⟨_, rfl⟩

/-- A well-formed recipe word without average runs its one term. -/
theorem runRecipe_of_single {r : BitVec 9} (wellFormed : (decodeRecipe r).wellFormed = true)
    (single : (decodeRecipe r).avg = false) (w : Nat) (s : State) : runRecipe r w s = runSingle (decodeRecipe r).a w s := by
  simp only [runRecipe, wellFormed, single, Bool.true_eq_false, Bool.false_eq_true, if_false]

/-- At every level the run of a command with a legal width is the recipe of its phases, then completion. -/
theorem runTurn_of_fits {s : State} (inv : EngineInv s) (run : s.seq = .run) (legal : widthLegal s.x.width = true) :
    runTurn s = finishCommand s := by
  have fits := inv.fits
  have wellFormed := romWord_wellFormed s.rom (phaseIndex s.x)
  unfold SlotFits at fits
  cases slot : s.slot with simp only [slot] at fits
  | command =>
    rw [runTurn_of_slot_command slot, exec_predictLuma legal, issueCommand_self inv run slot, finishCommand]
  | key k =>
    obtain ⟨i, d⟩ := decodeKey_of_dispatchKey fits
    obtain ⟨-, width, phase⟩ := fields_of_dispatchKey fits
    have fetched : fetchCode s = .k6 k := by rw [fetchCode, slot]
    rw [runTurn_of_decoded (by simp [slot]) fetched d, exec_keyInstr d, width, phase]
    rfl
  | recipe r =>
    obtain ⟨-, rfl⟩ := fits
    obtain ⟨i, d⟩ := decodeRecipeWord_of_wellFormed wellFormed
    have fetched : fetchCode s = .r9 (romWord s.rom.words (phaseIndex s.x)) := by rw [fetchCode, slot]
    rw [runTurn_of_decoded (by simp [slot]) fetched d, exec_recipeInstr d, withBlockWidth_legal legal]
    rfl
  | term a =>
    obtain ⟨-, single, rfl⟩ := fits
    have fetched : fetchCode s = .s4 ((romWord s.rom.words (phaseIndex s.x)).extractLsb' 4 4) := by rw [fetchCode, slot]
    rw [runTurn_of_decoded (by simp [slot]) fetched rfl, exec_termInstr, withBlockWidth_legal legal, finishCommand,
      runRecipe_of_single wellFormed single]
    rfl

/-- A decoded form that fits belongs to a command with a legal width. -/
theorem widthLegal_of_fits {s : State} (fits : SlotFits s) : s.slot = .command ∨ widthLegal s.x.width = true := by
  unfold SlotFits at fits
  cases slot : s.slot with simp only [slot] at fits
  | command => exact .inl rfl
  | key k => exact .inr (fields_of_dispatchKey fits).1
  | recipe r => exact .inr (widthLegal_of_dispatchKey fits.1)
  | term a => exact .inr (widthLegal_of_dispatchKey fits.1)

/-! ## The level is not seen in the outcome -/

/-- Deciding the races looks at the decoded form only for the width and the terms of the command. -/
theorem settleRaces_undecoded {s : State} (fits : SlotFits s) (t : State) :
    settleRaces { s with slot := .command } t = settleRaces s t := by
  unfold settleRaces
  rw [runningCommand_of_fits fits]
  rfl

/-- The engine's turn has the outcome it would have with nothing decoded yet. -/
theorem engineTurn_undecoded {s : State} (inv : EngineInv s) (run : s.seq = .run) :
    engineTurn { s with slot := .command } = engineTurn s := by
  obtain slot | legal := widthLegal_of_fits inv.fits
  · rw [← slot]
  · have undecoded : EngineInv { s with slot := .command } := engineInv_withSlot inv run trivial
    have runs : runTurn { s with slot := .command } = runTurn s :=
      calc runTurn { s with slot := .command }
        _ = finishCommand { s with slot := .command } := runTurn_of_fits undecoded run legal
        _ = finishCommand s := finishCommand_withSlot s .command
        _ = runTurn s := (runTurn_of_fits inv run legal).symm
    rw [engineTurn_run run, engineTurn_run (s := { s with slot := .command }) run, runs]
    simp only [settleRaces_undecoded inv.fits]

/-- Decoding ends a command only by the width check, before anything else (46_dispatcher.md R128). -/
theorem decodeTurn_eq_next_idle {s t : State} (run : s.seq = .run) (h : decodeTurn s = .next t) (idle : t.seq = .idle) :
    s.slot = .command ∧ widthLegal s.x.width = false ∧ t = raiseUnsupportedWidth s := by
  unfold decodeTurn at h
  cases slot : s.slot with simp only [slot] at h
  | command =>
    cases legal : widthLegal s.x.width
    · simp only [dispatchKey_of_illegal legal] at h
      cases h
      exact ⟨rfl, rfl, rfl⟩
    · obtain ⟨wsel, select, -⟩ := widthSelect_of_legal legal
      simp only [dispatchKey_of_widthSelect select] at h
      cases h
      cases run.symm.trans idle
  | key k =>
    split at h <;> cases h
    cases run.symm.trans idle
  | recipe r =>
    split at h
    · split at h <;> cases h <;> cases run.symm.trans idle
    · cases h
  | term a =>
    cases h
    cases run.symm.trans idle

/-- The engine's turn on an undecoded command with an unsupported width takes the one error (60_exceptions.md R141). -/
theorem engineTurn_illegal {s : State} (inv : EngineInv s) (run : s.seq = .run) (slot : s.slot = .command)
    (illegal : widthLegal s.x.width = false) : engineTurn s = .next (raiseUnsupportedWidth s) := by
  have noCommand : runningCommand s = none := by simp [runningCommand, slot, illegal]
  rw [engineTurn_run run, runTurn_of_slot_command slot, exec_predictLuma_illegal illegal, issueCommand_self inv run slot,
    andThen_next, settleRaces_of_none noCommand]

/-- Settles O48: decoding that leaves the command running changes the slot alone, to a form that fits; decoding that ends it
is the error entry, which `PREDICT_LUMA` takes as well. -/
theorem decodingFurtherKeepsOutcome : Obligations.DecodingFurtherKeepsOutcome := by
  intro s t inv run h
  refine ⟨fun running => ?_, fun idle => ?_⟩
  · have inv' := decodeTurn_keeps_inv inv run h
    obtain rfl | ⟨slot, rfl, -⟩ := decodeTurn_eq_next h
    · cases running
    · exact (engineTurn_undecoded inv' running).symm.trans (engineTurn_undecoded inv run)
  · obtain ⟨slot, illegal, rfl⟩ := decodeTurn_eq_next_idle run h idle
    exact engineTurn_illegal inv run slot illegal

end Sys2Proof.Proofs
end

section
/-! SUPPORT. The proof of the copy family (40_copy.md): the row of a term as a whole, the addresses of a shifted view, and
`COPY`. -/

namespace Sys2Proof.Proofs

open Sys2Proof.Machine Sys2Proof.Safety

/-! ## Shifted views, and the rows of terms -/

/-- A position of a shifted view is the shifted position of the view itself (20_memory.md R36). -/
theorem viewAddr_viewShift (V : View) (dr dc r c : Int) :
    viewAddr (viewShift V dr dc) r c = viewAddr V (r + dr) (c + dc) := by
  simp only [viewAddr, viewShift]
  ring

/-- Within contract the row of a term writes the term's results to the destination (45_phase_table.md R102, R104). -/
theorem exec_termInstr_produces {t : Term} {s : State} (legal : widthLegal s.x.width = true)
    (contract : InContract s.x.width.toNat [t] s) :
    Produces (exec t.instr s) s s.x.width.toNat [t] (termResult t s.mem (sourceView s.x)) := by
  rw [exec_termInstr, withBlockWidth_legal legal]
  exact runSingle_produces contract (widthLegal_le legal)

/-! ## `COPY` (R70) -/

/-- The result of a copy term, sample by sample, in the source view. -/
theorem termResult_copy (dr dc : Bool) (m : List Host.Cell) (S : View) :
    termResult { op := .copy, dr := dr, dc := dc } m S =
      fun (y x : Nat) => sampleAt m (viewAddr S (y + shiftOf dr) (x + shiftOf dc)) := by
  funext y x
  exact congrArg (sampleAt m) (viewAddr_viewShift S (shiftOf dr) (shiftOf dc) y x)

/-- Settles O16: `COPY` is the row of the copy term, whose results these are. -/
theorem copyCompletes : Obligations.CopyCompletes := by
  intro s dr dc legal contract
  rw [← termResult_copy]
  exact exec_termInstr_produces legal contract

end Sys2Proof.Proofs
end

section
/-! SUPPORT. The proofs of the horizontal-filter family (41_filter_h.md): where the rounding shift leaves the sample range,
the row sums of a shifted view, and `FILT_H`. -/

namespace Sys2Proof.Proofs

open Sys2Proof.Machine Sys2Proof.Safety

/-! ## The rounding shift and the sample range (R77, R78) -/

/-- An arithmetic shift keeps the sign. -/
theorem shiftRight_lt_zero_iff (a : Int) (n : Nat) : shiftRight a n < 0 ↔ a < 0 := by
  have pos : (0 : Int) < 2 ^ n := by positivity
  rw [shiftRight, Int.ediv_lt_iff_lt_mul pos, zero_mul]

/-- A shift exceeds the largest sample exactly from `256 · 2ⁿ` on. -/
theorem shiftRight_gt_255_iff (a : Int) (n : Nat) : shiftRight a n > 255 ↔ a ≥ 256 * 2 ^ n := by
  have pos : (0 : Int) < 2 ^ n := by positivity
  have succ_le : shiftRight a n > 255 ↔ 256 ≤ shiftRight a n := by omega
  rw [succ_le, shiftRight, Int.le_ediv_iff_mul_le pos]

theorem quotientOne_lt_zero_iff (sum : Int) : shiftRight (sum + 16) 5 < 0 ↔ sum ≤ -17 := by
  rw [shiftRight_lt_zero_iff]
  omega

theorem quotientOne_gt_255_iff (sum : Int) : shiftRight (sum + 16) 5 > 255 ↔ sum ≥ 8176 := by
  rw [shiftRight_gt_255_iff]
  omega

/-- Settles O8: `clip_u8` clips exactly where the quotient leaves the sample range. -/
theorem oneDimensionalThresholds : Obligations.OneDimensionalThresholds := by
  refine ⟨fun sum => ?_, by decide⟩
  have low := quotientOne_lt_zero_iff sum
  have high := quotientOne_gt_255_iff sum
  refine ⟨low, high, fun h => ?_, fun h => ?_, fun above below => ?_⟩
  · exact clipU8_of_neg (low.mpr h)
  · exact clipU8_of_gt (high.mpr h)
  · exact clipU8_toNat_of_fits (mt low.mp (by omega)) (mt high.mp (by omega))

/-! ## Shifted row sums, and `FILT_H` (R75, R80) -/

theorem viewSample_viewShift (m : List Host.Cell) (V : View) (dr dc r c : Int) :
    viewSample m (viewShift V dr dc) r c = viewSample m V (r + dr) (c + dc) := by
  rw [viewSample, viewAddr_viewShift, viewSample]

/-- The row sum around a position of a shifted view is the row sum around the shifted position. -/
theorem rowSum_viewShift (m : List Host.Cell) (V : View) (dr dc r c : Int) :
    rowSum m (viewShift V dr dc) r c = rowSum m V (r + dr) (c + dc) := by
  simp only [rowSum, viewSample_viewShift, sub_add_eq_add_sub, add_right_comm c _ dc]

/-- The result of a horizontal term, sample by sample, in the source view. -/
theorem termResult_filtH (dr dc : Bool) (m : List Host.Cell) (S : View) :
    termResult { op := .filtH, dr := dr, dc := dc } m S =
      fun (y x : Nat) => clipU8 (shiftRight (rowSum m S (y + shiftOf dr) (x + shiftOf dc) + 16) 5) := by
  funext y x
  exact congrArg roundOne (rowSum_viewShift m S (shiftOf dr) (shiftOf dc) y x)

/-- Settles O17: `FILT_H` is the row of the horizontal term, whose results these are. -/
theorem filtHCompletes : Obligations.FiltHCompletes := by
  intro s dr dc legal contract
  rw [← termResult_filtH]
  exact exec_termInstr_produces legal contract

end Sys2Proof.Proofs
end

section
/-! SUPPORT. The proofs of the vertical-filter family (42_filter_v.md): the column sums of a transposed view, the column sums
of a shifted view, and `FILT_V`. -/

namespace Sys2Proof.Proofs

open Sys2Proof.Machine Sys2Proof.Safety

/-! ## Transposed views (R85) -/

/-- The column sum of a view is the row sum of another at the transposed position, where the six samples are transposed. -/
theorem colSum_eq_rowSum_transpose {m m' : List Host.Cell} {V T : View} {r c : Int}
    (transposed : ∀ k : Int, r - 2 ≤ k → k ≤ r + 3 → viewSample m' T k c = viewSample m V c k) :
    colSum m' T r c = rowSum m V c r := by
  rw [colSum, rowSum, transposed (r - 2) (by omega) (by omega), transposed (r - 1) (by omega) (by omega),
    transposed r (by omega) (by omega), transposed (r + 1) (by omega) (by omega), transposed (r + 2) (by omega) (by omega),
    transposed (r + 3) (by omega) (by omega)]

/-- The six rows around a row of the block, at a column of the block, lie in the range `FILT_V` reads (20_memory.md R37). -/
theorem inReadRange_filtV {w h x y : Nat} (hx : x < w) (hy : y < h) {k : Int} (low : (y : Int) - 2 ≤ k)
    (high : k ≤ (y : Int) + 3) : InReadRange .filtV w h k x := by
  simp only [InReadRange]
  omega

/-- `FILT_V` on a view that is transposed in the range it reads gives the transposed samples of `FILT_H`. -/
theorem filtVSample_transpose {n : Nat} {m m' : List Host.Cell} {V T : View}
    (transposed : ∀ r c : Int, InReadRange .filtV n n r c → viewSample m' T r c = viewSample m V c r) {y x : Nat}
    (hy : y < n) (hx : x < n) : filtVSample m' T y x = filtHSample m V x y := by
  have sums : colSum m' T y x = rowSum m V x y :=
    colSum_eq_rowSum_transpose fun k low high => transposed k x (inReadRange_filtV hx hy low high)
  rw [filtVSample, sums, filtHSample]

/-- Settles O13: the symmetric source is the view that is its own transpose. -/
theorem transpositionLaw : Obligations.TranspositionLaw :=
  ⟨fun _ _ _ _ _ transposed _ _ hy hx => filtVSample_transpose transposed hy hx,
    fun _ _ _ symmetric _ _ hy hx => filtVSample_transpose symmetric hy hx⟩

/-! ## Shifted column sums, and `FILT_V` (R82, R86) -/

/-- The column sum around a position of a shifted view is the column sum around the shifted position. -/
theorem colSum_viewShift (m : List Host.Cell) (V : View) (dr dc r c : Int) :
    colSum m (viewShift V dr dc) r c = colSum m V (r + dr) (c + dc) := by
  simp only [colSum, viewSample_viewShift, sub_add_eq_add_sub, add_right_comm r _ dr]

/-- The result of a vertical term, sample by sample, in the source view. -/
theorem termResult_filtV (dr dc : Bool) (m : List Host.Cell) (S : View) :
    termResult { op := .filtV, dr := dr, dc := dc } m S =
      fun (y x : Nat) => clipU8 (shiftRight (colSum m S (y + shiftOf dr) (x + shiftOf dc) + 16) 5) := by
  funext y x
  exact congrArg roundOne (colSum_viewShift m S (shiftOf dr) (shiftOf dc) y x)

/-- Settles O18: `FILT_V` is the row of the vertical term, whose results these are. -/
theorem filtVCompletes : Obligations.FiltVCompletes := by
  intro s dr dc legal contract
  rw [← termResult_filtV]
  exact exec_termInstr_produces legal contract

end Sys2Proof.Proofs
end

section
/-! SUPPORT. The proofs of the centre-filter family (43_filter_c.md): where the stage-two quotient leaves the sample range,
the ranges of the two stages, the order of the axes, and `FILT_C`. -/

namespace Sys2Proof.Proofs

open Sys2Proof.Machine Sys2Proof.Safety

/-! ## The stage-two quotient and the sample range (R94) -/

/-- An arithmetic shift is the floor of the division by `2ⁿ` (00_scope.md R8). -/
theorem shiftRight_floor (a : Int) (n : Nat) : 2 ^ n * shiftRight a n ≤ a ∧ a < 2 ^ n * (shiftRight a n + 1) := by
  have pos : (0 : Int) < 2 ^ n := by positivity
  refine ⟨Int.mul_ediv_self_le pos.ne', ?_⟩
  rw [mul_add_one]
  exact Int.lt_mul_ediv_self_add pos

theorem quotientTwo_lt_zero_iff (sum2 : Int) : shiftRight (sum2 + 512) 10 < 0 ↔ sum2 ≤ -513 := by
  rw [shiftRight_lt_zero_iff]
  omega

theorem quotientTwo_gt_255_iff (sum2 : Int) : shiftRight (sum2 + 512) 10 > 255 ↔ sum2 ≥ 261632 := by
  rw [shiftRight_gt_255_iff]
  omega

/-- Settles O9: the quotient is a floor, and `clip_u8` clips exactly where it leaves the sample range. -/
theorem twoDimensionalThresholds : Obligations.TwoDimensionalThresholds := by
  refine ⟨fun sum2 => ?_, by decide⟩
  obtain ⟨floor_le, lt_floor⟩ := shiftRight_floor (sum2 + 512) 10
  have low := quotientTwo_lt_zero_iff sum2
  have high := quotientTwo_gt_255_iff sum2
  refine ⟨floor_le, lt_floor, low, high, fun _ _ => by omega, fun h => ?_, fun h => ?_, fun above below => ?_⟩
  · exact clipU8_of_neg (low.mpr h)
  · exact clipU8_of_gt (high.mpr h)
  · exact clipU8_toNat_of_fits (mt low.mp (by omega)) (mt high.mp (by omega))

/-! ## The two stages are exact (R92, R93) -/

/-- A stage-one value is stored in `MID` exactly. -/
theorem toInt_ofInt_rowSum (m : List Host.Cell) (V : View) (r c : Int) :
    (BitVec.ofInt 16 (rowSum m V r c)).toInt = rowSum m V r c := by
  have range := rowSum_range m V r c
  exact toInt_ofInt_16 (by omega)

/-- Settles O10: the range of a row sum, and with it exact storage. -/
theorem stageOneFitsSixteenBits : Obligations.StageOneFitsSixteenBits := fun m V r c =>
  ⟨(rowSum_range m V r c).1, (rowSum_range m V r c).2, toInt_ofInt_rowSum m V r c⟩

/-- A stage-two sum is six stage-one values filtered once more, so it has the range of that. -/
theorem doubleSum_range (m : List Host.Cell) (V : View) (y x : Int) :
    -214200 ≤ doubleSum m V y x ∧ doubleSum m V y x ≤ 475320 :=
  tap6_range (rowSum_range m V _ x) (rowSum_range m V _ x) (rowSum_range m V _ x) (rowSum_range m V _ x)
    (rowSum_range m V _ x) (rowSum_range m V _ x)

/-- Settles O11: the range of a double sum lies inside that of 20 signed bits; the ends are computed. -/
theorem stageTwoFitsTwentyBits : Obligations.StageTwoFitsTwentyBits := by
  refine ⟨fun m V y x => ?_, by decide, by decide⟩
  obtain ⟨low, high⟩ := doubleSum_range m V y x
  exact ⟨low, high, toInt_ofInt_20 (by omega)⟩

/-! ## The order of the axes (R95) -/

/-- Six samples filtered once give a sum in the range of stage one, along either axis. -/
theorem tap6_range_of_samples {p0 p1 p2 p3 p4 p5 : Int} (h0 : 0 ≤ p0 ∧ p0 ≤ 255) (h1 : 0 ≤ p1 ∧ p1 ≤ 255)
    (h2 : 0 ≤ p2 ∧ p2 ≤ 255) (h3 : 0 ≤ p3 ∧ p3 ≤ 255) (h4 : 0 ≤ p4 ∧ p4 ≤ 255) (h5 : 0 ≤ p5 ∧ p5 ≤ 255) :
    -2550 ≤ tap6 p0 p1 p2 p3 p4 p5 ∧ tap6 p0 p1 p2 p3 p4 p5 ≤ 10710 := by
  unfold tap6
  omega

theorem colSum_range (m : List Host.Cell) (V : View) (r c : Int) : -2550 ≤ colSum m V r c ∧ colSum m V r c ≤ 10710 :=
  tap6_range_of_samples (viewSample_range m V _ c) (viewSample_range m V _ c) (viewSample_range m V _ c)
    (viewSample_range m V _ c) (viewSample_range m V _ c) (viewSample_range m V _ c)

/-- `tap6` is linear, so both orders of the axes give the double sum of R88 over the same 36 samples. -/
theorem tap6_colSum_eq_doubleSum (m : List Host.Cell) (V : View) (y x : Int) :
    tap6 (colSum m V y (x - 2)) (colSum m V y (x - 1)) (colSum m V y x)
      (colSum m V y (x + 1)) (colSum m V y (x + 2)) (colSum m V y (x + 3)) = doubleSum m V y x := by
  simp only [doubleSum, rowSum, colSum, tap6]
  ring

/-- Settles O12: exchange of the two sums, and the range of a column sum. -/
theorem axisOrderUnobservable : Obligations.AxisOrderUnobservable := fun m V y x =>
  ⟨tap6_colSum_eq_doubleSum m V y x, colSum_range m V y x⟩

/-! ## Shifted double sums, `MID`, and `FILT_C` (R88 to R91) -/

/-- The double sum around a position of a shifted view is the double sum around the shifted position. -/
theorem doubleSum_viewShift (m : List Host.Cell) (V : View) (dr dc y x : Int) :
    doubleSum m (viewShift V dr dc) y x = doubleSum m V (y + dr) (x + dc) := by
  simp only [doubleSum, rowSum_viewShift, sub_add_eq_add_sub, add_right_comm y _ dr]

/-- The result of a centre term, sample by sample, in the source view. -/
theorem termResult_filtC (dr dc : Bool) (m : List Host.Cell) (S : View) :
    termResult { op := .filtC, dr := dr, dc := dc } m S =
      fun (y x : Nat) => clipU8 (shiftRight (doubleSum m S (y + shiftOf dr) (x + shiftOf dc) + 512) 10) := by
  funext y x
  exact congrArg roundTwo (doubleSum_viewShift m S (shiftOf dr) (shiftOf dc) y x)

/-- `MID` as a whole after stage one: the unrounded row sums inside the block, the old entries outside. -/
theorem midAt_stageOne_eq_ite (V : View) (w h : Nat) (s : State) {k x : Nat} (hk : k < 21) (hx : x < 16) :
    midAt (stageOne V w h s).mid k x =
      if k < h + 5 ∧ x < w then rowSum s.mem V ((k : Int) - 2) x else midAt s.mid k x := by
  rw [stageOne_mid, midAt_midWrite _ _ _ _ hk hx, toInt_ofInt_rowSum]
  simp only [and_comm]

/-- `MID` after a centre term was written to the destination, in the source view. -/
theorem midAt_termToDest_filtC (dr dc : Bool) (w : Nat) (s : State) {k x : Nat} (hk : k < 21) (hx : x < 16) :
    midAt (termToDest { op := .filtC, dr := dr, dc := dc } w s).mid k x =
      if k < blockHeight s.x + 5 ∧ x < w then
        rowSum s.mem (sourceView s.x) ((k : Int) - 2 + shiftOf dr) (x + shiftOf dc)
      else midAt s.mid k x := by
  rw [← rowSum_viewShift]
  exact midAt_stageOne_eq_ite _ w (blockHeight s.x) s hk hx

/-- The next state of a term's row is the one with the term's block written to the destination. -/
theorem eq_termToDest_of_exec_termInstr {t : Term} {s s' : State} (legal : widthLegal s.x.width = true)
    (h : exec t.instr s = .next s') : s' = termToDest t s.x.width.toNat s := by
  rw [exec_termInstr, withBlockWidth_legal legal] at h
  exact (runSingle_eq_next.mp h).2

/-- Settles O19: `FILT_C` is the row of the centre term, whose results these are; its stage one leaves this `MID`. -/
theorem filtCCompletes : Obligations.FiltCCompletes := by
  intro s dr dc legal contract
  obtain ⟨t, ran, dest, kept, frame, scratch⟩ := exec_termInstr_produces legal contract
  obtain ⟨tmpA, tmpB⟩ := scratch.tiles (by simp)
  rw [termResult_filtC] at dest
  refine ⟨t, ran, dest, kept, frame, tmpA, tmpB, fun k x hk hx => ?_⟩
  rw [eq_termToDest_of_exec_termInstr legal ran]
  exact midAt_termToDest_filtC dr dc s.x.width.toNat s hk hx

end Sys2Proof.Proofs
end

section
/-! SUPPORT. The proofs of the averaging family (44_avg.md): the value of an average, what follows from it, and `AVG`. -/

namespace Sys2Proof.Proofs

open Sys2Proof.Machine Sys2Proof.Safety

/-! ## The average of two samples (R97 to R99) -/

/-- The averager computes the rounded average exactly: half of a nine-bit sum fits a sample. -/
theorem avgSample_toNat (a b : Byte) : (avgSample a b).toNat = (a.toNat + b.toNat + 1) / 2 := by
  rw [avgSample_eq_averageOf, averageOf_toNat]

theorem avgSample_comm (a b : Byte) : avgSample a b = avgSample b a := by
  apply BitVec.eq_of_toNat_eq
  rw [avgSample_toNat, avgSample_toNat, Nat.add_comm a.toNat]

theorem avgSample_self (a : Byte) : avgSample a a = a := by
  apply BitVec.eq_of_toNat_eq
  rw [avgSample_toNat]
  omega

theorem min_le_avgSample (a b : Byte) : min a.toNat b.toNat ≤ (avgSample a b).toNat := by
  rw [avgSample_toNat]
  omega

theorem avgSample_le_max (a b : Byte) : (avgSample a b).toNat ≤ max a.toNat b.toNat := by
  rw [avgSample_toNat]
  omega

/-- Settles O14: the laws follow from the exact value; the nine-bit sum 511 is a case of idempotence. -/
theorem averageLaws : Obligations.AverageLaws :=
  ⟨fun a b => ⟨avgSample_toNat a b, avgSample_comm a b, avgSample_self a, min_le_avgSample a b, avgSample_le_max a b⟩,
    avgSample_self 255⟩

/-! ## `AVG` (R97; 45_phase_table.md R102) -/

/-- With a legal width the row of an average is the two-term recipe at that width. -/
theorem exec_avg_of_legal (a b : Term) {s : State} (legal : widthLegal s.x.width = true) :
    exec (.avg a b) s = runAverage a b s.x.width.toNat s :=
  withBlockWidth_legal (f := fun w => runAverage a b w s) legal

/-- Settles O20: the recipe of two terms writes the averages, and its next state, the only one it can answer, holds the
terms' blocks in the two buffers. -/
theorem avgCompletes : Obligations.AvgCompletes := by
  intro s a b legal contract
  have wide := widthLegal_le legal
  have tall := contract.operands.height_max
  obtain ⟨t, ran, dest, kept, frame, scratch⟩ := runAverage_produces contract wide
  obtain ⟨-, rfl⟩ := runAverage_eq_next.mp ran
  refine ⟨_, (exec_avg_of_legal a b legal).trans ran, dest, kept, frame, scratch, fun y x hy hx => ?_⟩
  rw [averageToDest_tmpA, averageToDest_tmpB]
  exact ⟨tmpA_of_average a b _ s hy hx wide tall, tmpB_of_average a b _ s hy hx wide tall⟩

end Sys2Proof.Proofs
end

section
/-! SUPPORT. The proofs of the phase-table family (45_phase_table.md): the rows of the printed table (R105 to R120) at the
three widths, a row as its recipe word (R102), blocks side by side (R122), constant sources (R124), and the padding window
(R121). -/

namespace Sys2Proof.Proofs

open Sys2Proof.Machine Sys2Proof.Safety

/-! ## A row as its recipe word (R102) -/

theorem widthLegal_of_toNat {w : Word} (h : w.toNat = 4 ∨ w.toNat = 8 ∨ w.toNat = 16) : widthLegal w = true := by
  rcases h with h | h | h
  · rw [BitVec.eq_of_toNat_eq (y := 4) h]; rfl
  · rw [BitVec.eq_of_toNat_eq (y := 8) h]; rfl
  · rw [BitVec.eq_of_toNat_eq (y := 16) h]; rfl

theorem selectedWidth_cases (wsel : BitVec 2) :
    selectedWidth wsel = 4 ∨ selectedWidth wsel = 8 ∨ selectedWidth wsel = 16 := by
  revert wsel
  decide

/-- Settles O41: with `WIDTH` that of the key, both rows are the recipe of the key's word at that width. -/
theorem caseRunsItsRecipeWord : Obligations.CaseRunsItsRecipeWord := by
  intro k i s key width
  have legal : widthLegal s.x.width = true := widthLegal_of_toNat (width ▸ selectedWidth_cases _)
  obtain ⟨j, word⟩ := decodeRecipeWord_of_wellFormed (romWord_wellFormed s.rom (k.extractLsb' 0 4))
  refine ⟨j, word, ?_⟩
  rw [exec_keyInstr key, exec_recipeInstr word, withBlockWidth_legal legal, width, runCase]

/-! ## The rows of the printed table (R101, R105 to R120) -/

/-- A term without a shift is taken on the source view itself. -/
theorem termView_plain (op : UnitOp) (S : View) : termView S (plain op) = S := by
  simp [termView, viewShift, shiftOf]

theorem termResult_plain_copy (m : List Host.Cell) (S : View) : termResult (plain .copy) m S = copySample m S :=
  congrArg (copySample m) (termView_plain .copy S)

theorem termResult_plain_filtH (m : List Host.Cell) (S : View) : termResult (plain .filtH) m S = filtHSample m S :=
  congrArg (filtHSample m) (termView_plain .filtH S)

theorem termResult_plain_filtV (m : List Host.Cell) (S : View) : termResult (plain .filtV) m S = filtVSample m S :=
  congrArg (filtVSample m) (termView_plain .filtV S)

theorem termResult_plain_filtC (m : List Host.Cell) (S : View) : termResult (plain .filtC) m S = centreSample m S :=
  congrArg (centreSample m) (termView_plain .filtC S)

/-- Within contract a case produces the result of its word of the ROM. -/
theorem runCase_produces {p : BitVec 4} {w : Nat} {s : State}
    (contract : InContract w (recipeTerms (romWord s.rom.words p)) s) (hw : w ≤ 16) :
    Produces (runCase w p s) s w (recipeTerms (romWord s.rom.words p))
      (recipeResult (romWord s.rom.words p) s.mem (sourceView s.x)) :=
  runRecipe_produces (romWord_wellFormed s.rom p) contract hw

section
variable {s : State} (rom : s.rom.words = Config.romDoc) {p : BitVec 4}
include rom

/-- Under `ROM_DOC` the case `p`, whose printed word has the terms `ts` and the result `f`, produces `f` at each width
(R122). -/
theorem case_produces_at_each_width {ts : List Term} {f : Nat → Nat → Byte}
    (terms : recipeTerms (romWord Config.romDoc p) = ts)
    (result : recipeResult (romWord Config.romDoc p) s.mem (sourceView s.x) = f) :
    (InContract 4 ts s → Produces (runCase 4 p s) s 4 ts f) ∧
    (InContract 8 ts s → Produces (runCase 8 p s) s 8 ts f) ∧
    (InContract 16 ts s → Produces (runCase 16 p s) s 16 ts f) := by
  subst terms result
  rw [← rom]
  exact ⟨fun h => runCase_produces h (by decide), fun h => runCase_produces h (by decide),
    fun h => runCase_produces h (by decide)⟩

/-- The rows of the printed table with a single term. -/
theorem single_case_produces {t : Term} {f : Nat → Nat → Byte}
    (word : decodeRecipe (romWord Config.romDoc p) = { avg := false, a := t, b := Term.zero })
    (result : termResult t s.mem (sourceView s.x) = f) :
    (InContract 4 [t] s → Produces (runCase 4 p s) s 4 [t] f) ∧
    (InContract 8 [t] s → Produces (runCase 8 p s) s 8 [t] f) ∧
    (InContract 16 [t] s → Produces (runCase 16 p s) s 16 [t] f) := by
  refine case_produces_at_each_width rom (by simp [recipeTerms, word]) ?_
  funext y x
  simp [recipeResult, word, result]

/-- The rows of the printed table with an average. -/
theorem average_case_produces {a b : Term} {f g : Nat → Nat → Byte}
    (word : decodeRecipe (romWord Config.romDoc p) = { avg := true, a := a, b := b })
    (resultA : termResult a s.mem (sourceView s.x) = f) (resultB : termResult b s.mem (sourceView s.x) = g) :
    (InContract 4 [a, b] s → Produces (runCase 4 p s) s 4 [a, b] fun y x => averageOf (f y x) (g y x)) ∧
    (InContract 8 [a, b] s → Produces (runCase 8 p s) s 8 [a, b] fun y x => averageOf (f y x) (g y x)) ∧
    (InContract 16 [a, b] s → Produces (runCase 16 p s) s 16 [a, b] fun y x => averageOf (f y x) (g y x)) := by
  refine case_produces_at_each_width rom (by simp [recipeTerms, word]) ?_
  funext y x
  simp [recipeResult, word, resultA, resultB]

end

/-- Settles O22: word 0x000. -/
theorem caseV0H0Copy : Obligations.CaseV0H0Copy := fun _ rom =>
  single_case_produces rom (p := 0b0000) (by decide) (termResult_plain_copy _ _)

/-- Settles O23: word 0x104. -/
theorem caseV0H1AverageCopyH : Obligations.CaseV0H1AverageCopyH := fun _ rom =>
  average_case_produces rom (p := 0b0001) (by decide) (termResult_plain_copy _ _) (termResult_plain_filtH _ _)

/-- Settles O24: word 0x040. -/
theorem caseV0H2H : Obligations.CaseV0H2H := fun _ rom =>
  single_case_produces rom (p := 0b0010) (by decide) (termResult_plain_filtH _ _)

/-- Settles O25: word 0x114. -/
theorem caseV0H3AverageCopyNextColH : Obligations.CaseV0H3AverageCopyNextColH := fun _ rom =>
  average_case_produces rom (p := 0b0011) (by decide) rfl (termResult_plain_filtH _ _)

/-- Settles O26: word 0x108. -/
theorem caseV1H0AverageCopyV : Obligations.CaseV1H0AverageCopyV := fun _ rom =>
  average_case_produces rom (p := 0b0100) (by decide) (termResult_plain_copy _ _) (termResult_plain_filtV _ _)

/-- Settles O27: word 0x184. -/
theorem caseV1H1AverageVH : Obligations.CaseV1H1AverageVH := fun _ rom =>
  average_case_produces rom (p := 0b0101) (by decide) (termResult_plain_filtV _ _) (termResult_plain_filtH _ _)

/-- Settles O28: word 0x1C8. -/
theorem caseV1H2AverageCV : Obligations.CaseV1H2AverageCV := fun _ rom =>
  average_case_produces rom (p := 0b0110) (by decide) (termResult_plain_filtC _ _) (termResult_plain_filtV _ _)

/-- Settles O29: word 0x185. -/
theorem caseV1H3AverageVHNextCol : Obligations.CaseV1H3AverageVHNextCol := fun _ rom =>
  average_case_produces rom (p := 0b0111) (by decide) (termResult_plain_filtV _ _) rfl

/-- Settles O30: word 0x080. -/
theorem caseV2H0V : Obligations.CaseV2H0V := fun _ rom =>
  single_case_produces rom (p := 0b1000) (by decide) (termResult_plain_filtV _ _)

/-- Settles O31: word 0x1C9. -/
theorem caseV2H1AverageCVNextCol : Obligations.CaseV2H1AverageCVNextCol := fun _ rom =>
  average_case_produces rom (p := 0b1001) (by decide) (termResult_plain_filtC _ _) rfl

/-- Settles O32: word 0x0C0. -/
theorem caseV2H2C : Obligations.CaseV2H2C := fun _ rom =>
  single_case_produces rom (p := 0b1010) (by decide) (termResult_plain_filtC _ _)

/-- Settles O33: word 0x1C9, as in case (2,1). -/
theorem caseV2H3AverageCVNextCol : Obligations.CaseV2H3AverageCVNextCol := fun _ rom =>
  average_case_produces rom (p := 0b1011) (by decide) (termResult_plain_filtC _ _) rfl

/-- Settles O34: word 0x128. -/
theorem caseV3H0AverageCopyNextRowV : Obligations.CaseV3H0AverageCopyNextRowV := fun _ rom =>
  average_case_produces rom (p := 0b1100) (by decide) rfl (termResult_plain_filtV _ _)

/-- Settles O35: word 0x186. -/
theorem caseV3H1AverageVHNextRow : Obligations.CaseV3H1AverageVHNextRow := fun _ rom =>
  average_case_produces rom (p := 0b1101) (by decide) (termResult_plain_filtV _ _) rfl

/-- Settles O36: word 0x1CA. -/
theorem caseV3H2AverageCVNextRow : Obligations.CaseV3H2AverageCVNextRow := fun _ rom =>
  average_case_produces rom (p := 0b1110) (by decide) (termResult_plain_filtC _ _) rfl

/-- Settles O37: word 0x1A7. -/
theorem caseV3H3AverageVNextRowHNextRowCol : Obligations.CaseV3H3AverageVNextRowHNextRowCol := fun _ rom =>
  average_case_produces rom (p := 0b1111) (by decide) rfl rfl

/-! ## The padding window (R121; 20_memory.md R45) -/

/-- In the thirteen cases no term is shifted along an axis in which its unit reads around the block. -/
theorem romDoc_shifts_within_window : ∀ p : BitVec 4, p ≠ 7 → p ≠ 14 → p ≠ 15 →
    ∀ t ∈ recipeTerms (romWord Config.romDoc p),
      (t.dr = true → readsRowsAround t.op = false) ∧ (t.dc = true → readsColsAround t.op = false) := by
  decide

/-- Along one axis: a read around the block is not shifted, so it stays within two before the block and three after it. -/
theorem shifted_read_within_window {around shift : Bool} (h : shift = true → around = false) {n : Nat} {i : Int}
    (read : ∃ k : Nat, k < readCount around n ∧ i = readStart around + k) :
    -2 ≤ i + shiftOf shift ∧ i + shiftOf shift ≤ n + 2 := by
  obtain ⟨k, hk, rfl⟩ := read
  cases shift with
  | false =>
    cases around <;> simp only [readCount, readStart, shiftOf, if_true, if_false, Bool.false_eq_true] at hk ⊢ <;> omega
  | true =>
    obtain rfl := h rfl
    simp only [readCount, readStart, shiftOf, if_true, if_false, Bool.false_eq_true] at hk ⊢
    omega

/-- Settles O60: the window axis by axis, and for each line past it the shifted term that reaches it. -/
theorem paddingWindowSuffices : Obligations.PaddingWindowSuffices := by
  intro w h hw hh
  have lastCol : InReadRange .filtH w h 0 (w + 2) := ⟨by omega, by omega⟩
  have lastRow : InReadRange .filtV w h (h + 2) 0 := ⟨by omega, by omega⟩
  have nextLine (n : Nat) : (n : Int) + 2 + shiftOf true = n + 3 := by simp only [shiftOf, if_true]; omega
  refine ⟨fun p h7 h14 h15 t ht r c range => ?_, ?_, ?_⟩
  · obtain ⟨rowShift, colShift⟩ := romDoc_shifts_within_window p h7 h14 h15 t ht
    obtain ⟨rows, cols⟩ := (inReadRange_iff _ _ _ _ _).1 range
    exact ⟨shifted_read_within_window rowShift rows, shifted_read_within_window colShift cols⟩
  · rintro p (rfl | rfl)
    · exact ⟨nextCol .filtH, by decide, 0, w + 2, lastCol, nextLine w⟩
    · exact ⟨nextRowCol .filtH, by decide, 0, w + 2, lastCol, nextLine w⟩
  · rintro p (rfl | rfl)
    · exact ⟨nextRow .filtV, by decide, h + 2, 0, lastRow, nextLine h⟩
    · exact ⟨nextRow .filtV, by decide, h + 2, 0, lastRow, nextLine h⟩

/-! ## Blocks side by side (R122) -/

/-- Moving the source view right moves a term's result left. -/
theorem termResult_viewShift_col (t : Term) (m : List Host.Cell) (S : View) (k y x : Nat) :
    termResult t m (viewShift S 0 k) y x = termResult t m S y (x + k) := by
  obtain ⟨op, dr, dc⟩ := t
  have column : (x : Int) + shiftOf dc + k = ((x + k : Nat) : Int) + shiftOf dc := by omega
  cases op
  · simp only [termResult_copy, viewAddr_viewShift, add_zero, column]
  · simp only [termResult_filtH, rowSum_viewShift, add_zero, column]
  · simp only [termResult_filtV, colSum_viewShift, add_zero, column]
  · simp only [termResult_filtC, doubleSum_viewShift, add_zero, column]

/-- Settles O15: both runs compute the unit rules' results, which a moved view only renumbers. -/
theorem widthsSideBySide : Obligations.WidthsSideBySide := by
  intro t s half w y x hw tall hy mem height
  have sameHeight : blockHeight half.x = blockHeight s.x := congrArg BitVec.toNat height
  have whole (hx : x < w) := termBlock_eq_termResult t s hy hx (by omega) tall
  have halved {x' : Nat} (hx : x' < w / 2) :=
    termBlock_eq_termResult t half (sameHeight ▸ hy) hx (by omega) (sameHeight ▸ tall)
  refine ⟨fun hx view => ?_, fun left hx view => ?_⟩
  · rw [whole (by omega), halved hx, mem, view]
  · rw [whole hx, halved (by omega), mem, view, termResult_viewShift_col, Nat.sub_add_cancel left]

/-! ## Constant sources (R124 (a)) -/

theorem tap6_const (v : Int) : tap6 v v v v v v = 32 * v := by
  unfold tap6
  omega

theorem rowSum_const {m : List Host.Cell} {V : View} {r c v : Int}
    (h : ∀ k, c - 2 ≤ k → k ≤ c + 3 → viewSample m V r k = v) : rowSum m V r c = 32 * v := by
  rw [rowSum, h (c - 2) (by omega) (by omega), h (c - 1) (by omega) (by omega), h c (by omega) (by omega),
    h (c + 1) (by omega) (by omega), h (c + 2) (by omega) (by omega), h (c + 3) (by omega) (by omega), tap6_const]

theorem colSum_const {m : List Host.Cell} {V : View} {r c v : Int}
    (h : ∀ k, r - 2 ≤ k → k ≤ r + 3 → viewSample m V k c = v) : colSum m V r c = 32 * v := by
  rw [colSum, h (r - 2) (by omega) (by omega), h (r - 1) (by omega) (by omega), h r (by omega) (by omega),
    h (r + 1) (by omega) (by omega), h (r + 2) (by omega) (by omega), h (r + 3) (by omega) (by omega), tap6_const]

theorem doubleSum_const {m : List Host.Cell} {V : View} {r c v : Int}
    (h : ∀ k, r - 2 ≤ k → k ≤ r + 3 → rowSum m V k c = 32 * v) : doubleSum m V r c = 1024 * v := by
  rw [doubleSum, h (r - 2) (by omega) (by omega), h (r - 1) (by omega) (by omega), h r (by omega) (by omega),
    h (r + 1) (by omega) (by omega), h (r + 2) (by omega) (by omega), h (r + 3) (by omega) (by omega), tap6_const]
  omega

theorem clipU8_sample (c : Byte) : clipU8 c.toNat = c := by
  have := c.isLt
  have fits : ((clipU8 c.toNat).toNat : Int) = c.toNat := clipU8_toNat_of_fits (by omega) (by omega)
  exact BitVec.eq_of_toNat_eq (by exact_mod_cast fits)

/-- The weights of one stage add to 32, which the shift by 5 undoes. -/
theorem roundOne_const (c : Byte) : roundOne (32 * c.toNat) = c := by
  have quotient : shiftRight (32 * (c.toNat : Int) + 16) 5 = c.toNat := by
    unfold shiftRight
    omega
  exact (congrArg clipU8 quotient).trans (clipU8_sample c)

/-- The weights of two stages add to 1024, which the shift by 10 undoes. -/
theorem roundTwo_const (c : Byte) : roundTwo (1024 * c.toNat) = c := by
  have quotient : shiftRight (1024 * (c.toNat : Int) + 512) 10 = c.toNat := by
    unfold shiftRight
    omega
  exact (congrArg clipU8 quotient).trans (clipU8_sample c)

/-- A term whose read range holds `c` everywhere has the result `c`. -/
theorem termResult_const {t : Term} {m : List Host.Cell} {S : View} {w h : Nat} {c : Byte}
    (const : ∀ i j, InReadRange t.op w h i j → sampleAt m (viewAddr (termView S t) i j) = c) {y x : Nat} (hy : y < h)
    (hx : x < w) : termResult t m S y x = c := by
  obtain ⟨op, dr, dc⟩ := t
  have sample : ∀ i j, InReadRange op w h i j → viewSample m (termView S ⟨op, dr, dc⟩) i j = c.toNat := fun i j range =>
    congrArg (fun b : Byte => (b.toNat : Int)) (const i j range)
  cases op with
  | copy => exact const y x ⟨by omega, by omega⟩
  | filtH =>
    have sum := rowSum_const (r := y) (c := x) fun k _ _ => sample y k ⟨by omega, by omega⟩
    exact (congrArg roundOne sum).trans (roundOne_const c)
  | filtV =>
    have sum := colSum_const (r := y) (c := x) fun k low high => sample k x (inReadRange_filtV hx hy low high)
    exact (congrArg roundOne sum).trans (roundOne_const c)
  | filtC =>
    have sum := doubleSum_const (r := y) (c := x) fun k _ _ => rowSum_const fun j _ _ => sample k j ⟨by omega, by omega⟩
    exact (congrArg roundTwo sum).trans (roundTwo_const c)

theorem averageOf_self (a : Byte) : averageOf a a = a := by
  rw [← avgSample_eq_averageOf, avgSample_self]

/-- A recipe whose terms have the result `c` has the result `c`. -/
theorem recipeResult_const {r : BitVec 9} {m : List Host.Cell} {S : View} {c : Byte} {y x : Nat}
    (const : ∀ t ∈ recipeTerms r, termResult t m S y x = c) : recipeResult r m S y x = c := by
  unfold recipeTerms at const
  unfold recipeResult
  split at const
  · next avg => rw [if_pos avg, const _ (by simp), const _ (by simp), averageOf_self]
  · next avg => rw [if_neg avg, const _ (by simp)]

/-- Within contract `PREDICT_LUMA` completes after its recipe has written its result. -/
theorem exec_predictLuma_produces {d : Operands} {s : State} (legal : widthLegal d.width = true)
    (contract : InContract d.width.toNat (recipeTerms (romWord s.rom.words (phaseIndex d))) (issueCommand d s)) :
    ∃ u, exec (.predictLuma d) s = .next (completeCommand u) ∧
      DestHolds u.mem d d.width.toNat (recipeResult (romWord s.rom.words (phaseIndex d)) s.mem (sourceView d)) ∧
      KeptOutside s.mem u.mem d d.width.toNat ∧ EngineFrame (issueCommand d s) u := by
  obtain ⟨u, ran, dest, kept, frame, -⟩ := runRecipe_produces (romWord_wellFormed s.rom (phaseIndex d)) contract
    (widthLegal_le legal)
  refine ⟨u, ?_, dest, kept, frame⟩
  rw [exec_predictLuma legal, ran, andThen_next]

/-- Settles O44: every term of the recipe gives the constant, and so does their average. -/
theorem constantInputGivesConstantOutput : Obligations.ConstantInputGivesConstantOutput := by
  intro d s c legal contract const
  obtain ⟨u, ran, dest, -⟩ := exec_predictLuma_produces legal contract
  refine ⟨_, ran, destHolds_congr dest fun y x hy hx => recipeResult_const fun t ht => ?_⟩
  exact termResult_const (fun i j range => const _ ⟨t, ht, i, j, range, rfl⟩) hy hx

end Sys2Proof.Proofs
end

section
/-! SUPPORT. The proofs of the dispatcher family (46_dispatcher.md): the width check that stands before every unit (R128),
`PREDICT_LUMA` as its dispatch key's row (R125), its outcome within contract (R129, R130), and what its result depends on
(R132). -/

namespace Sys2Proof.Proofs

open Sys2Proof.Machine Sys2Proof.Safety

/-! ## The width check (R128) -/

theorem withBlockWidth_illegal {s : State} {f : Nat → Result} (h : widthLegal s.x.width = false) :
    withBlockWidth s f = .refused .widthNotDispatched := by
  rw [withBlockWidth, h, if_neg Bool.false_ne_true]

theorem exec_termInstr_illegal (t : Term) {s : State} (h : widthLegal s.x.width = false) :
    exec t.instr s = .refused .widthNotDispatched := by
  rw [exec_termInstr, withBlockWidth_illegal h]

/-- Settles O21: four of the rows are the rows of terms; all five take their width from `WIDTH`. -/
theorem unitRowsNeedDispatchedWidth : Obligations.UnitRowsNeedDispatchedWidth := fun _ dr dc a b illegal =>
  ⟨exec_termInstr_illegal ⟨.copy, dr, dc⟩ illegal, exec_termInstr_illegal ⟨.filtH, dr, dc⟩ illegal,
    exec_termInstr_illegal ⟨.filtV, dr, dc⟩ illegal, exec_termInstr_illegal ⟨.filtC, dr, dc⟩ illegal,
    withBlockWidth_illegal (f := fun w => runAverage a b w _) illegal⟩

/-! ## The command and its dispatch key (R125 steps 5 to 7) -/

/-- Settles O40: the key gives back the width and the phases the command takes from its descriptor. -/
theorem predictRunsItsDispatchKey : Obligations.PredictRunsItsDispatchKey := by
  intro d s k i key row
  obtain ⟨legal, width, phase⟩ := fields_of_dispatchKey key
  rw [exec_predictLuma legal, exec_keyInstr row, width, phase, runCase, issueCommand_rom]

/-! ## The outcome within contract (R129, R130) -/

/-- Settles O38: the recipe keeps the issued registers, and the completion turns the issued `STATUS` into 0x02. -/
theorem predictLumaWritesPrediction : Obligations.PredictLumaWritesPrediction := by
  intro d s legal contract
  obtain ⟨u, ran, dest, kept, frame⟩ := exec_predictLuma_produces legal contract
  have status : (completeCommand u).status = 0x02 := by
    rw [completeCommand_status, frame.status, issueCommand_status, statusCompleted_statusIssued]
  exact ⟨completeCommand u, ran, dest, kept, frame.operands, status, rfl, frame.rom, rfl, frame.agenda, frame.replies, rfl⟩

/-! ## What a result depends on (R132; 20_memory.md R43) -/

section
variable {m m' : List Host.Cell} {V : View} {r c : Int}

/-- A row sum depends on its six samples. -/
theorem rowSum_congr (h : ∀ k, c - 2 ≤ k → k ≤ c + 3 → viewSample m V r k = viewSample m' V r k) :
    rowSum m V r c = rowSum m' V r c := by
  rw [rowSum, h (c - 2) (by omega) (by omega), h (c - 1) (by omega) (by omega), h c (by omega) (by omega),
    h (c + 1) (by omega) (by omega), h (c + 2) (by omega) (by omega), h (c + 3) (by omega) (by omega), rowSum]

/-- A column sum depends on its six samples. -/
theorem colSum_congr (h : ∀ k, r - 2 ≤ k → k ≤ r + 3 → viewSample m V k c = viewSample m' V k c) :
    colSum m V r c = colSum m' V r c := by
  rw [colSum, h (r - 2) (by omega) (by omega), h (r - 1) (by omega) (by omega), h r (by omega) (by omega),
    h (r + 1) (by omega) (by omega), h (r + 2) (by omega) (by omega), h (r + 3) (by omega) (by omega), colSum]

/-- A double sum depends on its six row sums. -/
theorem doubleSum_congr (h : ∀ k, r - 2 ≤ k → k ≤ r + 3 → rowSum m V k c = rowSum m' V k c) :
    doubleSum m V r c = doubleSum m' V r c := by
  rw [doubleSum, h (r - 2) (by omega) (by omega), h (r - 1) (by omega) (by omega), h r (by omega) (by omega),
    h (r + 1) (by omega) (by omega), h (r + 2) (by omega) (by omega), h (r + 3) (by omega) (by omega), doubleSum]

end

/-- A term's results in a block depend on the samples of its read range. -/
theorem termResult_congr {t : Term} {m m' : List Host.Cell} {S : View} {w h : Nat}
    (agree : ∀ i j, InReadRange t.op w h i j →
      sampleAt m (viewAddr (termView S t) i j) = sampleAt m' (viewAddr (termView S t) i j)) {y x : Nat} (hy : y < h)
    (hx : x < w) : termResult t m S y x = termResult t m' S y x := by
  obtain ⟨op, dr, dc⟩ := t
  have sample : ∀ i j, InReadRange op w h i j →
      viewSample m (termView S ⟨op, dr, dc⟩) i j = viewSample m' (termView S ⟨op, dr, dc⟩) i j := fun i j range =>
    congrArg (fun b : Byte => (b.toNat : Int)) (agree i j range)
  cases op with
  | copy => exact agree y x ⟨by omega, by omega⟩
  | filtH => exact congrArg roundOne (rowSum_congr fun k _ _ => sample y k ⟨by omega, by omega⟩)
  | filtV => exact congrArg roundOne (colSum_congr fun k low high => sample k x (inReadRange_filtV hx hy low high))
  | filtC =>
    exact congrArg roundTwo (doubleSum_congr fun k _ _ => rowSum_congr fun j _ _ => sample k j ⟨by omega, by omega⟩)

/-- A recipe's result depends on the results of its terms. -/
theorem recipeResult_congr {r : BitVec 9} {m m' : List Host.Cell} {S : View} {y x : Nat}
    (agree : ∀ t ∈ recipeTerms r, termResult t m S y x = termResult t m' S y x) :
    recipeResult r m S y x = recipeResult r m' S y x := by
  unfold recipeTerms at agree
  unfold recipeResult
  split at agree
  · next avg => rw [if_pos avg, if_pos avg, agree _ (by simp), agree _ (by simp)]
  · next avg => rw [if_neg avg, if_neg avg, agree _ (by simp)]

/-- Two memories whose destination blocks hold the same samples agree on the write footprint. -/
theorem memFind_eq_of_destHolds {m m' : List Host.Cell} {x : Operands} {w : Nat} {f : Nat → Nat → Byte}
    (h : DestHolds m x w f) (h' : DestHolds m' x w f) {a : Int} (ha : Writes x w a) :
    memFind m a.toNat = memFind m' a.toNat := by
  obtain ⟨r, c, ⟨hr, hc⟩, rfl⟩ := ha
  rw [h r c hr hc, h' r c hr hc]

/-- Settles O43: both commands complete with the recipe's result, which depends on the samples of the read footprint. -/
theorem onlyReadFootprintMatters : Obligations.OnlyReadFootprintMatters := by
  intro d s s' rom legal contract contract' agree
  rw [rom] at contract'
  obtain ⟨u, ran, dest, -, frame⟩ := exec_predictLuma_produces legal contract
  obtain ⟨u', ran', dest', -, frame'⟩ := exec_predictLuma_produces legal contract'
  rw [← rom] at dest'
  refine ⟨_, _, ran, ran', ?_, fun a => memFind_eq_of_destHolds dest (destHolds_congr dest' fun y x hy hx => ?_)⟩
  · rw [completeCommand_status, completeCommand_status, frame.status, frame'.status, issueCommand_status,
      issueCommand_status]
  · refine recipeResult_congr fun t ht => (termResult_congr (fun i j range => ?_) hy hx).symm
    exact agree _ ⟨t, ht, i, j, range, rfl⟩

end Sys2Proof.Proofs
end

section
/-! SUPPORT. The proofs of the exceptions family (60_exceptions.md): the one exception, `UNSUPPORTED_WIDTH` (R141, R142), and the
stops of a command out of contract, which are none (93_implementation_defined.md U1 to U4, U6; logs 12 and 13). -/

namespace Sys2Proof.Proofs

open Sys2Proof.Machine Sys2Proof.Safety

/-! ## The one exception (R141, R142) -/

/-- Settles O39: the width check is the first thing the command does, so the error entry is all that follows the issue. -/
theorem unsupportedWidthRaises : Obligations.UnsupportedWidthRaises := by
  intro d s h4 h8 h16
  have illegal : widthLegal d.width = false := by
    simp only [widthLegal, beq_false_of_ne h4, beq_false_of_ne h8, beq_false_of_ne h16, Bool.or_false]
  refine ⟨_, exec_predictLuma_illegal illegal s, ?_, ?_, ?_, ?_, statusFailed_eq, rfl, rfl, rfl⟩
  all_goals
    rw [raiseUnsupportedWidth_status]
    decide

/-! ## The clauses of the contract, as one decision -/

/-- The locations a command touches: what it reads, then what it writes (20_memory.md R43, R44). -/
def commandFootprint (w : Nat) (ts : List Term) (x : Operands) : List Int :=
  readFootprint (sourceView x) w (blockHeight x) ts ++ writeFootprint (destView x) w (blockHeight x)

theorem mem_commandFootprint (w : Nat) (ts : List Term) (x : Operands) (a : Int) :
    a ∈ commandFootprint w ts x ↔ Reads x w ts a ∨ Writes x w a := by
  rw [commandFootprint, List.mem_append, mem_readFootprint, mem_writeFootprint]

/-- The clauses in their order, those that share a stop taken together: the bases and both footprints for the address range,
both footprints for valid locations. -/
theorem checkContract_eq_ite (w : Nat) (ts : List Term) (s : State) : checkContract w ts s =
    if heightLegal w (blockHeight s.x) then
      if stridesLegal w s.x then
        if (commandBases s.x ts ++ commandFootprint w ts s.x).all addressInRange then
          if (commandFootprint w ts s.x).all (validLocation s.mem) then
            if footprintsMeet (readFootprint (sourceView s.x) w (blockHeight s.x) ts)
                (writeFootprint (destView s.x) w (blockHeight s.x)) then .refused .footprintsOverlap
            else .next s
          else .fault .invalidLocation
        else .refused .addressOverflow
      else .refused .strideOutOfContract
    else .refused .heightOutOfContract := by
  unfold checkContract commandFootprint
  simp only [List.all_append, Bool.and_eq_true, ite_and, ← Bool.not_eq_true, ite_not]

theorem all_addressInRange_iff (w : Nat) (ts : List Term) (x : Operands) :
    (commandBases x ts ++ commandFootprint w ts x).all addressInRange = true ↔
      ∀ a, (a ∈ commandBases x ts ∨ Reads x w ts a ∨ Writes x w a) → 0 ≤ a ∧ a < Config.addressEnd := by
  simp only [List.all_eq_true, List.mem_append, mem_commandFootprint, addressInRange_iff]

theorem all_validLocation_iff (w : Nat) (ts : List Term) (x : Operands) (m : List Host.Cell) :
    (commandFootprint w ts x).all (validLocation m) = true ↔ ∀ a, (Reads x w ts a ∨ Writes x w a) → Valid m a := by
  simp only [List.all_eq_true, mem_commandFootprint, validLocation_iff]

theorem footprintsMeet_iff (w : Nat) (ts : List Term) (x : Operands) :
    footprintsMeet (readFootprint (sourceView x) w (blockHeight x) ts)
      (writeFootprint (destView x) w (blockHeight x)) = true ↔ ∃ a, Reads x w ts a ∧ Writes x w a := by
  simp only [footprintsMeet, List.any_eq_true, decide_eq_true_eq, mem_readFootprint, mem_writeFootprint]

/-! ## A command out of contract -/

/-- A recipe begins with the contract check of its terms. -/
theorem runRecipe_checks {r : BitVec 9} (wellFormed : (decodeRecipe r).wellFormed = true) (w : Nat) (s : State) :
    ∃ rest, runRecipe r w s = andThen (checkContract w (recipeTerms r) s) rest := by
  unfold runRecipe recipeTerms
  rw [if_neg (by simp [wellFormed])]
  split
  · exact ⟨_, rfl⟩
  · exact ⟨_, rfl⟩

/-- A command with a legal width begins with the contract check of its recipe's terms, in the issued state. -/
theorem exec_predictLuma_checks {d : Operands} (legal : widthLegal d.width = true) (s : State) :
    ∃ rest, exec (.predictLuma d) s = andThen
      (checkContract d.width.toNat (recipeTerms (romWord s.rom.words (phaseIndex d))) (issueCommand d s)) rest := by
  obtain ⟨rest, checks⟩ := runRecipe_checks (romWord_wellFormed s.rom (phaseIndex d)) d.width.toNat (issueCommand d s)
  rw [exec_predictLuma legal, checks]
  cases checkContract d.width.toNat (recipeTerms (romWord s.rom.words (phaseIndex d))) (issueCommand d s) with
  | next u => exact ⟨fun u => andThen (rest u) fun t => .next (completeCommand t), rfl⟩
  | fault e => exact ⟨rest, rfl⟩
  | refused e => exact ⟨rest, rfl⟩

/-- Settles O42: the command begins with the contract check, which decides the clauses in this order. -/
theorem outOfContractStops : Obligations.OutOfContractStops := by
  intro d s legal w ts heightOk stridesOk inRange allValid meet
  have height : heightLegal w (blockHeight d) = true ↔ heightOk := by rw [heightLegal_iff, and_assoc]
  have strides : stridesLegal w d = true ↔ stridesOk := stridesLegal_iff w d
  have range := all_addressInRange_iff w ts d
  have valid := all_validLocation_iff w ts d s.mem
  have meets := footprintsMeet_iff w ts d
  obtain ⟨rest, checks⟩ := exec_predictLuma_checks legal s
  rw [checks, checkContract_eq_ite, issueCommand_x, issueCommand_mem]
  refine ⟨fun h => ?_, fun h1 h => ?_, fun h1 h2 h => ?_, fun h1 h2 h3 h => ?_, fun h1 h2 h3 h4 h => ?_⟩
  · rw [if_neg (mt height.1 h), andThen_refused]
  · rw [if_pos (height.2 h1), if_neg (mt strides.1 h), andThen_refused]
  · rw [if_pos (height.2 h1), if_pos (strides.2 h2), if_neg (mt range.1 h), andThen_refused]
  · rw [if_pos (height.2 h1), if_pos (strides.2 h2), if_pos (range.2 h3), if_neg (mt valid.1 h), andThen_fault]
  · rw [if_pos (height.2 h1), if_pos (strides.2 h2), if_pos (range.2 h3), if_pos (valid.2 h4), if_pos (meets.2 h),
      andThen_refused]

end Sys2Proof.Proofs
end

section
/-! SUPPORT. The proofs of the reset and hazards family (70_reset_and_hazards.md): reset of an idle and of a running engine (R151
to R154), and the host's accesses while a command runs (hazards H3 and H4, R159, R160; log 14). -/

namespace Sys2Proof.Proofs

open Sys2Proof.Machine Sys2Proof.Safety

/-! ## Reset of an idle engine (R151, R153, R154) -/

/-- Settles O54: the turn is taken, since the engine is idle, and reset is this update of the state. -/
theorem resetOfIdleEngine : Obligations.ResetOfIdleEngine := by
  intro s rest idle agenda
  have taken : step s = .next (resetEngine { s with agenda := rest }) := by
    rw [step_of_idle idle agenda]
    simp only [takeEvent, hostTurn, idle]
  exact ⟨_, taken, rfl, rfl, rfl, rfl, rfl, rfl, rfl⟩

/-! ## The engine's turn keeps the set of valid locations (20_memory.md R34) -/

/-- A location that holds a sample is found with that sample. -/
theorem memFind_eq_sampleAt {m : List Host.Cell} {a : Int} (valid : (memFind m a.toNat).isSome = true) :
    memFind m a.toNat = some (sampleAt m a) := by
  obtain ⟨b, found⟩ := Option.isSome_iff_exists.1 valid
  rw [sampleAt, found, Option.getD_some]

theorem memEnds_isSome {s : State} {m : List Host.Cell} (ends : MemEnds s m) (a : Nat) :
    (memFind m a).isSome = (memFind s.mem a).isSome := by
  cases run : runningCommand s with simp only [MemEnds, run] at ends
  | none => rw [ends]
  | some c =>
    obtain ⟨contract, f, rfl⟩ := ends
    exact writeBlock_isSome contract f a

/-- A command with a footprint that ends was within contract. -/
theorem inContract_of_memEnds {s : State} {m : List Host.Cell} {w : Nat} {ts : List Term}
    (run : runningCommand s = some (w, ts)) (ends : MemEnds s m) : InContract w ts s := by
  simp only [MemEnds, run] at ends
  exact ends.1

theorem settleRaces_ended_isSome {s u : State} (ended : CommandEnded s u) (a : Nat) :
    (memFind (settleRaces s u).mem a).isSome = (memFind s.mem a).isSome := by
  rw [← memEnds_isSome ended.mem a]
  cases run : runningCommand s with
  | none => rw [settleRaces_of_none run]
  | some c => exact settleRaces_isSome run (inContract_of_memEnds run ended.mem) (memEnds_isSome ended.mem) a

/-! ## Reset of a running command (R152; log 15) -/

/-- After a reset each location holds its old sample or the final one, where every destination location has a final one. -/
theorem memFind_abandonedMem (n : Nat) {m final : List Host.Cell} {D : View} {w h : Nat}
    (valid : ∀ r c : Nat, r < h → c < w → (memFind final (viewAddr D r c).toNat).isSome = true) (a : Nat) :
    memFind (abandonedMem n m final D w h) a = memFind m a ∨
      memFind (abandonedMem n m final D w h) a = memFind final a := by
  refine List.foldlRecOn (motive := fun m' => memFind m' a = memFind m a ∨ memFind m' a = memFind final a) _ _ (.inl rfl) ?_
  rintro m' ih ⟨r, c⟩ position
  obtain ⟨hr, hc⟩ := (mem_blockGrid h w r c).1 position
  split
  · rw [memFind_memSet]
    split
    · next here => exact .inr (by rw [here, memFind_eq_sampleAt (valid r c hr hc)])
    · exact ih
  · exact ih

/-- Everything the reset of a running command does, where the engine's turn would answer `u`. -/
theorem abandonCommand_of_engineTurn {s u : State} (run : s.seq = .run) (turn : engineTurn s = .next u) :
    ∃ m, abandonCommand s = .next (resetEngine { s with mem := m }) ∧
      ∀ a : Nat, memFind m a = memFind s.mem a ∨ memFind m a = memFind u.mem a := by
  unfold abandonCommand
  rw [turn, andThen_next]
  cases command : runningCommand s with
  | none => exact ⟨s.mem, rfl, fun _ => .inl rfl⟩
  | some c =>
    obtain ⟨v, ended, rfl⟩ := engineTurn_eq_next run turn
    have contract := inContract_of_memEnds command ended.mem
    refine ⟨_, rfl, memFind_abandonedMem s.draws fun r c hr hc => ?_⟩
    rw [settleRaces_ended_isSome ended]
    exact (contract.writes _ ⟨r, c, ⟨hr, hc⟩, rfl⟩).2

/-- Settles O55: reset never waits, and abandons the command. -/
theorem resetAbandonsRunningCommand : Obligations.ResetAbandonsRunningCommand := by
  intro s u rest run agenda turn
  obtain ⟨m, abandoned, oldOrFinal⟩ := abandonCommand_of_engineTurn (s := { s with agenda := rest }) run turn
  have taken : step s = abandonCommand { s with agenda := rest } := by
    rw [step_of_taken agenda (by rw [run]; rfl)]
    simp only [takeEvent, hostTurn, run]
  exact ⟨_, taken.trans abandoned, rfl, rfl, rfl, rfl, rfl, rfl, oldOrFinal⟩

/-! ## The host's accesses while a command runs (R159, R160; log 14) -/

section
variable {s : State} {w : Nat} {ts : List Term} {rest : List Event} {a : Nat} {v : Byte}

theorem step_of_writeSample (range : a < Config.addressEnd) (agenda : s.agenda = .host (.writeSample a v) :: rest) :
    step s = hostWrite a v { s with agenda := rest } := by
  have inRange : addressInRange a = true := (addressInRange_iff a).2 (by omega)
  rw [step_of_taken agenda (by cases s.seq <;> rfl)]
  simp only [takeEvent, hostTurn, inRange, if_true]

theorem step_of_readSample (found : memFind s.mem a = some v) (agenda : s.agenda = .host (.readSample a) :: rest) :
    step s = hostRead a v { s with agenda := rest } := by
  rw [step_of_taken agenda (by cases s.seq <;> rfl)]
  simp only [takeEvent, hostTurn, found]

theorem hostWrite_outside (run : s.seq = .run) (command : runningCommand s = some (w, ts)) (reads : ¬ Reads s.x w ts a)
    (writes : ¬ Writes s.x w a) : hostWrite a v s = .next { s with mem := memSet s.mem a v } := by
  rw [hostWrite, if_neg]
  rw [mem_runningReads run command, mem_runningWrites run command]
  exact not_or.2 ⟨reads, writes⟩

/-- A write inside a footprint is performed and noted, unless the command's outcome is not defined. -/
theorem hostWrite_raced (run : s.seq = .run) (command : runningCommand s = some (w, ts))
    (inside : Reads s.x w ts a ∨ Writes s.x w a) {u : State} (turn : engineTurn s = .next u) :
    hostWrite a v s = .next { s with mem := memSet s.mem a v, raced := s.raced.insert a } := by
  rw [hostWrite, if_pos, turn, andThen_next]
  rwa [mem_runningReads run command, mem_runningWrites run command]

theorem hostRead_outside (run : s.seq = .run) (command : runningCommand s = some (w, ts)) (writes : ¬ Writes s.x w a) :
    hostRead a v s = .next (answer s (.sample a v)) := by
  rw [hostRead, if_neg (mt (mem_runningWrites run command a).1 writes)]

/-- A read inside the write footprint draws which sample it sees: the one now there, or the final one. -/
theorem hostRead_raced (run : s.seq = .run) (command : runningCommand s = some (w, ts)) (writes : Writes s.x w a)
    (found : memFind s.mem a = some v) {u : State} (turn : engineTurn s = .next u) :
    ∃ b, hostRead a v s = .next (answer { s with draws := s.draws + 1 } (.sample a b)) ∧
      (b = v ∨ memFind u.mem a = some b) := by
  rw [hostRead, if_pos ((mem_runningWrites run command a).2 writes), turn, andThen_next]
  refine ⟨_, rfl, ?_⟩
  cases Config.seesFinal s.draws
  · exact .inl rfl
  · obtain ⟨e, ended, rfl⟩ := engineTurn_eq_next run turn
    refine .inr (memFind_eq_sampleAt (a := a) ?_)
    rw [Int.toNat_natCast, settleRaces_ended_isSome ended, found, Option.isSome_some]

/-- A result whose source samples were not raced is settled as the command's, or, where its location was raced, as the
host's. -/
theorem settledSample_of_sources_kept (contract : InContract w ts s) (m : List Host.Cell) {r c : Nat}
    (hr : r < blockHeight s.x) (hc : c < w) (kept : ∀ b ∈ s.raced, ¬ ReadsFor s.x ts r c b) :
    settledSample s ts m r c = sampleAt m (viewAddr (destView s.x) r c) ∨
      ((viewAddr (destView s.x) r c).toNat ∈ s.raced ∧
        settledSample s ts m r c = sampleAt s.mem (viewAddr (destView s.x) r c)) := by
  have noSource : ¬ sourceRaced s ts r c = true := fun raced => by
    obtain ⟨b, hb, reads⟩ := (sourceRaced_iff contract hr hc).1 raced
    exact kept b hb reads
  unfold settledSample
  split
  · next lost => exact .inr ⟨lost.1, rfl⟩
  · exact .inl (by rw [finalSample, if_neg noSource])

end

/-- Settles O53: each access by its lemma, and the completion by what settling leaves in and outside the destination. -/
theorem hostRacesAreFreeChoices : Obligations.HostRacesAreFreeChoices := by
  intro s w ts run command
  refine ⟨fun a v rest range agenda => ?_, fun a v rest found agenda => ?_, fun u ran => ?_⟩
  · rw [step_of_writeSample range agenda]
    exact ⟨hostWrite_outside (s := { s with agenda := rest }) run command,
      fun inside u => hostWrite_raced (s := { s with agenda := rest }) run command inside⟩
  · rw [step_of_readSample found agenda]
    exact ⟨hostRead_outside (s := { s with agenda := rest }) run command,
      fun writes u => hostRead_raced (s := { s with agenda := rest }) run command writes found⟩
  · have ended := commandEnded_of_runTurn ran
    have contract := inContract_of_memEnds command ended.mem
    have valid := memEnds_isSome ended.mem
    obtain ⟨outside, dest⟩ := settleRaces_find command contract valid
    refine ⟨settleRaces s u, by rw [engineTurn_run run, ran, andThen_next], settleRaces_eq s u, outside,
      fun r c hr hc kept => ?_⟩
    dsimp only
    have found := (contract.writes _ ⟨r, c, ⟨hr, hc⟩, rfl⟩).2
    rw [dest r c hr hc, memFind_eq_sampleAt (m := u.mem) ((valid _).trans found), memFind_eq_sampleAt (m := s.mem) found,
      Option.some_inj, Option.some_inj]
    exact settledSample_of_sources_kept contract u.mem hr hc kept

end Sys2Proof.Proofs
end
